-- ==== Sys2Proof/Word.lean ====
section
/-! DEFINITION. The two word types of the hardware: a byte of BLK or STR (00_scope.md R11, R13) and a
32-bit host word, which is also a command word (20_memory.md R215, 30_encoding.md R300). -/

namespace Sys2Proof

/-- A byte: bits 7..0 (R11). -/
abbrev Byte := BitVec 8

/-- A host word, and a command word: 32 bits (R215, R300). -/
abbrev Word := BitVec 32

end Sys2Proof
end

