-- ==== Sys2Proof/Syntax.lean ====
section
/-! DEFINITION. The commands of TDC-CORE, one constructor per row of spec/opcode_table.json
(30_encoding.md R303), each with the operand fields its format assigns (R301). -/

namespace Sys2Proof

/-- A command. Field widths are those of R301: VAL 9 bits, NB 4 bits, LIM 10 bits, IDX 8 bits,
AD 1 bit. The other operands (CUR, N, BASE, LIMIT) are registers (R302). -/
inductive Instr where
  /-- NOP (R400). -/
  | nop
  /-- PUTBITS val, nb (R407). -/
  | putbits (val : BitVec 9) (nb : BitVec 4)
  /-- GETBITS nb (R405). -/
  | getbits (nb : BitVec 4)
  /-- PEEKBITS nb (R408). -/
  | peekbits (nb : BitVec 4)
  /-- SYMRST (R450). -/
  | symrst
  /-- SYMSCAN lim (R452). -/
  | symscan (lim : BitVec 10)
  /-- RDRANK v (R455). -/
  | rdrank (idx : BitVec 8)
  /-- RDUNIQ r (R456). -/
  | rduniq (idx : BitVec 8)
  /-- RDOCC v (R457). -/
  | rdocc (idx : BitVec 8)
  /-- FWENC (R503). -/
  | fwenc
  /-- FWDEC (R506). -/
  | fwdec
  /-- SVENC (R553). -/
  | svenc
  /-- SVDEC (R555). -/
  | svdec
  /-- P7ENC (R602). -/
  | p7enc
  /-- P7DEC (R605). -/
  | p7dec
  /-- TXTENC ad (R664): `true` is AD = 1, the adaptive variant. -/
  | txtenc (ad : Bool)
  /-- TXTDEC (R667). -/
  | txtdec
  /-- STRENC (R710). -/
  | strenc
  /-- STRDEC (R713). -/
  | strdec
  /-- XSTRENC (R755). -/
  | xstrenc
  /-- XSTRDEC (R758). -/
  | xstrdec
  deriving DecidableEq, Repr

end Sys2Proof
end

