-- ==== Sys2Proof/WellFormed.lean ====
section
/-! DEFINITION. Which commands are legal as written: the one operand check the encoding makes
(30_encoding.md R302, R304, R305 (c)). Every other field takes every value its width holds. -/

namespace Sys2Proof

/-- R302: only the field widths 1..9 are legal. -/
def legalWidth (nb : BitVec 4) : Bool := decide (1 ≤ nb.toNat) && decide (nb.toNat ≤ 9)

/-- A command R304 does not call illegal: for PUTBITS, GETBITS and PEEKBITS the width NB is 1..9. -/
def Instr.wellFormed : Instr → Bool
  | .nop => true
  | .putbits _ nb => legalWidth nb
  | .getbits nb => legalWidth nb
  | .peekbits nb => legalWidth nb
  | .symrst => true
  | .symscan _ => true
  | .rdrank _ => true
  | .rduniq _ => true
  | .rdocc _ => true
  | .fwenc => true
  | .fwdec => true
  | .svenc => true
  | .svdec => true
  | .p7enc => true
  | .p7dec => true
  | .txtenc _ => true
  | .txtdec => true
  | .strenc => true
  | .strdec => true
  | .xstrenc => true
  | .xstrdec => true

end Sys2Proof
end

