-- ==== Sys2Proof/Decode.lean ====
section
/-! DEFINITION. The decoder of command words, total on all 2^32 words (30_encoding.md R300 to R305),
and after it the encoder, from the same formats and opcode map (R301, R303, R307). -/

namespace Sys2Proof

/-- Why a word is no command: R305 (a), an opcode outside the map; R305 (b), a bit that the opcode's
format reserves. (R305 (c), the width NB, is checked by the three commands that have it, as R405, R407
and R408 write it; DEDUCED, log entry 9.) -/
inductive Illegal where
  /-- R305 (a): raised by the decoder when the opcode is not in the map; the core answers E_BADCMD. -/
  | unknownOpcode (op : BitVec 8)
  /-- R305 (b): raised by the decoder when a reserved bit is 1; the core answers E_BADCMD. -/
  | reservedBit (op : BitVec 8)
  deriving DecidableEq, Repr

/-- The six command formats of R301. -/
inductive Format where
  | z | p | g | s | t | a
  deriving DecidableEq, Repr

/-- R301's last column: the bits that must be 0. -/
def Format.reservedMask : Format → Word
  | .z => 0xFFFFFF00#32
  | .p => 0xFE00F000#32
  | .g => 0xFFFFF000#32
  | .s => 0xFC00FF00#32
  | .t => 0xFFFF0000#32
  | .a => 0xFFFFFE00#32

/-- R301: the opcode, w[7:0]. -/
def opcodeField (w : Word) : BitVec 8 := w.extractLsb' 0 8

/-- R301: NB = w[11:8]. -/
def nbField (w : Word) : BitVec 4 := w.extractLsb' 8 4

/-- R301: VAL = w[24:16]. -/
def valField (w : Word) : BitVec 9 := w.extractLsb' 16 9

/-- R301: LIM = w[25:16]. -/
def limField (w : Word) : BitVec 10 := w.extractLsb' 16 10

/-- R301: IDX = w[15:8]. -/
def idxField (w : Word) : BitVec 8 := w.extractLsb' 8 8

/-- R301: AD = w[8]. -/
def adField (w : Word) : Bool := w.getLsbD 8

/-- One row of the opcode map R303: the opcode, its format, and the command with its fields. -/
structure OpRow where
  opcode : BitVec 8
  format : Format
  build : Word → Instr

/-- The opcode map, row by row in the order of R303. -/
def opRows : List OpRow :=
  [ ⟨0x00#8, .z, fun _ => .nop⟩,
    ⟨0x01#8, .p, fun w => .putbits (valField w) (nbField w)⟩,
    ⟨0x02#8, .g, fun w => .getbits (nbField w)⟩,
    ⟨0x03#8, .g, fun w => .peekbits (nbField w)⟩,
    ⟨0x08#8, .z, fun _ => .symrst⟩,
    ⟨0x09#8, .s, fun w => .symscan (limField w)⟩,
    ⟨0x0A#8, .t, fun w => .rdrank (idxField w)⟩,
    ⟨0x0B#8, .t, fun w => .rduniq (idxField w)⟩,
    ⟨0x0C#8, .t, fun w => .rdocc (idxField w)⟩,
    ⟨0x10#8, .z, fun _ => .fwenc⟩,
    ⟨0x11#8, .z, fun _ => .fwdec⟩,
    ⟨0x12#8, .z, fun _ => .svenc⟩,
    ⟨0x13#8, .z, fun _ => .svdec⟩,
    ⟨0x14#8, .z, fun _ => .p7enc⟩,
    ⟨0x15#8, .z, fun _ => .p7dec⟩,
    ⟨0x16#8, .a, fun w => .txtenc (adField w)⟩,
    ⟨0x17#8, .z, fun _ => .txtdec⟩,
    ⟨0x18#8, .z, fun _ => .strenc⟩,
    ⟨0x19#8, .z, fun _ => .strdec⟩,
    ⟨0x1A#8, .z, fun _ => .xstrenc⟩,
    ⟨0x1B#8, .z, fun _ => .xstrdec⟩ ]

/-- The row of an opcode, if the map has one. -/
def opRow (op : BitVec 8) : Option OpRow := opRows.find? fun r => r.opcode == op

/-- R304's first two checks, in its order, and the command they leave. The third, the width NB, is made by
PUTBITS, GETBITS and PEEKBITS themselves (R405, R407, R408), with the same outcome E_BADCMD. -/
def decode (w : Word) : Except Illegal Instr :=
  match opRow (opcodeField w) with
  | none => .error (.unknownOpcode (opcodeField w))
  | some r =>
    if w &&& r.format.reservedMask = 0#32 then .ok (r.build w)
    else .error (.reservedBit (opcodeField w))

/-- What the decoder reads from a command word given as the opcode table numbers its bits: bit 0 is the
least significant bit of the one 32-bit word (R300), and every bit above `nbits` is 0. -/
def decodeTableWord (nbits w : Nat) : Option Instr :=
  match decode (BitVec.ofNat 32 (w % 2 ^ nbits)) with
  | .ok i => some i
  | .error _ => none

/-- The opcode of a command (R303). -/
def Instr.opcode : Instr → BitVec 8
  | .nop => 0x00#8
  | .putbits _ _ => 0x01#8
  | .getbits _ => 0x02#8
  | .peekbits _ => 0x03#8
  | .symrst => 0x08#8
  | .symscan _ => 0x09#8
  | .rdrank _ => 0x0A#8
  | .rduniq _ => 0x0B#8
  | .rdocc _ => 0x0C#8
  | .fwenc => 0x10#8
  | .fwdec => 0x11#8
  | .svenc => 0x12#8
  | .svdec => 0x13#8
  | .p7enc => 0x14#8
  | .p7dec => 0x15#8
  | .txtenc _ => 0x16#8
  | .txtdec => 0x17#8
  | .strenc => 0x18#8
  | .strdec => 0x19#8
  | .xstrenc => 0x1A#8
  | .xstrdec => 0x1B#8

/-- The operand bits 31:8 of a command, in place: R307's `nb<<8`, `val<<16`, `lim<<16`, `idx<<8`,
`ad<<8`. -/
def Instr.operandBits : Instr → Word
  | .nop => 0#32
  | .putbits val nb => (nb.setWidth 32 <<< 8) ||| (val.setWidth 32 <<< 16)
  | .getbits nb => nb.setWidth 32 <<< 8
  | .peekbits nb => nb.setWidth 32 <<< 8
  | .symrst => 0#32
  | .symscan lim => lim.setWidth 32 <<< 16
  | .rdrank idx => idx.setWidth 32 <<< 8
  | .rduniq idx => idx.setWidth 32 <<< 8
  | .rdocc idx => idx.setWidth 32 <<< 8
  | .fwenc => 0#32
  | .fwdec => 0#32
  | .svenc => 0#32
  | .svdec => 0#32
  | .p7enc => 0#32
  | .p7dec => 0#32
  | .txtenc ad => (BitVec.ofBool ad).setWidth 32 <<< 8
  | .txtdec => 0#32
  | .strenc => 0#32
  | .strdec => 0#32
  | .xstrenc => 0#32
  | .xstrdec => 0#32

/-- The word of a command (R307): its opcode with its operand fields OR-ed in. -/
def encode (i : Instr) : Word := i.opcode.setWidth 32 ||| i.operandBits

end Sys2Proof
end

