-- ==== Sys2Proof/Config.lean ====
section
/-! DEFINITION. What one TDC-CORE fixes (00_scope.md R9) and the values the spec leaves open
(93_implementation_defined.md U1 to U4, U25). A free value is an opaque constant: no proof can see
what it is, so a claim that mentions one holds whatever it is. -/

namespace Sys2Proof.Config

/-- BLK_BYTES of R9: the block memory is 512 bytes. -/
def blkBytes : Nat := 512

/-- STR_BYTES of R9: the stream memory is 1024 bytes. -/
def strBytes : Nat := 1024

/-- STR_BITS of R9: 8 times STR_BYTES. -/
def strBits : Nat := 8192

/-- FREE VALUE (R901, U1): byte `a` of BLK after power-on, until something is written there.
Log entry 4. -/
opaque powerOnBlk : Nat → Byte

/-- FREE VALUE (R901, R406, U1, U2): byte `a` of STR after power-on, until something is written there.
Log entry 4. -/
opaque powerOnStr : Nat → Byte

/-- FREE VALUE (R902, U3): the byte a soft reset that aborts a command leaves at address `a`; the first
argument is the draw's number. Log entry 6. -/
opaque abortedByte : Nat → Nat → Byte

/-- FREE VALUE (R231, U4): what a host read of a busy core returns where the spec gives no value; the
argument is the draw's number. Log entry 5. -/
opaque busyReadWord : Nat → Word

/-- FREE VALUE (R920, U25): how many host accesses land between a CMD write and the completion of that
command; the argument is the draw's number. Log entry 2. -/
opaque busyAccesses : Nat → Nat

end Sys2Proof.Config
end

