-- ==== Sys2Proof/Machine/State.lean ====
section
/-! DEFINITION. The state of TDC-CORE as plain data (10_state.md): the host register file (R101), the
symbol table (R120), the two memories (R122), the command being executed (R103, R104 BUSY), and the
model's own fields for the host port (the accesses still to come, the last answer, the count of free
values drawn). IRQ (R125), UCNT (R113) and CTRL's and STATUS's words are read from it, never stored twice. -/

namespace Sys2Proof.Machine

/-- The reasons the machine can stop. There is none: the core has no trap (60_exceptions.md R825), every
command completes and reports in STATUS (R800), and a host access that the port rejects is answered with a
bus error and changes nothing (20_memory.md R213). So no step of this model ends in a fault, which is
neither safe nor unsafe: there is nothing to stop for. -/
inductive Fault where
  deriving DecidableEq, Repr

/-- The reasons a step gives no meaning. -/
inductive Refusal where
  /-- Raised by an arm of exec for a command that has no meaning yet; safe (the run stops). No arm
  raises it: every command has its meaning. -/
  | notModelled (mnemonic : String)
  deriving DecidableEq, Repr

/-- The error kinds of STATUS.ERR (10_state.md R104, 60_exceptions.md R801 to R805). -/
inductive CmdError where
  /-- E_BADCMD, code 1 (R801). -/
  | badCmd
  /-- E_LEN, code 2 (R802). -/
  | len
  /-- E_RANGE, code 3 (R804). -/
  | range
  /-- E_DECODE, code 4 (R805). -/
  | decode
  deriving DecidableEq, Repr

/-- STATUS but for BUSY (10_state.md R104). No host write stores a whole word here (only bits 1 and 10
can be cleared), and the reserved bits and the codes 5 to 7 never occur, so the fields are held apart;
`statusWord` is the word the host reads. BUSY is `State.running`. -/
structure Status where
  /-- bit 1: the last command has completed. -/
  done : Bool
  /-- bits 6:4: the error of the last command, `none` for code 0. -/
  err : Option CmdError
  /-- bit 8: the last command was an encoder that declined. -/
  na : Bool
  /-- bit 9: XSTRENC stopped at its 128-unique cap. -/
  cap : Bool
  /-- bit 10: a host write was lost. -/
  ovr : Bool
  deriving DecidableEq, Repr

/-- STATUS after reset: 0 (R101, R900). -/
def Status.zero : Status := ⟨false, none, false, false, false⟩

/-- A command between its CMD write and its completion (R103, R800): the word latched at the write
(20_memory.md R238) and how many host accesses still land before the command completes (R920). -/
structure Running where
  word : Word
  accessesLeft : Nat
  deriving DecidableEq, Repr

/-- The symbol table (10_state.md R120): RANKV, RANK, UNIQ, OCC and the four counters. -/
structure SymTab where
  /-- RANKV[v], 256 × 1 bit. -/
  seen : Vector Bool 256
  /-- RANK[v], 256 × 8 bits. -/
  rank : Vector Byte 256
  /-- UNIQ[r], 256 × 8 bits. -/
  uniq : Vector Byte 256
  /-- OCC[v], 256 × 10 bits. -/
  occ : Vector (BitVec 10) 256
  /-- U, 9 bits, host-visible as UCNT (R113). -/
  u : BitVec 9
  /-- SCANPOS, 10 bits (R114). -/
  scanpos : BitVec 10
  /-- TEXTCNT, 10 bits (R115). -/
  textcnt : BitVec 10
  /-- ORACC, 8 bits (R116). -/
  oracc : Byte
  deriving DecidableEq, Repr

/-- The symbol table after reset (R120, R126): every entry and counter 0. -/
def SymTab.zero : SymTab where
  seen := Vector.replicate 256 false
  rank := Vector.replicate 256 0#8
  uniq := Vector.replicate 256 0#8
  occ := Vector.replicate 256 0#10
  u := 0#9
  scanpos := 0#10
  textcnt := 0#10
  oracc := 0#8

/-- A memory: the bytes that have been written, as address and byte, the addresses strictly rising. An
address that is not listed holds no known value: it reads as the free value of its power-on contents
(70_reset_and_hazards.md R901; DESIGN CHOICE, log entry 4). -/
abbrev Memory := List Host.Cell

/-- One thing the host does at the port, in window offsets (20_memory.md R220, R221). -/
inductive Access where
  /-- A word read at an offset (R213: aligned, or answered with a bus error). -/
  | read (off : BitVec 14)
  /-- A write at an offset with its four byte-lane enables (R213). -/
  | write (off : BitVec 14) (lanes : BitVec 4) (data : Word)
  /-- WAIT: read STATUS until BUSY = 0 (30_encoding.md R307). -/
  | wait
  deriving DecidableEq, Repr

/-- How the port answered the last access (20_memory.md R213, R220). -/
inductive Reply where
  /-- Nothing has been answered yet. -/
  | quiet
  /-- A read returned this word. -/
  | data (w : Word)
  /-- A write was taken without a bus error (whether it had an effect or not). -/
  | accepted
  /-- The access was misaligned or not full-width (R213). -/
  | busError
  deriving DecidableEq, Repr

structure State where
  /-- CTRL.IE (R105). CTRL.SRST always reads 0. -/
  ie : Bool
  /-- STATUS but for BUSY (R104). -/
  status : Status
  /-- The command being executed: STATUS.BUSY is that there is one (R103, R104, R238). -/
  running : Option Running
  /-- CUR (R106). -/
  cur : BitVec 14
  /-- N (R107). -/
  n : BitVec 10
  /-- BASE (R108). -/
  base : BitVec 9
  /-- LIMIT (R109). -/
  limit : BitVec 13
  /-- DATA (R110). -/
  data : BitVec 16
  /-- BITLEN (R111). -/
  bitlen : BitVec 14
  /-- CONSUMED (R112). -/
  consumed : BitVec 10
  /-- SVVAL (R117). -/
  svval : Byte
  /-- TXTSEL (R118). -/
  txtsel : BitVec 2
  /-- The symbol table (R120), with UCNT, SCANPOS, TEXTCNT and ORACC (R113 to R116). -/
  sym : SymTab
  /-- BLK (R122). -/
  blk : Memory
  /-- STR (R122). -/
  str : Memory
  /-- MODEL'S OWN: the host's accesses still to come, in issue order (R235 (1); DESIGN CHOICE, log entry 1). -/
  inbox : List Access
  /-- MODEL'S OWN: the port's last answer (DESIGN CHOICE, log entry 8). -/
  reply : Reply
  /-- MODEL'S OWN: how many free values have been drawn (DESIGN CHOICE, log entry 15). -/
  draws : Nat
  deriving DecidableEq, Repr

/-- Right after power-on reset (70_reset_and_hazards.md R900, R901; 10_state.md R101, R126). The model's
own fields hold nothing (DESIGN CHOICE, log entry 15). -/
def State.reset : State where
  ie := false
  status := Status.zero
  running := none
  cur := 0#14
  n := 0#10
  base := 0#9
  limit := 0#13
  data := 0#16
  bitlen := 0#14
  consumed := 0#10
  svval := 0#8
  txtsel := 0#2
  sym := SymTab.zero
  blk := []
  str := []
  inbox := []
  reply := .quiet
  draws := 0

end Sys2Proof.Machine
end

