-- ==== Sys2Proof/Machine/Memory.lean ====
section
/-! DEFINITION. The named operations over a memory (00_scope.md R13, 20_memory.md R210): reading and
writing a byte, little-endian multi-byte access, and the canonical form a memory keeps. -/

namespace Sys2Proof.Machine

/-- The byte listed at an address, if one is. -/
def Memory.lookup : Memory → Nat → Option Byte
  | [], _ => none
  | (k, b) :: rest, a => if a = k then some b else Memory.lookup rest a

/-- The byte at an address: the listed one, or the free value `d a` of the power-on contents (R901). -/
def Memory.read (d : Nat → Byte) (m : Memory) (a : Nat) : Byte :=
  match m.lookup a with
  | some b => b
  | none => d a

/-- Store one byte, keeping the addresses strictly rising. -/
def Memory.write : Memory → Nat → Byte → Memory
  | [], a, b => [(a, b)]
  | (k, c) :: rest, a, b =>
    if a < k then (a, b) :: (k, c) :: rest
    else if a = k then (a, b) :: rest
    else (k, c) :: Memory.write rest a b

/-- Every listed address is at least `lo`, and the addresses rise strictly. -/
def Memory.risesFrom (lo : Nat) : Memory → Bool
  | [] => true
  | (k, _) :: rest => decide (lo ≤ k) && Memory.risesFrom (k + 1) rest

/-- The canonical form: addresses strictly rising. An unlisted address reads as no stored value, so no
entry can equal what an unlisted address reads as, and equal contents are equal lists (log entry 4). -/
def Memory.wf (m : Memory) : Bool := m.risesFrom 0

/-- Every listed address is below `size`. -/
def Memory.within (size : Nat) (m : Memory) : Bool := m.all fun c => decide (c.1 < size)

/-- Store consecutive bytes from an address. -/
def Memory.writeBytes (m : Memory) (a : Nat) : List Byte → Memory
  | [] => m
  | b :: bs => Memory.writeBytes (m.write a b) (a + 1) bs

/-- MemRead(M, a, n) of R13: n consecutive bytes, byte a least significant (R210). -/
def Memory.readLE (d : Nat → Byte) (m : Memory) (a : Nat) : Nat → Nat
  | 0 => 0
  | n + 1 => (m.read d a).toNat + 256 * Memory.readLE d m (a + 1) n

/-- MemWrite(M, a, n, v) of R13: n consecutive bytes, byte a least significant (R210). -/
def Memory.writeLE (m : Memory) (a v : Nat) : Nat → Memory
  | 0 => m
  | n + 1 => Memory.writeLE (m.write a (BitVec.ofNat 8 v)) (a + 1) (v / 256) n

/-- The bytes at `n` consecutive addresses, in address order. -/
def Memory.bytes (d : Nat → Byte) (m : Memory) (a n : Nat) : List Byte :=
  (List.range n).map fun k => m.read d (a + k)

/-- Byte `a` of BLK (R122). -/
def State.blkByte (s : State) (a : Nat) : Byte := s.blk.read Config.powerOnBlk a

/-- Byte `a` of STR (R122). -/
def State.strByte (s : State) (a : Nat) : Byte := s.str.read Config.powerOnStr a

end Sys2Proof.Machine
end

