-- ==== Sys2Proof/Machine/Ops.lean ====
section
/-! DEFINITION. The operations every command shares: the stream bits and the cursor primitives PutBits,
GetBits and PeekBits (40_bit_cursor.md R402 to R404), and how a command ends (60_exceptions.md R800):
success, an error (this core's whole "exception entry", R825), or an encoder's decline. -/

namespace Sys2Proof.Machine

/-! ### Stream bits (R14, R211) -/

/-- StrBit(p) of R14: bit p mod 8 of STR[p div 8]. -/
def strBit (m : Memory) (p : Nat) : Bool := (m.read Config.powerOnStr (p / 8)).getLsbD (p % 8)

/-- A byte with its bit k replaced. -/
def setBit (x : Byte) (k : Nat) (b : Bool) : Byte :=
  if b then x ||| (1#8 <<< k) else x &&& ~~~(1#8 <<< k)

/-- One turn of R402's loop: a byte entered at its bit 0 is newly touched and cleared first. -/
def putBit (m : Memory) (q : Nat) (b : Bool) : Memory :=
  m.write (q / 8)
    (setBit (if q % 8 = 0 then 0#8 else m.read Config.powerOnStr (q / 8)) (q % 8) b)

/-- R402's loop: bit k of v goes to stream bit p + k, for k below n. -/
def putField (m : Memory) (p v : Nat) : Nat → Memory
  | 0 => m
  | n + 1 => putField (putBit m p (decide (v % 2 = 1))) (p + 1) (v / 2) n

/-- R404's loop: the n-bit value whose bit k is stream bit p + k. -/
def readField (m : Memory) (p : Nat) : Nat → Nat
  | 0 => 0
  | n + 1 => (strBit m p).toNat + 2 * readField m (p + 1) n

/-! ### Cursor primitives (R15, R402 to R404) -/

/-- PutBits(v, n) of R402 on a working stream and cursor. -/
def putBits (m : Memory) (cur v n : Nat) : Except CmdError (Memory × Nat) :=
  if n = 0 then .ok (m, cur)
  else if cur + n > Config.strBits then .error .range
  else .ok (putField m cur v n, cur + n)

/-- GetBits(n) of R404: the value and the advanced cursor. -/
def getBits (m : Memory) (cur n : Nat) : Except CmdError (Nat × Nat) :=
  if n = 0 then .ok (0, cur)
  else if cur + n > Config.strBits then .error .range
  else .ok (readField m cur n, cur + n)

/-- PeekBits(n) of R404: GetBits with the cursor put back. -/
def peekBits (m : Memory) (cur n : Nat) : Except CmdError (Nat × Nat) :=
  match getBits m cur n with
  | .error e => .error e
  | .ok (v, _) => .ok (v, cur)

/-- A field of a stream format: a value and its width (R309). -/
structure Field where
  value : Nat
  width : Nat
  deriving DecidableEq, Repr

/-- The bits a list of fields takes. -/
def fieldsWidth : List Field → Nat
  | [] => 0
  | f :: fs => f.width + fieldsWidth fs

/-- PutBits of each field in order (R409: the working cursor advances by every field). -/
def putFields (m : Memory) (cur : Nat) : List Field → Except CmdError (Memory × Nat)
  | [] => .ok (m, cur)
  | f :: fs =>
    match putBits m cur f.value f.width with
    | .error e => .error e
    | .ok (m', cur') => putFields m' cur' fs

/-- GetBits(w), n times in order: the values and the advanced cursor. -/
def getMany (m : Memory) (w : Nat) : Nat → Nat → Except CmdError (List Nat × Nat)
  | 0, cur => .ok ([], cur)
  | n + 1, cur =>
    match getBits m cur w with
    | .error e => .error e
    | .ok (v, cur') =>
      match getMany m w n cur' with
      | .error e => .error e
      | .ok (vs, cur'') => .ok (v :: vs, cur'')

/-! ### How a command ends (R16, R17, R800) -/

/-- The outcome of a command's body: the committed state (and whether XSTRENC stopped at its cap), a
raised error, or an encoder's decline. -/
inductive Body where
  | commit (t : State) (capped : Bool)
  | raise (e : CmdError)
  | notApplicable
  deriving DecidableEq, Repr

/-- R800 start: BUSY, with DONE, ERR, NA and CAP cleared and OVR untouched; the word is latched (R238)
and `left` host accesses will land before it completes. -/
def State.startCommand (s : State) (w : Word) (left : Nat) : State :=
  { s with running := some ⟨w, left⟩, status := ⟨false, none, false, false, s.status.ovr⟩ }

/-- R800 finish: BUSY cleared, DONE set, and the outcome recorded; OVR is not touched. -/
def State.endCommand (s : State) (err : Option CmdError) (na cap : Bool) : State :=
  { s with running := none, status := ⟨true, err, na, cap, s.status.ovr⟩ }

/-- A command that raises: no commit, only STATUS (R800, R825). -/
def State.raiseError (s : State) (e : CmdError) : State := s.endCommand (some e) false false

/-- An encoder that declines: no commit, only STATUS.NA (R800, R806). -/
def State.decline (s : State) : State := s.endCommand none true false

/-- R800: a body's outcome turned into the state after the command. -/
def complete (s : State) : Body → Host.Outcome State Fault Refusal
  | .commit t capped => .next (t.endCommand none false capped)
  | .raise e => .next (s.raiseError e)
  | .notApplicable => .next s.decline

/-! ### What commands commit -/

/-- DATA, zero-extended to 16 bits (R110). -/
def State.setData (s : State) (v : Nat) : State := { s with data := BitVec.ofNat 16 v }

/-- CUR (R106). -/
def State.setCur (s : State) (c : Nat) : State := { s with cur := BitVec.ofNat 14 c }

/-- STR (R122). -/
def State.setStr (s : State) (m : Memory) : State := { s with str := m }

/-- The symbol table (R120). -/
def State.setSym (s : State) (t : SymTab) : State := { s with sym := t }

/-- What an encoder has computed when it is about to write (the `total`, the fields and the result
registers of its rule). -/
structure Coded where
  sym : SymTab
  total : Nat
  fields : List Field
  consumed : Nat
  capped : Bool
  svval : Byte
  txtsel : BitVec 2
  deriving DecidableEq, Repr

/-- An encoder's commit list: STR, CUR, BITLEN, CONSUMED, the symbol table, and SVVAL or TXTSEL where the
encoder has one (R111, R112, R117, R118, R460). -/
def State.commitCoded (s : State) (c : Coded) (m : Memory) (cur : Nat) : State :=
  { s with
    str := m, cur := BitVec.ofNat 14 cur, bitlen := BitVec.ofNat 14 c.total,
    consumed := BitVec.ofNat 10 c.consumed, sym := c.sym, svval := c.svval, txtsel := c.txtsel }

/-- The end every encoder shares, in R810's order: the LIMIT decline (R806), E_RANGE for the whole output
(R804 (b)), then the fields and the commit. -/
def emit (s : State) (c : Coded) : Body :=
  if s.limit.toNat ≠ 0 ∧ c.total > s.limit.toNat then .notApplicable
  else if s.cur.toNat + c.total > Config.strBits then .raise .range
  else
    match putFields s.str s.cur.toNat c.fields with
    | .error e => .raise e
    | .ok (m, cur) => .commit (s.commitCoded c m cur) c.capped

/-- A decoder's commit list: BLK[BASE+i] for i below N, CUR, BITLEN = cur - CUR at the start, and
CONSUMED = N (R111, R112, R201). -/
def State.commitDecoded (s : State) (out : List Byte) (cur : Nat) : State :=
  { s with
    blk := s.blk.writeBytes s.base.toNat out, cur := BitVec.ofNat 14 cur,
    bitlen := BitVec.ofNat 14 (cur - s.cur.toNat), consumed := s.n }

/-- The end every decoder shares: its whole output, or the error that came first in stream order
(R810). -/
def deliver (s : State) : Except CmdError (List Byte × Nat) → Body
  | .error e => .raise e
  | .ok (out, cur) => .commit (s.commitDecoded out cur) false

end Sys2Proof.Machine
end

