-- ==== Sys2Proof/Machine/Operands.lean ====
section
/-! DEFINITION. How a command assembles its operands (30_encoding.md R302): the field width NB, the block
operands N and BASE with their check (60_exceptions.md R802), the block view X (00_scope.md R13), and the
arithmetic helpers of R18. -/

namespace Sys2Proof.Machine

/-- The width n of PUTBITS, GETBITS and PEEKBITS, when it is legal (R302: 1..9). -/
def fieldWidth (nb : BitVec 4) : Option Nat :=
  if nb.toNat < 1 ∨ nb.toNat > 9 then none else some nb.toNat

/-- R802: N in 1..MAXN and BASE + N ≤ 512; otherwise the command raises E_LEN. -/
def State.blockOk (s : State) (maxn : Nat) : Bool :=
  decide (1 ≤ s.n.toNat) && decide (s.n.toNat ≤ maxn)
    && decide (s.base.toNat + s.n.toNat ≤ Config.blkBytes)

/-- MAXN of R803 for FW, SV, P7 and STR. -/
def maxnSmall : Nat := 64

/-- MAXN of R803 for SYMSCAN, TXT and XSTR. -/
def maxnLarge : Nat := 512

/-- The block X of R13: X[i] = BLK[BASE + i] for i below N. -/
def State.block (s : State) : List Byte := s.blk.bytes Config.powerOnBlk s.base.toNat s.n.toNat

/-- bitlen(v) of R18: the number of bits in the binary form of v, 0 for 0. -/
def bitlen (v : Nat) : Nat := if v = 0 then 0 else Nat.log2 v + 1

/-- clog2(u) of R18: bitlen(u - 1). -/
def clog2 (u : Nat) : Nat := bitlen (u - 1)

end Sys2Proof.Machine
end

