-- ==== Sys2Proof/Machine/BitCursor.lean ====
section
/-! DEFINITION. The bit cursor commands NOP, PUTBITS, GETBITS and PEEKBITS (40_bit_cursor.md). -/

namespace Sys2Proof.Machine

/-- NOP (R400): commits with no change. -/
def execNop (s : State) : Host.Outcome State Fault Refusal := complete s (.commit s false)

/-- PUTBITS val, nb (R407): VAL's low NB bits are appended at CUR. -/
def execPutbits (val : BitVec 9) (nb : BitVec 4) (s : State) : Host.Outcome State Fault Refusal :=
  complete s
    (match fieldWidth nb with
    | none => .raise .badCmd
    | some n =>
      match putBits s.str s.cur.toNat val.toNat n with
      | .error e => .raise e
      | .ok (m, cur) => .commit ((s.setStr m).setCur cur) false)

/-- GETBITS nb (R405): the field at CUR goes to DATA and CUR moves past it. -/
def execGetbits (nb : BitVec 4) (s : State) : Host.Outcome State Fault Refusal :=
  complete s
    (match fieldWidth nb with
    | none => .raise .badCmd
    | some n =>
      match getBits s.str s.cur.toNat n with
      | .error e => .raise e
      | .ok (v, cur) => .commit ((s.setData v).setCur cur) false)

/-- PEEKBITS nb (R408): the field at CUR goes to DATA and CUR stays. -/
def execPeekbits (nb : BitVec 4) (s : State) : Host.Outcome State Fault Refusal :=
  complete s
    (match fieldWidth nb with
    | none => .raise .badCmd
    | some n =>
      match peekBits s.str s.cur.toNat n with
      | .error e => .raise e
      | .ok (v, _) => .commit (s.setData v) false)

end Sys2Proof.Machine
end

