-- ==== Sys2Proof/Machine/Flags.lean ====
section
/-! DEFINITION. The words of STATUS and CTRL (10_state.md R104, R105), BUSY, and the completion interrupt
IRQ (R125, 60_exceptions.md R820). -/

namespace Sys2Proof.Machine

/-- STATUS.ERR of R104: 0 none, 1 E_BADCMD, 2 E_LEN, 3 E_RANGE, 4 E_DECODE. -/
def errCode : Option CmdError → BitVec 3
  | none => 0#3
  | some .badCmd => 1#3
  | some .len => 2#3
  | some .range => 3#3
  | some .decode => 4#3

/-- STATUS.BUSY: a command is executing (R104). -/
def State.busy (s : State) : Bool := s.running.isSome

/-- The word a host read of STATUS returns, by R104's table from bit 10 (OVR) down to bit 0 (BUSY): bits
3:2, 7 and 31:11 read 0. -/
def State.statusWord (s : State) : Word :=
  0#21 ++ BitVec.ofBool s.status.ovr ++ BitVec.ofBool s.status.cap ++ BitVec.ofBool s.status.na
    ++ 0#1 ++ errCode s.status.err ++ 0#2 ++ BitVec.ofBool s.status.done ++ BitVec.ofBool s.busy

/-- A host write to STATUS (R104): a 1 in bit 1 clears DONE, a 1 in bit 10 clears OVR, nothing else
changes. -/
def Status.clearBits (st : Status) (w : Word) : Status :=
  { st with done := st.done && !w.getLsbD 1, ovr := st.ovr && !w.getLsbD 10 }

/-- The word a host read of CTRL returns (R105): IE in bit 0; SRST and the reserved bits read 0. -/
def State.ctrlWord (s : State) : Word := (BitVec.ofBool s.ie).setWidth 32

/-- The output signal IRQ (R820): STATUS.DONE AND CTRL.IE. -/
def State.irq (s : State) : Bool := s.status.done && s.ie

end Sys2Proof.Machine
end

