-- ==== Sys2Proof/Machine/Tables.lean ====
section
/-! DEFINITION. The constant tables of the hardware (10_state.md R124): the three text tables of
45_text.md R655, the signature sets of R659, and the rank of a byte in a table (R656). -/

namespace Sys2Proof.Machine

/-- T0, the default table of R655. -/
def tableT0 : List Byte :=
  [0x20#8, 0x65#8, 0x74#8, 0x61#8, 0x6F#8, 0x69#8, 0x6E#8, 0x73#8] ++
  [0x72#8, 0x68#8, 0x6C#8, 0x64#8, 0x63#8, 0x75#8, 0x6D#8, 0x66#8] ++
  [0x70#8, 0x67#8, 0x77#8, 0x79#8, 0x62#8, 0x2C#8, 0x2E#8]

/-- T1, the markup table of R655. -/
def tableT1 : List Byte :=
  [0x3C#8, 0x3E#8, 0x2F#8, 0x20#8, 0x22#8, 0x3D#8, 0x65#8, 0x74#8] ++
  [0x61#8, 0x3A#8, 0x69#8, 0x6F#8, 0x6E#8, 0x73#8, 0x72#8, 0x64#8] ++
  [0x6C#8, 0x63#8, 0x70#8, 0x68#8, 0x2D#8, 0x2E#8, 0x6D#8]

/-- T2, the code table of R655. -/
def tableT2 : List Byte :=
  [0x20#8, 0x65#8, 0x28#8, 0x29#8, 0x3B#8, 0x3D#8, 0x74#8, 0x2A#8] ++
  [0x2C#8, 0x69#8, 0x72#8, 0x6E#8, 0x73#8, 0x61#8, 0x6F#8, 0x63#8] ++
  [0x6C#8, 0x75#8, 0x64#8, 0x66#8, 0x5F#8, 0x0A#8, 0x70#8]

/-- T_SEL: the table a selector names, none for the reserved selector 3 (R661). -/
def textTable (sel : Nat) : Option (List Byte) :=
  match sel with
  | 0 => some tableT0
  | 1 => some tableT1
  | 2 => some tableT2
  | _ => none

/-- The markup signature set M of R659. -/
def markupSet : List Byte := [0x3C#8, 0x3E#8, 0x2F#8, 0x22#8, 0x3A#8]

/-- The code signature set K of R659. -/
def codeSet : List Byte := [0x2A#8, 0x3D#8, 0x3B#8, 0x28#8, 0x29#8, 0x2C#8]

/-- rankT(v) of R656: the rank of a byte in a table, or absent. -/
def rankIn : List Byte → Byte → Option Nat
  | [], _ => none
  | x :: xs, v => if x = v then some 0 else (rankIn xs v).map (· + 1)

end Sys2Proof.Machine
end

