-- ==== Sys2Proof/Machine/SymbolTable.lean ====
section
/-! DEFINITION. The symbol-table scanner (41_symbol_table.md): the ScanByte primitive (R451), the rebuild
every encoder performs (R460), and the commands SYMRST, SYMSCAN, RDRANK, RDUNIQ and RDOCC. -/

namespace Sys2Proof.Machine

/-! ### Reading the arrays -/

/-- RANKV[v] (R120). -/
def SymTab.seenAt (t : SymTab) (v : Byte) : Bool := t.seen[v.toNat]

/-- RANK[v] (R120). -/
def SymTab.rankAt (t : SymTab) (v : Byte) : Byte := t.rank[v.toNat]

/-- UNIQ[r] (R120). -/
def SymTab.uniqAt (t : SymTab) (r : Byte) : Byte := t.uniq[r.toNat]

/-- OCC[v] (R120). -/
def SymTab.occAt (t : SymTab) (v : Byte) : BitVec 10 := t.occ[v.toNat]

/-- UNIQ[0..k-1], in rank order. -/
def SymTab.uniques (t : SymTab) (k : Nat) : List Byte :=
  (List.range k).map fun r => t.uniqAt (BitVec.ofNat 8 r)

/-! ### Scanning -/

/-- The first-occurrence part of ScanByte (R451): the next rank goes to a value not seen before. (A table
that meets R121 has U below 256 here, so UNIQ[U] exists; DESIGN CHOICE, log entry 11.) -/
def SymTab.noteFirst (t : SymTab) (v : Byte) : SymTab :=
  if t.seenAt v then t
  else
    { t with
      seen := t.seen.set v.toNat true, rank := t.rank.set v.toNat (t.u.setWidth 8),
      uniq := t.uniq.setIfInBounds t.u.toNat v, u := t.u + 1#9 }

/-- ScanByte(v) of R451. SCANPOS is moved by the command that scans. -/
def SymTab.scanByte (t : SymTab) (v : Byte) : SymTab :=
  let t' := t.noteFirst v
  { t' with
    occ := t'.occ.set v.toNat (t'.occAt v + 1#10), oracc := t'.oracc ||| v,
    textcnt := if tableT0.contains v then t'.textcnt + 1#10 else t'.textcnt }

/-- ScanByte of each byte in order. -/
def SymTab.scanBytes (t : SymTab) : List Byte → SymTab
  | [] => t
  | v :: vs => (t.scanByte v).scanBytes vs

/-- SymReset() of R450. -/
def symReset : SymTab := SymTab.zero

/-- SymRebuild() of R460 over a whole block. -/
def symRebuild (x : List Byte) : SymTab :=
  { symReset.scanBytes x with scanpos := BitVec.ofNat 10 x.length }

/-! ### Commands -/

/-- SYMRST (R450). -/
def execSymrst (s : State) : Host.Outcome State Fault Refusal :=
  complete s (.commit (s.setSym symReset) false)

/-- END of R452: N when LIM is 0, else min(LIM, N). -/
def scanEnd (lim n : Nat) : Nat := if lim = 0 then n else min lim n

/-- The table after scanning the block's bytes SCANPOS..END-1 (R452; the range is empty when
SCANPOS ≥ END). -/
def scanTo (s : State) (stop : Nat) : SymTab :=
  let pos := s.sym.scanpos.toNat
  let seen := s.sym.scanBytes (s.blk.bytes Config.powerOnBlk (s.base.toNat + pos) (stop - pos))
  { seen with scanpos := BitVec.ofNat 10 (max pos stop) }

/-- SYMSCAN lim (R452). -/
def execSymscan (lim : BitVec 10) (s : State) : Host.Outcome State Fault Refusal :=
  complete s
    (if s.blockOk maxnLarge then
      .commit (s.setSym (scanTo s (scanEnd lim.toNat s.n.toNat))) false
    else .raise .len)

/-- RDRANK v (R455): 0x100 OR the rank, or 0 for a value not seen. -/
def execRdrank (idx : BitVec 8) (s : State) : Host.Outcome State Fault Refusal :=
  complete s
    (.commit (s.setData (if s.sym.seenAt idx then 0x100 + (s.sym.rankAt idx).toNat else 0)) false)

/-- RDUNIQ r (R456): 0x100 OR the value, or 0 for a rank at or above U. -/
def execRduniq (idx : BitVec 8) (s : State) : Host.Outcome State Fault Refusal :=
  complete s
    (.commit
      (s.setData (if idx.toNat < s.sym.u.toNat then 0x100 + (s.sym.uniqAt idx).toNat else 0)) false)

/-- RDOCC v (R457). -/
def execRdocc (idx : BitVec 8) (s : State) : Host.Outcome State Fault Refusal :=
  complete s (.commit (s.setData (s.sym.occAt idx).toNat) false)

end Sys2Proof.Machine
end

