-- ==== Sys2Proof/Machine/StringCoder.lean ====
section
/-! DEFINITION. The back-reference string coder (46_string.md): the token grammar, widths, match policy
and token decoder that both variants share (R700 to R709), and the bounded STRENC and STRDEC. -/

namespace Sys2Proof.Machine

/-- A token of R700. -/
inductive Token where
  | newUnique
  | repeatRank (idx : Nat)
  | string (len pos : Nat)
  deriving DecidableEq, Repr

/-! ### Widths -/

/-- idxw(u) of R701. -/
def idxw (u : Nat) : Nat := max 1 (clog2 u)

/-- posw(i) of R702: max(1, bitlen(i - 1)) for i ≥ 1, and 1 for i = 0 (where i - 1 is taken as 0, whose
bitlen is 0). -/
def posw (i : Nat) : Nat := max 1 (bitlen (i - 1))

/-- How many block bytes a token covers (R700). -/
def Token.covers : Token → Nat
  | .newUnique => 1
  | .repeatRank _ => 1
  | .string len _ => len

/-- The running unique count after a token (R700). -/
def Token.uniquesAfter (u : Nat) : Token → Nat
  | .newUnique => u + 1
  | .repeatRank _ => u
  | .string _ _ => u

/-- The bits of a token at running unique count u and position i (R709), LW the length field's width. -/
def Token.bits (lw u i : Nat) : Token → Nat
  | .newUnique => 1
  | .repeatRank _ => 2 + idxw u
  | .string _ _ => 2 + lw + posw i

/-- The fields of a token (R700): its leading bits one by one, then its operands. -/
def Token.fields (lw u i : Nat) : Token → List Field
  | .newUnique => [⟨0, 1⟩]
  | .repeatRank idx => [⟨1, 1⟩, ⟨0, 1⟩, ⟨idx, idxw u⟩]
  | .string len pos => [⟨1, 1⟩, ⟨1, 1⟩, ⟨len - 2, lw⟩, ⟨pos, posw i⟩]

/-- Σ length(tok) of R709, u and i taken where each token starts. -/
def tokensBits (lw : Nat) : Nat → Nat → List Token → Nat
  | _, _, [] => 0
  | u, i, tok :: toks =>
    tok.bits lw u i + tokensBits lw (tok.uniquesAfter u) (i + tok.covers) toks

/-- The fields of a token list, u and i taken where each token starts. -/
def tokensFields (lw : Nat) : Nat → Nat → List Token → List Field
  | _, _, [] => []
  | u, i, tok :: toks =>
    tok.fields lw u i ++ tokensFields lw (tok.uniquesAfter u) (i + tok.covers) toks

/-! ### Match policy (R705) -/

/-- X[i]; every use has i below the block's length. -/
def byteAt (x : List Byte) (i : Nat) : Byte := x.getD i 0#8

/-- The largest q below `k` where the pair at q equals the pair at i (R705; called with k = i - 1, so
that q ≤ i - 2). -/
def lastPair (x : List Byte) (i : Nat) : Nat → Option Nat
  | 0 => none
  | q + 1 =>
    if byteAt x q = byteAt x i ∧ byteAt x (q + 1) = byteAt x (i + 1) then some q
    else lastPair x i q

/-- R705's extension: from length `len`, at most `room` steps more, while the next bytes agree and stay
below C = the length of x. -/
def extendMatch (x : List Byte) (i p : Nat) : Nat → Nat → Nat
  | 0, len => len
  | room + 1, len =>
    if i + len < x.length ∧ byteAt x (p + len) = byteAt x (i + len) then
      extendMatch x i p room (len + 1)
    else len

/-- The token R705 chooses at position i of x = X[0..C-1], the first case that applies. -/
def chooseToken (rank : Byte → Nat) (lmax : Nat) (x : List Byte) (i : Nat) : Token :=
  if byteAt x i ∈ x.take i then
    match (if i + 1 < x.length then lastPair x i (i - 1) else none) with
    | some p => .string (extendMatch x i p (lmax - 2) 2) p
    | none => .repeatRank (rank (byteAt x i))
  else .newUnique

/-- R705's loop. Every token covers at least one byte, so `fuel` = C turns reach the end. -/
def tokensFrom (rank : Byte → Nat) (lmax : Nat) (x : List Byte) : Nat → Nat → List Token
  | 0, _ => []
  | fuel + 1, i =>
    if i < x.length then
      let tok := chooseToken rank lmax x i
      tok :: tokensFrom rank lmax x fuel (i + tok.covers)
    else []

/-- The tokens of R705 over x = X[0..C-1]. -/
def tokenize (rank : Byte → Nat) (lmax : Nat) (x : List Byte) : List Token :=
  tokensFrom rank lmax x x.length 0

/-! ### The token decoder (R708, R713) -/

/-- R713's copy, in order and one byte at a time: `out` grows by `len` bytes, each read from position p
on of what has been produced so far. -/
def copyBytes (out : List Byte) (p : Nat) : Nat → List Byte
  | 0 => out
  | len + 1 => copyBytes (out ++ [byteAt out p]) (p + 1) len

/-- A token as the decoder reads it (R713), with its checks in R708's order: the token, or the first
error in stream order; u and i where the token starts. -/
def readToken (m : Memory) (lw uniq n u i cur : Nat) : Except CmdError (Token × Nat) :=
  match getBits m cur 1 with
  | .error e => .error e
  | .ok (b0, cur1) =>
    if b0 = 0 then
      if u ≥ uniq then .error .decode else .ok (.newUnique, cur1)
    else
      match getBits m cur1 1 with
      | .error e => .error e
      | .ok (b1, cur2) =>
        if b1 = 0 then
          match getBits m cur2 (idxw u) with
          | .error e => .error e
          | .ok (idx, cur3) =>
            if idx ≥ u then .error .decode else .ok (.repeatRank idx, cur3)
        else
          match getBits m cur2 lw with
          | .error e => .error e
          | .ok (lm2, cur3) =>
            match getBits m cur3 (posw i) with
            | .error e => .error e
            | .ok (p, cur4) =>
              if p ≥ i ∨ i + (lm2 + 2) > n then .error .decode
              else .ok (.string (lm2 + 2) p, cur4)

/-- What a token appends to the output (R700). -/
def Token.apply (vals out : List Byte) (u : Nat) : Token → List Byte
  | .newUnique => out ++ [vals.getD u 0#8]
  | .repeatRank idx => out ++ [vals.getD idx 0#8]
  | .string len pos => copyBytes out pos len

/-- StrTokens of R713: i is the length of `out`. Every token adds at least one byte, so `fuel` = N turns
reach i = N; there u must equal U. -/
def strTokens (m : Memory) (vals : List Byte) (lw n : Nat) :
    Nat → Nat → List Byte → Nat → Except CmdError (List Byte × Nat)
  | 0, u, out, cur => if u ≠ vals.length then .error .decode else .ok (out, cur)
  | fuel + 1, u, out, cur =>
    if out.length < n then
      match readToken m lw vals.length n u out.length cur with
      | .error e => .error e
      | .ok (tok, cur') =>
        strTokens m vals lw n fuel (tok.uniquesAfter u) (tok.apply vals out u) cur'
    else if u ≠ vals.length then .error .decode
    else .ok (out, cur)

/-! ### The bounded variant -/

/-- LW of the bounded variant (R702). -/
def boundedLW : Nat := 3

/-- Lmax of the bounded variant (R705). -/
def boundedLmax : Nat := 9

/-- The bounded stream: the header of R703, then the tokens. -/
def strStream (vals : List Byte) (toks : List Token) : List Field :=
  ⟨vals.length - 1, 5⟩ :: (vals.map fun v => ⟨v.toNat, 8⟩) ++ tokensFields boundedLW 0 0 toks

/-- The tokens STRENC emits for the block (R705). -/
def strTokensOf (t : SymTab) (x : List Byte) : List Token :=
  tokenize (fun v => (t.rankAt v).toNat) boundedLmax x

/-- What STRENC computes before it writes (R710). -/
def strCoded (s : State) (t : SymTab) : Coded where
  sym := t
  total := 5 + 8 * t.u.toNat + tokensBits boundedLW 0 0 (strTokensOf t s.block)
  fields := strStream (t.uniques t.u.toNat) (strTokensOf t s.block)
  consumed := s.n.toNat
  capped := false
  svval := s.svval
  txtsel := s.txtsel

/-- The body of STRENC (R710): E_LEN, then NA above 32 uniques (R707), then the shared end. -/
def strencBody (s : State) : Body :=
  if s.blockOk maxnSmall then
    let t := symRebuild s.block
    if t.u.toNat > 32 then .notApplicable else emit s (strCoded s t)
  else .raise .len

/-- STRENC (R710). -/
def execStrenc (s : State) : Host.Outcome State Fault Refusal := complete s (strencBody s)

/-- The decode of R713 from a cursor. -/
def strDecode (m : Memory) (n cur : Nat) : Except CmdError (List Byte × Nat) :=
  match getBits m cur 5 with
  | .error e => .error e
  | .ok (um1, cur1) =>
    match getMany m 8 (um1 + 1) cur1 with
    | .error e => .error e
    | .ok (vals, cur2) => strTokens m (vals.map (BitVec.ofNat 8)) boundedLW n n 0 [] cur2

/-- STRDEC (R713). -/
def execStrdec (s : State) : Host.Outcome State Fault Refusal :=
  complete s
    (if s.blockOk maxnSmall then deliver s (strDecode s.str s.n.toNat s.cur.toNat) else .raise .len)

end Sys2Proof.Machine
end

