-- ==== Sys2Proof/Machine/ExtendedString.lean ====
section
/-! DEFINITION. The extended string coder (47_xstring.md): XSTRENC and XSTRDEC, over the token grammar,
match policy and token decoder of StringCoder.lean. -/

namespace Sys2Proof.Machine

/-- LW of the extended variant (R750). -/
def extendedLW : Nat := 4

/-- Lmax of the extended variant (R750). -/
def extendedLmax : Nat := 17

/-- The unique cap of the extended variant (R750, R752). -/
def extendedCap : Nat := 128

/-- The consumed length C of R752: N, or the first position of the value of rank 128. -/
def consumedLength (t : SymTab) (x : List Byte) : Nat :=
  if t.u.toNat ≤ extendedCap then x.length else x.idxOf (t.uniqAt 128#8)

/-- The width of a header value (R751). -/
def headerWidth (p7 : Bool) : Nat := if p7 then 7 else 8

/-- P7 of R751: every header value is below 0x80. -/
def allBelow80 (vals : List Byte) : Bool := vals.all fun v => decide (v.toNat < 128)

/-- The extended stream: the header of R751, then the tokens. -/
def xstrStream (vals : List Byte) (toks : List Token) : List Field :=
  ⟨vals.length - 1, 7⟩ :: ⟨(allBelow80 vals).toNat, 1⟩
    :: (vals.map fun v => ⟨v.toNat, headerWidth (allBelow80 vals)⟩)
    ++ tokensFields extendedLW 0 0 toks

/-- UH of R751. -/
def headerUniques (t : SymTab) : Nat := min t.u.toNat extendedCap

/-- The tokens XSTRENC emits for X[0..C-1] (R705, R752). -/
def xstrTokensOf (t : SymTab) (x : List Byte) : List Token :=
  tokenize (fun v => (t.rankAt v).toNat) extendedLmax (x.take (consumedLength t x))

/-- What XSTRENC computes before it writes (R755). -/
def xstrCoded (s : State) (t : SymTab) : Coded :=
  let vals := t.uniques (headerUniques t)
  { sym := t
    total := 8 + headerWidth (allBelow80 vals) * headerUniques t
      + tokensBits extendedLW 0 0 (xstrTokensOf t s.block)
    fields := xstrStream vals (xstrTokensOf t s.block)
    consumed := consumedLength t s.block
    capped := decide (consumedLength t s.block < s.n.toNat)
    svval := s.svval
    txtsel := s.txtsel }

/-- The body of XSTRENC (R755): E_LEN, then the shared end; more than 128 uniques is CAP, not NA (R753,
R807). -/
def xstrencBody (s : State) : Body :=
  if s.blockOk maxnLarge then emit s (xstrCoded s (symRebuild s.block)) else .raise .len

/-- XSTRENC (R755). -/
def execXstrenc (s : State) : Host.Outcome State Fault Refusal := complete s (xstrencBody s)

/-- The decode of R758 from a cursor. -/
def xstrDecode (m : Memory) (n cur : Nat) : Except CmdError (List Byte × Nat) :=
  match getBits m cur 7 with
  | .error e => .error e
  | .ok (um1, cur1) =>
    match getBits m cur1 1 with
    | .error e => .error e
    | .ok (p7, cur2) =>
      match getMany m (headerWidth (decide (p7 = 1))) (um1 + 1) cur2 with
      | .error e => .error e
      | .ok (vals, cur3) => strTokens m (vals.map (BitVec.ofNat 8)) extendedLW n n 0 [] cur3

/-- XSTRDEC (R758). -/
def execXstrdec (s : State) : Host.Outcome State Fault Refusal :=
  complete s
    (if s.blockOk maxnLarge then deliver s (xstrDecode s.str s.n.toNat s.cur.toNat) else .raise .len)

end Sys2Proof.Machine
end

