-- ==== Sys2Proof/Machine/FixedWidth.lean ====
section
/-! DEFINITION. The fixed-width symbol coder (42_fixed_width.md): FWENC and FWDEC. -/

namespace Sys2Proof.Machine

/-- FWWidth(U) of R501. -/
def fwWidth (u : Nat) : Nat :=
  if u ≤ 1 then 0 else if u ≤ 2 then 1 else if u ≤ 4 then 2 else if u ≤ 8 then 3 else 4

/-- The stream of R500: UM1, the uniques in rank order, and the rank of every block byte. -/
def fwStream (vals : List Byte) (ranks : List Nat) : List Field :=
  ⟨vals.length - 1, 4⟩ :: (vals.map fun v => ⟨v.toNat, 8⟩)
    ++ ranks.map fun r => ⟨r, fwWidth vals.length⟩

/-- What FWENC computes before it writes (R503). -/
def fwCoded (s : State) (t : SymTab) : Coded where
  sym := t
  total := 4 + 8 * t.u.toNat + fwWidth t.u.toNat * s.n.toNat
  fields := fwStream (t.uniques t.u.toNat) (s.block.map fun v => (t.rankAt v).toNat)
  consumed := s.n.toNat
  capped := false
  svval := s.svval
  txtsel := s.txtsel

/-- The body of FWENC (R503): E_LEN, then NA above 16 uniques (R502), then the shared end. -/
def fwencBody (s : State) : Body :=
  if s.blockOk maxnSmall then
    let t := symRebuild s.block
    if t.u.toNat > 16 then .notApplicable else emit s (fwCoded s t)
  else .raise .len

/-- FWENC (R503). -/
def execFwenc (s : State) : Host.Outcome State Fault Refusal := complete s (fwencBody s)

/-- The rank loop of R506: N ranks of w bits, each below U, mapped through the header's values. -/
def fwSymbols (m : Memory) (vals : List Byte) (w : Nat) : Nat → Nat → Except CmdError (List Byte × Nat)
  | 0, cur => .ok ([], cur)
  | n + 1, cur =>
    match getBits m cur w with
    | .error e => .error e
    | .ok (rk, cur') =>
      if rk ≥ vals.length then .error .decode
      else
        match fwSymbols m vals w n cur' with
        | .error e => .error e
        | .ok (out, cur'') => .ok (vals.getD rk 0#8 :: out, cur'')

/-- The decode loop of R506 from a cursor. -/
def fwDecode (m : Memory) (n cur : Nat) : Except CmdError (List Byte × Nat) :=
  match getBits m cur 4 with
  | .error e => .error e
  | .ok (um1, cur1) =>
    match getMany m 8 (um1 + 1) cur1 with
    | .error e => .error e
    | .ok (vals, cur2) =>
      fwSymbols m (vals.map (BitVec.ofNat 8)) (fwWidth (um1 + 1)) n cur2

/-- FWDEC (R506). -/
def execFwdec (s : State) : Host.Outcome State Fault Refusal :=
  complete s
    (if s.blockOk maxnSmall then deliver s (fwDecode s.str s.n.toNat s.cur.toNat) else .raise .len)

end Sys2Proof.Machine
end

