-- ==== Sys2Proof/Machine/SevenBit.lean ====
section
/-! DEFINITION. The 7-bit packer (44_seven_bit.md): P7ENC and P7DEC. -/

namespace Sys2Proof.Machine

/-- The stream of R600: the low seven bits of every block byte. -/
def p7Stream (x : List Byte) : List Field := x.map fun v => ⟨v.toNat % 128, 7⟩

/-- What P7ENC computes before it writes (R602). -/
def p7Coded (s : State) (t : SymTab) : Coded where
  sym := t
  total := 7 * s.n.toNat
  fields := p7Stream s.block
  consumed := s.n.toNat
  capped := false
  svval := s.svval
  txtsel := s.txtsel

/-- The body of P7ENC (R602): E_LEN, then NA when a byte has bit 7 set (R601), then the shared end. -/
def p7encBody (s : State) : Body :=
  if s.blockOk maxnSmall then
    let t := symRebuild s.block
    if t.oracc.getLsbD 7 then .notApplicable else emit s (p7Coded s t)
  else .raise .len

/-- P7ENC (R602). -/
def execP7enc (s : State) : Host.Outcome State Fault Refusal := complete s (p7encBody s)

/-- The decode loop of R605 from a cursor: N fields of 7 bits. -/
def p7Decode (m : Memory) (n cur : Nat) : Except CmdError (List Byte × Nat) :=
  match getMany m 7 n cur with
  | .error e => .error e
  | .ok (vs, cur') => .ok (vs.map (BitVec.ofNat 8), cur')

/-- P7DEC (R605). -/
def execP7dec (s : State) : Host.Outcome State Fault Refusal :=
  complete s
    (if s.blockOk maxnSmall then deliver s (p7Decode s.str s.n.toNat s.cur.toNat) else .raise .len)

end Sys2Proof.Machine
end

