-- ==== Sys2Proof/Machine/SingleValue.lean ====
section
/-! DEFINITION. The single-value coder (43_single_value.md): SVENC and SVDEC. -/

namespace Sys2Proof.Machine

/-- R551's choice among values in rank order: a later one replaces the best only with a larger count, so
the lowest rank wins a tie. -/
def dominantFrom (t : SymTab) : Byte → List Byte → Byte
  | best, [] => best
  | best, v :: vs =>
    dominantFrom t (if (t.occAt v).toNat > (t.occAt best).toNat then v else best) vs

/-- The dominant value V of R551: the search starts at rank 0 and meets the ranks in order (rank 0, met
again first, cannot beat itself). -/
def dominant (t : SymTab) : Byte :=
  dominantFrom t (t.uniqAt 0#8) (t.uniques t.u.toNat)

/-- The stream of R550: V, then per byte a flag, and a literal after a flag of 1. -/
def svSymbols (v : Byte) : List Byte → List Field
  | [] => []
  | x :: xs => if x = v then ⟨0, 1⟩ :: svSymbols v xs else ⟨1, 1⟩ :: ⟨x.toNat, 8⟩ :: svSymbols v xs

/-- The whole single-value stream (R550). -/
def svStream (v : Byte) (x : List Byte) : List Field := ⟨v.toNat, 8⟩ :: svSymbols v x

/-- What SVENC computes before it writes (R553). -/
def svCoded (s : State) (t : SymTab) : Coded where
  sym := t
  total := 8 + s.n.toNat + 8 * (s.n.toNat - (t.occAt (dominant t)).toNat)
  fields := svStream (dominant t) s.block
  consumed := s.n.toNat
  capped := false
  svval := dominant t
  txtsel := s.txtsel

/-- The body of SVENC (R553): E_LEN, then the shared end. -/
def svencBody (s : State) : Body :=
  if s.blockOk maxnSmall then emit s (svCoded s (symRebuild s.block)) else .raise .len

/-- SVENC (R553). -/
def execSvenc (s : State) : Host.Outcome State Fault Refusal := complete s (svencBody s)

/-- The flag loop of R555. -/
def svFlags (m : Memory) (v : Byte) : Nat → Nat → Except CmdError (List Byte × Nat)
  | 0, cur => .ok ([], cur)
  | n + 1, cur =>
    match getBits m cur 1 with
    | .error e => .error e
    | .ok (f, cur1) =>
      match (if f = 0 then .ok (v.toNat, cur1) else getBits m cur1 8 : Except CmdError (Nat × Nat)) with
      | .error e => .error e
      | .ok (x, cur2) =>
        match svFlags m v n cur2 with
        | .error e => .error e
        | .ok (out, cur3) => .ok (BitVec.ofNat 8 x :: out, cur3)

/-- The decode loop of R555 from a cursor. -/
def svDecode (m : Memory) (n cur : Nat) : Except CmdError (List Byte × Nat) :=
  match getBits m cur 8 with
  | .error e => .error e
  | .ok (v, cur1) => svFlags m (BitVec.ofNat 8 v) n cur1

/-- SVDEC (R555). -/
def execSvdec (s : State) : Host.Outcome State Fault Refusal :=
  complete s
    (if s.blockOk maxnSmall then deliver s (svDecode s.str s.n.toNat s.cur.toNat) else .raise .len)

end Sys2Proof.Machine
end

