-- ==== Sys2Proof/Machine/Text.lean ====
section
/-! DEFINITION. The text and adaptive text coder (45_text.md): TXTENC and TXTDEC. -/

namespace Sys2Proof.Machine

/-- The selection threshold TH of R660: 2 below N = 32, else 3. -/
def textThreshold (n : Nat) : Nat := if n < 32 then 2 else 3

/-- SEL of R660 for a block: 0 without AD; with AD the markup table if its count reaches the threshold
and the code count, else the code table if its count reaches the threshold, else the default. -/
def textSelect (ad : Bool) (x : List Byte) : Nat :=
  let cm := x.countP fun v => markupSet.contains v
  let ck := x.countP fun v => codeSet.contains v
  let th := textThreshold x.length
  if ad then (if cm ≥ th ∧ cm ≥ ck then 1 else if ck ≥ th then 2 else 0) else 0

/-- The code of table rank r (R662): c = G OR (e << 3), in 3, 4, 5 or 7 bits. -/
def rankCode (r : Nat) : Field :=
  if r < 3 then ⟨r, 3⟩
  else if r < 7 then ⟨4 + (r - 3) / 2 + 8 * ((r - 3) % 2), 4⟩
  else if r < 11 then ⟨6 + 8 * (r - 7), 5⟩
  else ⟨7 + 8 * (r - 11), 7⟩

/-- The width of an escaped literal (R661): 7 bits when L7 is 1, else 8. -/
def literalWidth (l7 : Bool) : Nat := if l7 then 7 else 8

/-- The code of a byte (R662): its rank's code, or the escape 3 and the literal. -/
def textCode (table : List Byte) (l7 : Bool) (v : Byte) : List Field :=
  match rankIn table v with
  | some r => [rankCode r]
  | none => [⟨3, 3⟩, ⟨v.toNat, literalWidth l7⟩]

/-- len(v) of R661. -/
def textLen (table : List Byte) (l7 : Bool) (v : Byte) : Nat :=
  match rankIn table v with
  | some r => (rankCode r).width
  | none => 3 + literalWidth l7

/-- The text stream of R661 with its header. -/
def textStream (sel : Nat) (table : List Byte) (l7 : Bool) (x : List Byte) : List Field :=
  ⟨sel, 2⟩ :: ⟨l7.toNat, 1⟩ :: x.flatMap (textCode table l7)

/-- The table TXTENC uses: T_SEL, where SEL is 0, 1 or 2 (R660). -/
def encoderTable (sel : Nat) : List Byte := (textTable sel).getD tableT0

/-- What TXTENC computes before it writes (R664). -/
def textCoded (ad : Bool) (s : State) (t : SymTab) : Coded :=
  let sel := textSelect ad s.block
  let l7 := !t.oracc.getLsbD 7
  { sym := t
    total := 3 + (s.block.map (textLen (encoderTable sel) l7)).sum
    fields := textStream sel (encoderTable sel) l7 s.block
    consumed := s.n.toNat
    capped := false
    svval := s.svval
    txtsel := BitVec.ofNat 2 sel }

/-- The body of TXTENC (R664): E_LEN, then the shared end. -/
def txtencBody (ad : Bool) (s : State) : Body :=
  if s.blockOk maxnLarge then emit s (textCoded ad s (symRebuild s.block)) else .raise .len

/-- TXTENC ad (R664). -/
def execTxtenc (ad : Bool) (s : State) : Host.Outcome State Fault Refusal :=
  complete s (txtencBody ad s)

/-- The extra bits e of a group (R662), read after it. -/
def extraBits (g : Nat) : Nat :=
  if g < 3 then 0 else if g < 6 then 1 else if g = 6 then 2 else 4

/-- The rank a group other than the escape names with its extra bits (R662); a rank above 22 is the
reserved e = 12..15 of G = 7. -/
def groupRank (g e : Nat) : Nat :=
  if g < 3 then g else if g < 6 then 3 + 2 * (g - 4) + e else if g = 6 then 7 + e else 11 + e

/-- One turn of R667's loop: a group, then the literal of an escape or the extra bits of a rank, where a
rank the table does not have is the reserved code and raises E_DECODE. -/
def textSymbol (m : Memory) (table : List Byte) (l7 : Bool) (cur : Nat) : Except CmdError (Byte × Nat) :=
  match getBits m cur 3 with
  | .error e => .error e
  | .ok (g, cur1) =>
    if g = 3 then
      match getBits m cur1 (literalWidth l7) with
      | .error e => .error e
      | .ok (v, cur2) => .ok (BitVec.ofNat 8 v, cur2)
    else
      match getBits m cur1 (extraBits g) with
      | .error e => .error e
      | .ok (e, cur2) =>
        match table[groupRank g e]? with
        | none => .error .decode
        | some v => .ok (v, cur2)

/-- R667's loop over N symbols. -/
def textSymbols (m : Memory) (table : List Byte) (l7 : Bool) :
    Nat → Nat → Except CmdError (List Byte × Nat)
  | 0, cur => .ok ([], cur)
  | n + 1, cur =>
    match textSymbol m table l7 cur with
    | .error e => .error e
    | .ok (v, cur1) =>
      match textSymbols m table l7 n cur1 with
      | .error e => .error e
      | .ok (out, cur2) => .ok (v :: out, cur2)

/-- The decode of R667 from a cursor: SEL (3 is E_DECODE, before L7 is read), L7, then the symbols. -/
def textDecode (m : Memory) (n cur : Nat) : Except CmdError (List Byte × Nat) :=
  match getBits m cur 2 with
  | .error e => .error e
  | .ok (sel, cur1) =>
    match textTable sel with
    | none => .error .decode
    | some table =>
      match getBits m cur1 1 with
      | .error e => .error e
      | .ok (l7, cur2) => textSymbols m table (decide (l7 = 1)) n cur2

/-- TXTDEC (R667). -/
def execTxtdec (s : State) : Host.Outcome State Fault Refusal :=
  complete s
    (if s.blockOk maxnLarge then deliver s (textDecode s.str s.n.toNat s.cur.toNat) else .raise .len)

end Sys2Proof.Machine
end

