-- ==== Sys2Proof/Machine/Dispatch.lean ====
section
/-! DEFINITION. One arm per command of Syntax.lean, each calling its meaning. -/

namespace Sys2Proof.Machine

-- 40_bit_cursor.md, 41_symbol_table.md, then the six coders in the order of 30_encoding.md R303
def exec (i : Instr) (s : State) : Host.Outcome State Fault Refusal :=
  match i with
  | .nop => Sys2Proof.Machine.execNop s
  | .putbits val nb => Sys2Proof.Machine.execPutbits val nb s
  | .getbits nb => Sys2Proof.Machine.execGetbits nb s
  | .peekbits nb => Sys2Proof.Machine.execPeekbits nb s
  | .symrst => Sys2Proof.Machine.execSymrst s
  | .symscan lim => Sys2Proof.Machine.execSymscan lim s
  | .rdrank idx => Sys2Proof.Machine.execRdrank idx s
  | .rduniq idx => Sys2Proof.Machine.execRduniq idx s
  | .rdocc idx => Sys2Proof.Machine.execRdocc idx s
  | .fwenc => Sys2Proof.Machine.execFwenc s
  | .fwdec => Sys2Proof.Machine.execFwdec s
  | .svenc => Sys2Proof.Machine.execSvenc s
  | .svdec => Sys2Proof.Machine.execSvdec s
  | .p7enc => Sys2Proof.Machine.execP7enc s
  | .p7dec => Sys2Proof.Machine.execP7dec s
  | .txtenc ad => Sys2Proof.Machine.execTxtenc ad s
  | .txtdec => Sys2Proof.Machine.execTxtdec s
  | .strenc => Sys2Proof.Machine.execStrenc s
  | .strdec => Sys2Proof.Machine.execStrdec s
  | .xstrenc => Sys2Proof.Machine.execXstrenc s
  | .xstrdec => Sys2Proof.Machine.execXstrdec s

end Sys2Proof.Machine
end

