-- ==== Sys2Proof/Machine/HostPort.lean ====
section
/-! DEFINITION. The host port: the window map (20_memory.md R220), register and memory accesses and their
side effects (R223), accesses while a command runs (R230, R231), bus errors (R213), the soft reset
(70_reset_and_hazards.md R902), and which agent moves next (R235; log entries 1 and 2). -/

namespace Sys2Proof.Machine

/-- The host registers of 10_state.md R101, in offset order. -/
inductive Reg where
  | id | ctrl | status | cmd | cur | n | base | limit | data | bitlen | consumed | ucnt | scanpos
  | textcnt | oracc | svval | txtsel
  deriving DecidableEq, Repr

/-- What a window offset names (R220). -/
inductive Target where
  /-- A register of R101. -/
  | reg (r : Reg)
  /-- The BLK bytes from this address. -/
  | blk (m : Nat)
  /-- The STR bytes from this address. -/
  | str (m : Nat)
  /-- A reserved offset (R222). -/
  | reserved
  deriving DecidableEq, Repr

/-- The register at a word offset of R101's table, if there is one. -/
def Reg.ofOffset (off : Nat) : Option Reg :=
  match off with
  | 0x00 => some .id
  | 0x04 => some .ctrl
  | 0x08 => some .status
  | 0x0C => some .cmd
  | 0x10 => some .cur
  | 0x14 => some .n
  | 0x18 => some .base
  | 0x1C => some .limit
  | 0x20 => some .data
  | 0x24 => some .bitlen
  | 0x28 => some .consumed
  | 0x2C => some .ucnt
  | 0x30 => some .scanpos
  | 0x34 => some .textcnt
  | 0x38 => some .oracc
  | 0x3C => some .svval
  | 0x40 => some .txtsel
  | _ => none

/-- The window map of R220; BLK byte m is at 0x1000 + m and STR byte m at 0x2000 + m (R210). -/
def target (off : Nat) : Target :=
  if off < 0x1000 then
    match Reg.ofOffset off with
    | some r => .reg r
    | none => .reserved
  else if off < 0x1200 then .blk (off - 0x1000)
  else if off < 0x2000 then .reserved
  else if off < 0x2400 then .str (off - 0x2000)
  else .reserved

/-- ID (R119): "TDC" and the hardware version 1. -/
def idWord : Word := 0x54444301#32

/-- What a register reads as (R101, R102: zeros above its width; CMD reads 0, R103). -/
def State.readReg (s : State) : Reg → Word
  | .id => idWord
  | .ctrl => s.ctrlWord
  | .status => s.statusWord
  | .cmd => 0#32
  | .cur => s.cur.setWidth 32
  | .n => s.n.setWidth 32
  | .base => s.base.setWidth 32
  | .limit => s.limit.setWidth 32
  | .data => s.data.setWidth 32
  | .bitlen => s.bitlen.setWidth 32
  | .consumed => s.consumed.setWidth 32
  | .ucnt => s.sym.u.setWidth 32
  | .scanpos => s.sym.scanpos.setWidth 32
  | .textcnt => s.sym.textcnt.setWidth 32
  | .oracc => s.sym.oracc.setWidth 32
  | .svval => s.svval.setWidth 32
  | .txtsel => s.txtsel.setWidth 32

/-- What an aligned word read returns while the core is idle (R210, R220, R222). -/
def State.readTarget (s : State) : Target → Word
  | .reg r => s.readReg r
  | .blk m => BitVec.ofNat 32 (s.blk.readLE Config.powerOnBlk m 4)
  | .str m => BitVec.ofNat 32 (s.str.readLE Config.powerOnStr m 4)
  | .reserved => 0#32

/-- The targets whose reads are exact even while BUSY = 1: ID, CTRL and STATUS (R231), and the reserved
offsets, which are stuck at 0 (R222). -/
def Target.exactWhileBusy : Target → Bool
  | .reg .id => true
  | .reg .ctrl => true
  | .reg .status => true
  | .reserved => true
  | _ => false

/-- The targets a host write to which is dropped while BUSY = 1, setting OVR: CMD, CUR, N, BASE, LIMIT,
BLK and STR (R230). -/
def Target.lockedWhileBusy : Target → Bool
  | .reg .cmd => true
  | .reg .cur => true
  | .reg .n => true
  | .reg .base => true
  | .reg .limit => true
  | .blk _ => true
  | .str _ => true
  | _ => false

/-! ### The soft reset (R902) -/

/-- The body of an encoder command, `none` for every other command. -/
def encoderBody (i : Instr) (s : State) : Option Body :=
  match i with
  | .fwenc => some (fwencBody s)
  | .svenc => some (svencBody s)
  | .p7enc => some (p7encBody s)
  | .txtenc ad => some (txtencBody ad s)
  | .strenc => some (strencBody s)
  | .xstrenc => some (xstrencBody s)
  | .nop | .putbits _ _ | .getbits _ | .peekbits _ | .symrst | .symscan _ | .rdrank _ | .rduniq _
  | .rdocc _ | .fwdec | .svdec | .p7dec | .txtdec | .strdec | .xstrdec => none

/-- The six decoders (R201). -/
def isDecoder (i : Instr) : Bool :=
  match i with
  | .fwdec | .svdec | .p7dec | .txtdec | .strdec | .xstrdec => true
  | .nop | .putbits _ _ | .getbits _ | .peekbits _ | .symrst | .symscan _ | .rdrank _ | .rduniq _
  | .rdocc _ | .fwenc | .svenc | .p7enc | .txtenc _ | .strenc | .xstrenc => false

/-- `n` bytes from address `a` become free values of the given draw (U3). -/
def Memory.forget (m : Memory) (draw a : Nat) : Nat → Memory
  | 0 => m
  | n + 1 => Memory.forget (m.write a (Config.abortedByte draw a)) draw (a + 1) n

/-- The memories after the running command is aborted (R902): the STR bytes CUR div 8 through
(CUR + total - 1) div 8 of an encoder's output, or the bytes BLK[BASE .. BASE+N-1] of a decoder, become
unspecified; every other byte is kept. An encoder that would raise or decline would have covered no byte
(DEDUCED, log entry 6). -/
def State.abort (s : State) (w : Word) : State :=
  match decode w with
  | .error _ => s
  | .ok i =>
    match encoderBody i s with
    | some (.commit t _) =>
      let first := s.cur.toNat / 8
      let last := (s.cur.toNat + t.bitlen.toNat - 1) / 8
      { s with str := s.str.forget s.draws first (last + 1 - first), draws := s.draws + 1 }
    | some _ => s
    | none =>
      if isDecoder i then
        { s with
          blk := s.blk.forget s.draws s.base.toNat (min s.n.toNat (Config.blkBytes - s.base.toNat)),
          draws := s.draws + 1 }
      else s

/-- The soft reset of R902: abort what runs, then every register and the symbol table at its reset value;
BLK and STR are kept. The rest of the host's accesses and the count of free values are the model's own
and go on. -/
def State.softReset (s : State) : State :=
  let a := match s.running with
    | none => s
    | some r => s.abort r.word
  { State.reset with blk := a.blk, str := a.str, draws := a.draws, inbox := s.inbox, reply := s.reply }

/-! ### Accesses -/

/-- What a write that is not dropped does (R102, R103, R104, R105, R223): a register stores the word
truncated to its width, a CMD write starts the command, a STATUS write clears bits, a CTRL write stores
IE or performs the soft reset, a memory write stores four bytes; RO registers and reserved offsets keep
their values. -/
def State.writeTarget (s : State) (w : Word) : Target → State
  | .reg .ctrl => if w.getLsbD 1 then s.softReset else { s with ie := w.getLsbD 0 }
  | .reg .status => { s with status := s.status.clearBits w }
  | .reg .cmd => { s.startCommand w (Config.busyAccesses s.draws) with draws := s.draws + 1 }
  | .reg .cur => { s with cur := w.setWidth 14 }
  | .reg .n => { s with n := w.setWidth 10 }
  | .reg .base => { s with base := w.setWidth 9 }
  | .reg .limit => { s with limit := w.setWidth 13 }
  | .reg .id => s
  | .reg .data => s
  | .reg .bitlen => s
  | .reg .consumed => s
  | .reg .ucnt => s
  | .reg .scanpos => s
  | .reg .textcnt => s
  | .reg .oracc => s
  | .reg .svval => s
  | .reg .txtsel => s
  | .blk m => { s with blk := s.blk.writeLE m w.toNat 4 }
  | .str m => { s with str := s.str.writeLE m w.toNat 4 }
  | .reserved => s

/-- STATUS.OVR set (R808). -/
def State.setOvr (s : State) : State := { s with status := { s.status with ovr := true } }

/-- The port's answer (R213, R220). -/
def State.answer (s : State) (r : Reply) : State := { s with reply := r }

/-- A host read (R213, R220, R223, R231). -/
def State.hostRead (s : State) (off : BitVec 14) : State :=
  if off.toNat % 4 ≠ 0 then s.answer .busError
  else if s.busy && !(target off.toNat).exactWhileBusy then
    { s with reply := .data (Config.busyReadWord s.draws), draws := s.draws + 1 }
  else s.answer (.data (s.readTarget (target off.toNat)))

/-- A host write (R213, R223, R230). -/
def State.hostWrite (s : State) (off : BitVec 14) (lanes : BitVec 4) (w : Word) : State :=
  if off.toNat % 4 ≠ 0 ∨ lanes ≠ 0xF#4 then s.answer .busError
  else if s.busy && (target off.toNat).lockedWhileBusy then s.setOvr.answer .accepted
  else (s.writeTarget w (target off.toNat)).answer .accepted

/-- One access. A WAIT is met only when the core is idle; its last STATUS read is the answer (R307). -/
def State.perform (s : State) : Access → State
  | .read off => s.hostRead off
  | .write off lanes w => s.hostWrite off lanes w
  | .wait => s.answer (.data s.statusWord)

/-- One access has landed: the running command is that much nearer to its completion (R920). -/
def State.landed (s : State) : State :=
  { s with running := s.running.map fun r => { r with accessesLeft := r.accessesLeft - 1 } }

/-- The host's next access takes effect (R235 (1)); with none to come the machine stays as it is, since the
core waits for a host write to CMD (R900). -/
def State.hostTurn (s : State) : State :=
  match s.inbox with
  | [] => s
  | a :: rest => State.perform { s.landed with inbox := rest } a

/-- The command word the core is about to execute: the latched one, when the host has no further access,
or waits, or all the accesses that land before the completion have landed (R235 (2), R307, R920); `none`
when the host moves. -/
def State.commandToRun (s : State) : Option Word :=
  match s.running with
  | none => none
  | some r =>
    match s.inbox with
    | [] => some r.word
    | .wait :: _ => some r.word
    | .read _ :: _ => if r.accessesLeft = 0 then some r.word else none
    | .write _ _ _ :: _ => if r.accessesLeft = 0 then some r.word else none

end Sys2Proof.Machine
end

