-- ==== Sys2Proof/Machine/Command.lean ====
section
/-! DEFINITION. Executing a command word (60_exceptions.md R800): decode it, and run the command, or end
with E_BADCMD. -/

namespace Sys2Proof.Machine

/-- R800 execute and finish. A word the decoder rejects raises E_BADCMD before any operand register is
read (R801). -/
def runWord (w : Word) (s : State) : Host.Outcome State Fault Refusal :=
  match decode w with
  | .error _ => complete s (.raise .badCmd)
  | .ok i => exec i s

/-- The 32-bit command word of an instruction given as the opcode table numbers its bits (R300), the bits
above `nbits` zero. -/
def tableWord (nbits w : Nat) : Word := BitVec.ofNat 32 (w % 2 ^ nbits)

end Sys2Proof.Machine
end

