-- ==== Sys2Proof/Machine/Step.lean ====
section
/-! DEFINITION. One step of the machine: the core executes the command it holds, as one atomic step
(20_memory.md R224, R235 (2)), or the host's next access takes effect (R235 (1)). -/

namespace Sys2Proof.Machine

/-- One step. -/
def step (s : State) : Host.Outcome State Fault Refusal :=
  match s.commandToRun with
  | some w => runWord w s
  | none => .next s.hostTurn

/-- The state in which the command word has just been written to CMD (R103, R800 start) and no further
host access lands before the command runs: the core fetches no instruction, so this is where its next
command comes from (R3, R238; DESIGN CHOICE, log entry 12). -/
def State.withFetchWord (s : State) (nbits w : Nat) : State := s.startCommand (tableWord nbits w) 0

end Sys2Proof.Machine
end

