-- ==== Sys2Proof/Safety.lean ====
section
/-! DEFINITION. The terms claims about TDC-CORE use: how a command ended (R800), what a stream holds
(R309), which commands have a block and which are encoders or decoders (R201, R802), legality of a command
word as 30_encoding.md R303 and R304 give it, and the invariants of the state (10_state.md R104, R121). -/

namespace Sys2Proof.Machine

/-! ### Outcomes -/

/-- The state a command leaves that has no effect but on STATUS (R800): BUSY 0, DONE 1, CAP 0, OVR kept,
the given ERR and NA. -/
def State.onlyStatus (s : State) (err : Option CmdError) (na : Bool) : State :=
  { s with running := none, status := ⟨true, err, na, false, s.status.ovr⟩ }

/-- The state after a command that succeeded with the effects of `t` (R800): STATUS is DONE, with the CAP
flag given and OVR as in `t`. -/
def State.succeeded (t : State) (cap : Bool) : State :=
  { t with running := none, status := ⟨true, none, false, cap, t.status.ovr⟩ }

/-- A completed command succeeded: no error and no decline (R800). -/
def State.succeededNow (t : State) : Prop := t.status.err = none ∧ t.status.na = false

end Sys2Proof.Machine

namespace Sys2Proof

/-! ### Kinds of commands -/

/-- The largest block length of a command that has a block (R803), `none` for a command that has none
(R802). -/
def Instr.maxBlock : Instr → Option Nat
  | .symscan _ => some 512
  | .fwenc => some 64
  | .fwdec => some 64
  | .svenc => some 64
  | .svdec => some 64
  | .p7enc => some 64
  | .p7dec => some 64
  | .txtenc _ => some 512
  | .txtdec => some 512
  | .strenc => some 64
  | .strdec => some 64
  | .xstrenc => some 512
  | .xstrdec => some 512
  | .nop => none
  | .putbits _ _ => none
  | .getbits _ => none
  | .peekbits _ => none
  | .symrst => none
  | .rdrank _ => none
  | .rduniq _ => none
  | .rdocc _ => none

/-- The six encoders (R201). -/
def Instr.isEncoder : Instr → Prop
  | .fwenc => True
  | .svenc => True
  | .p7enc => True
  | .txtenc _ => True
  | .strenc => True
  | .xstrenc => True
  | .nop | .putbits _ _ | .getbits _ | .peekbits _ | .symrst | .symscan _ | .rdrank _ | .rduniq _
  | .rdocc _ | .fwdec | .svdec | .p7dec | .txtdec | .strdec | .xstrdec => False

/-- The six decoders (R201). -/
def Instr.isDecoder : Instr → Prop
  | .fwdec => True
  | .svdec => True
  | .p7dec => True
  | .txtdec => True
  | .strdec => True
  | .xstrdec => True
  | .nop | .putbits _ _ | .getbits _ | .peekbits _ | .symrst | .symscan _ | .rdrank _ | .rduniq _
  | .rdocc _ | .fwenc | .svenc | .p7enc | .txtenc _ | .strenc | .xstrenc => False

end Sys2Proof

namespace Sys2Proof.Machine

/-- R802: N in 1..maxn and BASE + N ≤ 512. -/
def State.legalBlock (s : State) (maxn : Nat) : Prop :=
  1 ≤ s.n.toNat ∧ s.n.toNat ≤ maxn ∧ s.base.toNat + s.n.toNat ≤ 512

/-! ### Legal command words (R303, R304) -/

/-- The match and mask columns of R303's opcode map, row by row. -/
def mapRows : List (Word × Word) :=
  [ (0x00000000#32, 0xFFFFFFFF#32), (0x00000001#32, 0xFE00F0FF#32), (0x00000002#32, 0xFFFFF0FF#32),
    (0x00000003#32, 0xFFFFF0FF#32), (0x00000008#32, 0xFFFFFFFF#32), (0x00000009#32, 0xFC00FFFF#32),
    (0x0000000A#32, 0xFFFF00FF#32), (0x0000000B#32, 0xFFFF00FF#32), (0x0000000C#32, 0xFFFF00FF#32) ]
  ++
  [ (0x00000010#32, 0xFFFFFFFF#32), (0x00000011#32, 0xFFFFFFFF#32), (0x00000012#32, 0xFFFFFFFF#32),
    (0x00000013#32, 0xFFFFFFFF#32), (0x00000014#32, 0xFFFFFFFF#32), (0x00000015#32, 0xFFFFFFFF#32),
    (0x00000016#32, 0xFFFFFEFF#32), (0x00000017#32, 0xFFFFFFFF#32), (0x00000018#32, 0xFFFFFFFF#32),
    (0x00000019#32, 0xFFFFFFFF#32), (0x0000001A#32, 0xFFFFFFFF#32), (0x0000001B#32, 0xFFFFFFFF#32) ]

/-- A legal command word: it selects a row, `(w AND mask) = match` (R303), and for PUTBITS, GETBITS and
PEEKBITS (matches 1, 2 and 3) its field w[11:8] is 1..9 (R304). -/
def legalWord (w : Word) : Prop :=
  ∃ row ∈ mapRows, w &&& row.2 = row.1 ∧
    (row.1 = 1#32 ∨ row.1 = 2#32 ∨ row.1 = 3#32 →
      1 ≤ w.toNat / 256 % 16 ∧ w.toNat / 256 % 16 ≤ 9)

/-! ### Streams -/

/-- The stream holds these fields end to end from bit p (R14, R309). -/
def StreamHolds (m : Memory) : Nat → List Field → Prop
  | _, [] => True
  | p, f :: fs => readField m p f.width = f.value ∧ StreamHolds m (p + f.width) fs

/-- The stream at CUR holds the fields `fs` inside STR, and a next field of w bits would pass bit 8192
(R804 (c)); with no field read yet, CUR itself may be beyond the bound (R403). -/
def State.RunsOutAfter (s : State) (fs : List Field) (w : Nat) : Prop :=
  StreamHolds s.str s.cur.toNat fs ∧ (fs = [] ∨ s.cur.toNat + fieldsWidth fs ≤ 8192) ∧
    8192 < s.cur.toNat + fieldsWidth fs + w

/-- Writing n bits from bit c clears bit p: p lies behind the last written bit, in a byte that the
writing entered at its bit 0 (R402). -/
def clearedBy (c n p : Nat) : Prop := c ≤ 8 * (p / 8) ∧ 8 * (p / 8) < c + n ∧ c + n ≤ p

/-- A write of `n` stream bits from bit c changes no other bit but the cleared ones (R202, R402). -/
def WritesOnly (m m' : Memory) (c n : Nat) : Prop :=
  ∀ p, (clearedBy c n p → strBit m' p = false) ∧
    (¬(c ≤ p ∧ p < c + n) → ¬clearedBy c n p → strBit m' p = strBit m p)

/-- BLK after a decoder (R201): its output from BASE on, every other byte as before. -/
def WritesBlock (m m' : Memory) (base : Nat) (out : List Byte) : Prop :=
  (∀ i (h : i < out.length), m'.read Config.powerOnBlk (base + i) = out[i]) ∧
    ∀ a, ¬(base ≤ a ∧ a < base + out.length) →
      m'.read Config.powerOnBlk a = m.read Config.powerOnBlk a

/-- The fields of byte values, `w` bits each. -/
def byteFields (w : Nat) (vals : List Byte) : List Field := vals.map fun v => ⟨v.toNat, w⟩

/-- The number of distinct values in a list of bytes (R19: U). -/
def distinct (x : List Byte) : Nat := x.dedup.length

/-- A symbol table that ranks the values of a block by first occurrence and counts them (R451, R460). -/
structure RanksBlock (t : SymTab) (x : List Byte) : Prop where
  u : t.u.toNat = distinct x
  seen : ∀ v, t.seenAt v = true ↔ v ∈ x
  rank : ∀ p (h : p < x.length), x[p] ∉ x.take p → (t.rankAt x[p]).toNat = distinct (x.take p)
  uniq : ∀ p (h : p < x.length), x[p] ∉ x.take p →
    t.uniqAt (BitVec.ofNat 8 (distinct (x.take p))) = x[p]
  occ : ∀ v, (t.occAt v).toNat = x.count v
  scanpos : t.scanpos.toNat = x.length
  textcnt : t.textcnt.toNat = x.countP fun v => tableT0.contains v
  oracc : t.oracc = x.foldl (fun a v => a ||| v) 0#8

/-- The rank of a value by first occurrence in x (R19): how many distinct values come before it. -/
def firstRank (x : List Byte) (v : Byte) : Nat := distinct (x.take (x.idxOf v))

/-! ### Tokens (R700, R705, R708) -/

/-- A two-byte match of R705 at position i of x: an earlier q, at most i - 2, with the same pair. -/
def PairAt (x : List Byte) (i q : Nat) : Prop :=
  q + 2 ≤ i ∧ i + 1 < x.length ∧ byteAt x q = byteAt x i ∧ byteAt x (q + 1) = byteAt x (i + 1)

/-- R705: the tokens cover x from position i on, each the first case that applies; a STRING takes the
most recent pair, and is as long as Lmax, the end of x and the bytes allow. -/
def FollowsPolicy (rank : Byte → Nat) (lmax : Nat) (x : List Byte) : Nat → List Token → Prop
  | i, [] => i = x.length
  | i, .newUnique :: toks =>
    i < x.length ∧ byteAt x i ∉ x.take i ∧ FollowsPolicy rank lmax x (i + 1) toks
  | i, .repeatRank idx :: toks =>
    i < x.length ∧ byteAt x i ∈ x.take i ∧ (∀ q, ¬PairAt x i q) ∧ idx = rank (byteAt x i) ∧
      FollowsPolicy rank lmax x (i + 1) toks
  | i, .string len pos :: toks =>
    byteAt x i ∈ x.take i ∧ PairAt x i pos ∧ (∀ q, pos < q → ¬PairAt x i q) ∧
      2 ≤ len ∧ len ≤ lmax ∧ i + len ≤ x.length ∧
      (∀ k < len, byteAt x (pos + k) = byteAt x (i + k)) ∧
      (len = lmax ∨ i + len = x.length ∨ byteAt x (pos + len) ≠ byteAt x (i + len)) ∧
      FollowsPolicy rank lmax x (i + len) toks

/-- A token list a string decoder accepts for the rest of a block of n bytes, from position i with u
uniques introduced, of `uniq` in the header (R708). -/
def ValidTokens (uniq n lw : Nat) : Nat → Nat → List Token → Prop
  | u, i, [] => i = n ∧ u = uniq
  | u, i, .newUnique :: toks => i < n ∧ u < uniq ∧ ValidTokens uniq n lw (u + 1) (i + 1) toks
  | u, i, .repeatRank idx :: toks => i < n ∧ idx < u ∧ ValidTokens uniq n lw u (i + 1) toks
  | u, i, .string len pos :: toks =>
    pos < i ∧ 2 ≤ len ∧ len < 2 + 2 ^ lw ∧ i + len ≤ n ∧ ValidTokens uniq n lw u (i + len) toks

/-- A token list at whose end a string decoder raises E_DECODE (R708): the last token is the first that
fails its check, or the tokens reach i = n with a header value unused. -/
def RejectedTokens (uniq n lw : Nat) : Nat → Nat → List Token → Prop
  | u, i, [] => i = n ∧ u ≠ uniq
  | u, i, .newUnique :: toks =>
    i < n ∧ (uniq ≤ u ∧ toks = [] ∨ u < uniq ∧ RejectedTokens uniq n lw (u + 1) (i + 1) toks)
  | u, i, .repeatRank idx :: toks =>
    i < n ∧ idx < 2 ^ idxw u ∧
      (u ≤ idx ∧ toks = [] ∨ idx < u ∧ RejectedTokens uniq n lw u (i + 1) toks)
  | u, i, .string len pos :: toks =>
    i < n ∧ 2 ≤ len ∧ len < 2 + 2 ^ lw ∧ pos < 2 ^ posw i ∧
      ((i ≤ pos ∨ n < i + len) ∧ toks = [] ∨
        pos < i ∧ i + len ≤ n ∧ RejectedTokens uniq n lw u (i + len) toks)

/-- R700's effect column, byte by byte: `out` is what a token list from position i on, with u uniques
introduced, produces from the header's values. NEW_UNIQUE gives VAL[u], REPEAT gives VAL[IDX], and a STRING
gives out[i+k] = out[P+k] for every k below L, the bytes it has itself produced among them. -/
def TokensProduce (vals out : List Byte) : Nat → Nat → List Token → Prop
  | _, i, [] => i = out.length
  | u, i, .newUnique :: toks =>
    i < out.length ∧ out[i]? = vals[u]? ∧ TokensProduce vals out (u + 1) (i + 1) toks
  | u, i, .repeatRank idx :: toks =>
    i < out.length ∧ out[i]? = vals[idx]? ∧ TokensProduce vals out u (i + 1) toks
  | u, i, .string len pos :: toks =>
    i + len ≤ out.length ∧ (∀ k < len, out[i + k]? = out[pos + k]?) ∧
      TokensProduce vals out u (i + len) toks

/-- After tokens that pass their checks and do not reach i = n, a string decoder has read the fields `part`
of the next token and reads a field of w bits next (R700, R713): a leading bit, IDX, LM2 or P. -/
def OpenTokens (uniq n lw : Nat) (part : List Field) (w : Nat) : Nat → Nat → List Token → Prop
  | u, i, [] =>
    i < n ∧
      (part = [] ∧ w = 1 ∨
        part = [⟨1, 1⟩] ∧ w = 1 ∨
        part = [⟨1, 1⟩, ⟨0, 1⟩] ∧ w = idxw u ∨
        part = [⟨1, 1⟩, ⟨1, 1⟩] ∧ w = lw ∨
        ∃ lm2, part = [⟨1, 1⟩, ⟨1, 1⟩, ⟨lm2, lw⟩] ∧ w = posw i)
  | u, i, .newUnique :: toks => i < n ∧ u < uniq ∧ OpenTokens uniq n lw part w (u + 1) (i + 1) toks
  | u, i, .repeatRank idx :: toks => i < n ∧ idx < u ∧ OpenTokens uniq n lw part w u (i + 1) toks
  | u, i, .string len pos :: toks =>
    pos < i ∧ 2 ≤ len ∧ len < 2 + 2 ^ lw ∧ i + len ≤ n ∧ OpenTokens uniq n lw part w u (i + len) toks

/-! ### Round trips -/

/-- What a round trip of an encoder e and a decoder d says: after a successful e, from any state with the
same CUR at the start, with N = `n` of the encoder's outcome, a legal block and the same stream bits, d
succeeds, restores the first n bytes of the block, and ends where e ended, BITLEN bits after its start. -/
def RoundTrips (e d : Instr) (maxn : Nat) (n : State → State → BitVec 10) : Prop :=
  ∀ (s t u : State), exec e s = .next t → t.succeededNow → u.cur = s.cur → u.n = n s t →
    u.legalBlock maxn →
    (∀ p, s.cur.toNat ≤ p → p < s.cur.toNat + t.bitlen.toNat → strBit u.str p = strBit t.str p) →
    ∃ v, exec d u = .next v ∧ v.succeededNow ∧ v.cur = t.cur ∧
      v.cur.toNat = s.cur.toNat + t.bitlen.toNat ∧ v.bitlen = t.bitlen ∧
      ∀ i < (n s t).toNat, v.blkByte (u.base.toNat + i) = s.blkByte (s.base.toNat + i)

/-! ### The host's view -/

/-- The registers of R101 as an idle core's host reads them. -/
def registerWords (s : State) : List (BitVec 14 × Word) :=
  [ (0x000#14, 0x54444301#32), (0x004#14, (BitVec.ofBool s.ie).setWidth 32), (0x008#14, s.statusWord),
    (0x00C#14, 0#32), (0x010#14, s.cur.setWidth 32), (0x014#14, s.n.setWidth 32),
    (0x018#14, s.base.setWidth 32), (0x01C#14, s.limit.setWidth 32), (0x020#14, s.data.setWidth 32) ]
  ++
  [ (0x024#14, s.bitlen.setWidth 32), (0x028#14, s.consumed.setWidth 32), (0x02C#14, s.sym.u.setWidth 32),
    (0x030#14, s.sym.scanpos.setWidth 32), (0x034#14, s.sym.textcnt.setWidth 32),
    (0x038#14, s.sym.oracc.setWidth 32), (0x03C#14, s.svval.setWidth 32), (0x040#14, s.txtsel.setWidth 32) ]

/-! ### Invariants -/

/-- Invariants (a) to (d) of R121, with what they rest on: no more bytes than a block has were scanned, and
TEXTCNT counts some of them. -/
structure SymTab.Consistent (t : SymTab) : Prop where
  /-- (a): exactly U values have been seen. -/
  card : (List.range 256).countP (fun v => t.seenAt (BitVec.ofNat 8 v)) = t.u.toNat
  /-- (b): a seen value has a rank below U, and UNIQ inverts it. -/
  rank_lt : ∀ v, t.seenAt v = true →
    (t.rankAt v).toNat < t.u.toNat ∧ t.uniqAt (t.rankAt v) = v
  /-- (c): a rank below U names a seen value that has this rank. -/
  uniq_seen : ∀ r : Byte, r.toNat < t.u.toNat →
    t.seenAt (t.uniqAt r) = true ∧ t.rankAt (t.uniqAt r) = r
  /-- (d): the counts add up to SCANPOS. -/
  occ_sum : ((List.range 256).map fun v => (t.occAt (BitVec.ofNat 8 v)).toNat).sum = t.scanpos.toNat
  /-- (d): a value has been counted exactly when it has been seen. -/
  occ_pos : ∀ v, 0 < (t.occAt v).toNat ↔ t.seenAt v = true
  /-- R114: SCANPOS is 0..512. -/
  scanpos_le : t.scanpos.toNat ≤ 512
  /-- R115: TEXTCNT counts scanned bytes. -/
  textcnt_le : t.textcnt.toNat ≤ t.scanpos.toNat

/-- Both memories are in canonical form and list no address outside them (R122). -/
structure State.MemoriesWf (s : State) : Prop where
  blk_wf : s.blk.wf = true
  blk_within : s.blk.within 512 = true
  str_wf : s.str.wf = true
  str_within : s.str.within 1024 = true

/-- What STATUS and the result registers never leave (R104, R111, R112, R118): at most one of ERR and NA,
CAP only with neither, DONE and the outcome clear while BUSY, BITLEN ≤ 8192, CONSUMED ≤ 512, TXTSEL ≠ 3. -/
structure State.ResultsLegal (s : State) : Prop where
  err_or_na : s.status.err ≠ none → s.status.na = false
  cap_alone : s.status.cap = true → s.status.err = none ∧ s.status.na = false
  busy_clear : s.busy = true →
    s.status.done = false ∧ s.status.err = none ∧ s.status.na = false ∧ s.status.cap = false
  bitlen_le : s.bitlen.toNat ≤ 8192
  consumed_le : s.consumed.toNat ≤ 512
  txtsel_ne : s.txtsel ≠ 3#2

end Sys2Proof.Machine
end

