-- ==== Sys2Proof/Certificates/Slice0/Obligations.lean ====
section
/-! DEFINITION. The statements about this model that the provers settle, file by file of the spec. Where a
statement leaves the spec's own words for a choice of the model, its docstring names the log entry. -/

open Sys2Proof Sys2Proof.Machine

/-! ### Encoding (30_encoding.md) -/

/-- Decoding the word of any command, with every operand at every value of its field, gives the command
back (R301, R303, R307). For PUTBITS, GETBITS and PEEKBITS this holds at NB = 0 and 10..15 too, words that R304
calls illegal: that `decode` names the command there and leaves the check of NB to its meaning is the
model's choice (log entry 9). -/
def Obligations.DecodeOfEncodeIsTheCommand : Prop := ∀ i : Instr, decode (encode i) = .ok i

/-- A word that decodes is the word of the command it decodes to: no bit of it is dropped (R300, R303). -/
def Obligations.EncodeOfDecodeIsTheWord : Prop := ∀ (w : Word) (i : Instr), decode w = .ok i → encode i = w

/-- R307's words, written out, decode to the commands they stand for, one or more of every family. -/
def Obligations.SyntaxWordsDecode : Prop :=
  decode 0x00000000#32 = .ok .nop ∧
  decode 0x00050301#32 = .ok (.putbits 5#9 3#4) ∧
  decode 0x01FF0901#32 = .ok (.putbits 0x1FF#9 9#4) ∧
  decode 0x00000902#32 = .ok (.getbits 9#4) ∧
  decode 0x00000303#32 = .ok (.peekbits 3#4) ∧
  decode 0x00020009#32 = .ok (.symscan 2#10) ∧
  decode 0x0000610A#32 = .ok (.rdrank 0x61#8) ∧
  decode 0x00000010#32 = .ok .fwenc ∧
  decode 0x00000013#32 = .ok .svdec ∧
  decode 0x00000014#32 = .ok .p7enc ∧
  decode 0x00000116#32 = .ok (.txtenc true) ∧
  decode 0x00000019#32 = .ok .strdec ∧
  decode 0x0000001A#32 = .ok .xstrenc

/-- R303 and R304: the words that decode to a legal command are exactly those that select a row of the
opcode map by its match and mask and, for PUTBITS, GETBITS and PEEKBITS, have w[11:8] in 1..9. -/
def Obligations.LegalWordsAreThoseOfTheOpcodeMap : Prop :=
  ∀ w : Word, (∃ i, decode w = .ok i ∧ i.wellFormed = true) ↔ legalWord w

/-- R305 (with R801): an illegal word that the core is about to execute completes with E_BADCMD and no
other effect. (When a core is about to execute is the model's choice, log entries 2 and 14.) -/
def Obligations.IllegalWordsCompleteWithBadCmd : Prop :=
  ∀ (s : State) (w : Word), s.commandToRun = some w → ¬legalWord w →
    step s = .next (s.onlyStatus (some .badCmd) false)

/-- A step of a core that is due to execute runs exactly the command its latched word decodes to (R304,
R800). When a busy core is due is the model's choice, no rule's: the host has no access to come, or its
next one is a WAIT, or no access is left to land before the completion (DESIGN CHOICE, log entries 2 and
14). That a word placed by `withFetchWord` is the one executed next, as after a CMD write, is the model's
too (DESIGN CHOICE, log entry 12). -/
def Obligations.StepRunsTheDecodedCommand : Prop :=
  (∀ (s : State) (w : Word) (i : Instr), s.commandToRun = some w → decode w = .ok i → step s = exec i s) ∧
  (∀ (s : State) (r : Running), s.running = some r →
    (s.inbox = [] ∨ (∃ rest, s.inbox = .wait :: rest) ∨ r.accessesLeft = 0) →
    s.commandToRun = some r.word) ∧
  (∀ (s : State) (i : Instr),
    step (s.withFetchWord 32 (encode i).toNat) = exec i (s.withFetchWord 32 (encode i).toNat))

/-! ### Outcomes (60_exceptions.md, 00_scope.md R17) -/

/-- Every step of the machine answers a next state: no command and no host access stops it (R800,
R825). -/
def Obligations.EveryStepAnswersANextState : Prop := ∀ s : State, ∃ t, step s = .next t

/-- Every command completes, from every state: BUSY 0, DONE 1, OVR as before, at most one of ERR and NA,
and CAP only with neither (R104, R800). -/
def Obligations.EveryCommandCompletes : Prop :=
  ∀ (i : Instr) (s : State), ∃ t, exec i s = .next t ∧ t.running = none ∧ t.status.done = true ∧
    t.status.ovr = s.status.ovr ∧ (t.status.err ≠ none → t.status.na = false) ∧
    (t.status.cap = true → i = .xstrenc ∧ t.status.err = none ∧ t.status.na = false)

/-- R800, R17: a failing and a declined command change no state other than STATUS. -/
def Obligations.FailedOrDeclinedChangesOnlyStatus : Prop :=
  ∀ (i : Instr) (s t : State), exec i s = .next t → ¬t.succeededNow →
    t = s.onlyStatus t.status.err t.status.na

/-- Which command can raise which error, and which can decline (R801, R804, R805, R806): E_BADCMD only the
three commands with a width, when the width is illegal; E_RANGE none of NOP, SYMRST, SYMSCAN
and the table reads; E_DECODE only FWDEC, TXTDEC, STRDEC and XSTRDEC; NA only encoders. -/
def Obligations.ErrorKindsByCommand : Prop :=
  ∀ (i : Instr) (s t : State), exec i s = .next t →
    (t.status.err = some .badCmd → i.wellFormed = false) ∧
    (t.status.err = some .range → i.isEncoder ∨ i.isDecoder ∨ (∃ v nb, i = .putbits v nb) ∨
      (∃ nb, i = .getbits nb) ∨ ∃ nb, i = .peekbits nb) ∧
    (t.status.err = some .decode → i = .fwdec ∨ i = .txtdec ∨ i = .strdec ∨ i = .xstrdec) ∧
    (t.status.na = true → i.isEncoder)

/-- R802 with R803: a command that has a block raises E_LEN, with no effect, when N is 0, above its MAXN, or
BASE + N is above 512, whatever else holds of the state; with a legal block it does not, and a command
that has no block never does. -/
def Obligations.IllegalBlockRaisesLen : Prop :=
  ∀ (i : Instr) (s : State),
    (∀ maxn, i.maxBlock = some maxn → ¬s.legalBlock maxn →
      exec i s = .next (s.onlyStatus (some .len) false)) ∧
    ∀ t, exec i s = .next t → t.status.err = some .len →
      ∃ maxn, i.maxBlock = some maxn ∧ ¬s.legalBlock maxn

/-! ### Which command writes what (10_state.md R101 to R118, 20_memory.md R201, R202) -/

/-- The "written by commands" column of R101: no command writes N, BASE, LIMIT or CTRL; DATA only GETBITS,
PEEKBITS and the table reads; BITLEN and CONSUMED only coders; the symbol table only SYMRST, SYMSCAN and
encoders; SVVAL only SVENC; TXTSEL only TXTENC; CUR not NOP, PEEKBITS or a scanner command. -/
def Obligations.RegistersChangeOnlyByTheirCommands : Prop :=
  ∀ (i : Instr) (s t : State), exec i s = .next t →
    t.n = s.n ∧ t.base = s.base ∧ t.limit = s.limit ∧ t.ie = s.ie ∧
    (t.data = s.data ∨ (∃ nb, i = .getbits nb) ∨ (∃ nb, i = .peekbits nb) ∨ (∃ v, i = .rdrank v) ∨
      (∃ r, i = .rduniq r) ∨ ∃ v, i = .rdocc v) ∧
    (t.bitlen = s.bitlen ∧ t.consumed = s.consumed ∨ i.isEncoder ∨ i.isDecoder) ∧
    (t.sym = s.sym ∨ i.isEncoder ∨ i = .symrst ∨ ∃ lim, i = .symscan lim) ∧
    (t.svval = s.svval ∨ i = .svenc) ∧
    (t.txtsel = s.txtsel ∨ ∃ ad, i = .txtenc ad) ∧
    (t.cur = s.cur ∨ i.isEncoder ∨ i.isDecoder ∨ (∃ v nb, i = .putbits v nb) ∨ ∃ nb, i = .getbits nb)

/-- R201, R202: BLK changes only in a decoder, and only in BLK[BASE .. BASE+N-1]; STR changes only in an
encoder or PUTBITS, and only in the stream bits written from CUR on and the bits cleared behind them. -/
def Obligations.MemoriesChangeOnlyWhereWritten : Prop :=
  ∀ (i : Instr) (s t : State), exec i s = .next t →
    (t.blk = s.blk ∨ i.isDecoder ∧
      ∀ a, ¬(s.base.toNat ≤ a ∧ a < s.base.toNat + s.n.toNat) → t.blkByte a = s.blkByte a) ∧
    (t.str = s.str ∨
      i.isEncoder ∧ WritesOnly s.str t.str s.cur.toNat t.bitlen.toNat ∨
      ∃ v nb, i = .putbits v nb ∧ WritesOnly s.str t.str s.cur.toNat nb.toNat)

/-- R201, the reading half: a command that is no decoder depends on BLK only through
BLK[BASE .. BASE+N-1]; with any other BLK that agrees there it does the same and leaves that BLK. -/
def Obligations.CommandsReadOnlyTheirBlock : Prop :=
  ∀ (i : Instr) (s t : State) (m : Memory), ¬i.isDecoder →
    (∀ a, s.base.toNat ≤ a → a < s.base.toNat + s.n.toNat → a < 512 →
      m.read Config.powerOnBlk a = s.blkByte a) →
    exec i s = .next t → exec i { s with blk := m } = .next { t with blk := m }

/-- R409: after a successful coder command CUR is CUR at the start plus BITLEN. -/
def Obligations.CoderAdvancesCursorByBitlen : Prop :=
  ∀ (i : Instr) (s t : State), i.isEncoder ∨ i.isDecoder → exec i s = .next t → t.succeededNow →
    t.cur.toNat = s.cur.toNat + t.bitlen.toNat

/-- R461: a decoder neither reads nor writes the symbol table. -/
def Obligations.DecodersIgnoreTheSymbolTable : Prop :=
  ∀ (i : Instr) (s t : State) (x : SymTab), i.isDecoder → exec i s = .next t →
    t.sym = s.sym ∧ exec i { s with sym := x } = .next { t with sym := x }

/-! ### Bit cursor (40_bit_cursor.md) -/

/-- R400: NOP has no effect besides STATUS. -/
def Obligations.NopChangesOnlyStatus : Prop :=
  ∀ s : State, exec .nop s = .next (s.onlyStatus none false)

/-- R407 with R402: PUTBITS writes VAL's low n bits from CUR on and moves CUR past them; the rest of each
byte it enters at bit 0 is cleared; every other stream bit and every other register is unchanged. -/
def Obligations.PutbitsAppendsTheField : Prop :=
  ∀ (s : State) (val : BitVec 9) (nb : BitVec 4), 1 ≤ nb.toNat → nb.toNat ≤ 9 →
    s.cur.toNat + nb.toNat ≤ 8192 →
    ∃ m, exec (.putbits val nb) s =
        .next (State.succeeded { s with str := m, cur := s.cur + nb.setWidth 14 } false) ∧
      (∀ k < nb.toNat, strBit m (s.cur.toNat + k) = val.getLsbD k) ∧
      WritesOnly s.str m s.cur.toNat nb.toNat

/-- R405, R408 with R404: GETBITS and PEEKBITS put the n bits from CUR on in DATA, bit k of DATA being
stream bit CUR + k and the bits from n on 0; GETBITS moves CUR past the field, PEEKBITS does not; nothing
else changes. -/
def Obligations.GetbitsAndPeekbitsReadTheField : Prop :=
  ∀ (s : State) (nb : BitVec 4), 1 ≤ nb.toNat → nb.toNat ≤ 9 → s.cur.toNat + nb.toNat ≤ 8192 →
    ∃ d : BitVec 16, (∀ k, d.getLsbD k = (decide (k < nb.toNat) && strBit s.str (s.cur.toNat + k))) ∧
      exec (.getbits nb) s =
        .next (State.succeeded { s with data := d, cur := s.cur + nb.setWidth 14 } false) ∧
      exec (.peekbits nb) s = .next (State.succeeded { s with data := d } false)

/-- R801 (c), R804 (a), R403: PUTBITS, GETBITS and PEEKBITS raise E_BADCMD for a width of 0 or 10..15,
whatever the cursor, and E_RANGE for a legal width that passes bit 8192, with no effect. -/
def Obligations.CursorCommandErrors : Prop :=
  ∀ (s : State) (val : BitVec 9) (nb : BitVec 4),
    (nb.toNat = 0 ∨ 10 ≤ nb.toNat →
      exec (.putbits val nb) s = .next (s.onlyStatus (some .badCmd) false) ∧
      exec (.getbits nb) s = .next (s.onlyStatus (some .badCmd) false) ∧
      exec (.peekbits nb) s = .next (s.onlyStatus (some .badCmd) false)) ∧
    (1 ≤ nb.toNat ∧ nb.toNat ≤ 9 ∧ 8192 < s.cur.toNat + nb.toNat →
      exec (.putbits val nb) s = .next (s.onlyStatus (some .range) false) ∧
      exec (.getbits nb) s = .next (s.onlyStatus (some .range) false) ∧
      exec (.peekbits nb) s = .next (s.onlyStatus (some .range) false))

/-! ### Symbol-table scanner (41_symbol_table.md) -/

/-- R450: SYMRST clears every array entry and counter, whatever N and BASE are, and nothing else. -/
def Obligations.SymrstClearsTheTable : Prop :=
  ∀ s : State, ∃ t, exec .symrst s = .next (State.succeeded { s with sym := t } false) ∧
    (∀ v, t.seenAt v = false ∧ t.rankAt v = 0#8 ∧ t.occAt v = 0#10 ∧ t.uniqAt v = 0#8) ∧
    t.u = 0#9 ∧ t.scanpos = 0#10 ∧ t.textcnt = 0#10 ∧ t.oracc = 0#8

/-- R452 with R451: SYMSCAN scans the block bytes SCANPOS..END-1, END being N for LIM = 0 and else
min(LIM, N), and moves SCANPOS to max(SCANPOS, END). From a table that meets R121: every scanned byte is
counted, the values met are seen, the values seen before keep their ranks, and TEXTCNT and ORACC
accumulate. Nothing but the table changes. -/
def Obligations.SymscanAccumulates : Prop :=
  ∀ (s : State) (lim : BitVec 10) (stop : Nat) (x : List Byte), s.legalBlock 512 →
    stop = (if lim = 0#10 then s.n.toNat else min lim.toNat s.n.toNat) →
    x = (List.range (stop - s.sym.scanpos.toNat)).map
      (fun k => s.blkByte (s.base.toNat + s.sym.scanpos.toNat + k)) →
    ∃ t, exec (.symscan lim) s = .next (State.succeeded { s with sym := t } false) ∧
      t.scanpos.toNat = max s.sym.scanpos.toNat stop ∧
      (s.sym.Consistent →
        t.Consistent ∧
        (∀ v, (t.occAt v).toNat = (s.sym.occAt v).toNat + x.count v) ∧
        (∀ v, t.seenAt v = true ↔ s.sym.seenAt v = true ∨ v ∈ x) ∧
        (∀ v, s.sym.seenAt v = true → t.rankAt v = s.sym.rankAt v) ∧
        t.textcnt.toNat = s.sym.textcnt.toNat + x.countP (fun v => tableT0.contains v) ∧
        t.oracc = x.foldl (fun a v => a ||| v) s.sym.oracc)

/-- R114, R452: scanning is resumable. A SYMSCAN with any limit followed by SYMSCAN 0 leaves the table
that one SYMSCAN 0 leaves; after SYMRST that is the first-occurrence ranking of the block. -/
def Obligations.SymscanIsResumable : Prop :=
  ∀ (s : State) (lim : BitVec 10), s.legalBlock 512 →
    ∃ t u v, exec (.symscan lim) s = .next t ∧ exec (.symscan 0#10) t = .next u ∧
      exec (.symscan 0#10) s = .next v ∧ u.sym = v.sym ∧ u = v ∧
      (s.sym = SymTab.zero → RanksBlock u.sym s.block)

/-- R455, R456, R457: RDRANK v reads 0x100 OR the rank of a seen value and 0 of another; RDUNIQ r reads
0x100 OR the value of a rank below U and 0 of another; RDOCC v reads the count. Only DATA changes. -/
def Obligations.TableReadsReturnTheEntry : Prop :=
  ∀ (s : State) (x : BitVec 8),
    exec (.rdrank x) s = .next (State.succeeded { s with data :=
      (if s.sym.seenAt x = true then 0x100#16 ||| (s.sym.rankAt x).setWidth 16 else 0#16) } false) ∧
    exec (.rduniq x) s = .next (State.succeeded { s with data :=
      (if x.toNat < s.sym.u.toNat then 0x100#16 ||| (s.sym.uniqAt x).setWidth 16 else 0#16) } false) ∧
    exec (.rdocc x) s = .next (State.succeeded { s with data := (s.sym.occAt x).setWidth 16 } false)

/-! ### Encoders: outcomes -/

/-- R806 and R810: FWENC declines above 16 uniques, P7ENC when a byte is 0x80 or more, STRENC above 32
uniques, whatever CUR and LIMIT are: the content decline comes before E_RANGE and the LIMIT decline. -/
def Obligations.ContentDeclinesComeFirst : Prop :=
  ∀ s : State, s.legalBlock 64 →
    (16 < distinct s.block → exec .fwenc s = .next (s.onlyStatus none true)) ∧
    ((∃ v ∈ s.block, 128 ≤ v.toNat) → exec .p7enc s = .next (s.onlyStatus none true)) ∧
    (32 < distinct s.block → exec .strenc s = .next (s.onlyStatus none true))

/-- R109, R806, R804 (b), R810 (4 before 5), R665: what LIMIT and CUR decide. Let an encoder succeed without
a limit, with an output of BITLEN bits. Under any LIMIT l and at any cursor c it declines when l is neither
0 nor at least BITLEN; else it raises E_RANGE when the output would pass bit 8192; else it succeeds with
the same bits from c on and the same results. A decline and an error have no effect. -/
def Obligations.LimitThenRangeDecideAnEncodersOutcome : Prop :=
  ∀ (i : Instr) (s t : State) (c : BitVec 14) (l : BitVec 13), i.isEncoder → s.limit = 0#13 →
    exec i s = .next t → t.succeededNow →
    (l ≠ 0#13 → l.toNat < t.bitlen.toNat →
      exec i { s with cur := c, limit := l } =
        .next (State.onlyStatus { s with cur := c, limit := l } none true)) ∧
    (l = 0#13 ∨ t.bitlen.toNat ≤ l.toNat →
      (8192 < c.toNat + t.bitlen.toNat →
        exec i { s with cur := c, limit := l } =
          .next (State.onlyStatus { s with cur := c, limit := l } (some .range) false)) ∧
      (c.toNat + t.bitlen.toNat ≤ 8192 →
        ∃ m, exec i { s with cur := c, limit := l } =
            .next { t with str := m, cur := c + t.bitlen, limit := l } ∧
          WritesOnly s.str m c.toNat t.bitlen.toNat ∧
          ∀ k < t.bitlen.toNat, strBit m (c.toNat + k) = strBit t.str (s.cur.toNat + k)))

/-- R901, R100: an encoder's output depends neither on what STR held nor on the symbol table it found. -/
def Obligations.EncoderIgnoresOldStreamAndTable : Prop :=
  ∀ (i : Instr) (s t : State) (m : Memory) (x : SymTab), i.isEncoder → exec i s = .next t →
    t.succeededNow →
    ∃ m', exec i { s with str := m, sym := x } = .next { t with str := m' } ∧
      ∀ p, s.cur.toNat ≤ p → p < s.cur.toNat + t.bitlen.toNat → strBit m' p = strBit t.str p

/-- R205: every encoder's output is at most 5640 bits, so an encoder started at CUR ≤ 2552 never raises
E_RANGE. -/
def Obligations.EncoderOutputFits5640Bits : Prop :=
  ∀ (i : Instr) (s t : State), i.isEncoder → exec i s = .next t →
    (t.succeededNow → t.bitlen.toNat ≤ 5640) ∧ (s.cur.toNat ≤ 2552 → t.status.err ≠ some .range)

/-! ### Fixed-width coder (42_fixed_width.md) -/

/-- R503 with R500 and R504: FWENC on a block of D ≤ 16 distinct values writes UM1, the uniques in rank
order and the rank of every byte, 4 + 8·D + FWWidth(D)·N bits, and commits the ranking; nothing else
changes. -/
def Obligations.FwencWritesItsStream : Prop :=
  ∀ (s : State) (d w total : Nat), s.legalBlock 64 → d = distinct s.block → d ≤ 16 → w = fwWidth d →
    total = 4 + 8 * d + w * s.n.toNat → (s.limit = 0#13 ∨ total ≤ s.limit.toNat) →
    s.cur.toNat + total ≤ 8192 →
    ∃ m t, exec .fwenc s = .next (State.succeeded { s with
        str := m, cur := BitVec.ofNat 14 (s.cur.toNat + total), bitlen := BitVec.ofNat 14 total,
        consumed := s.n, sym := t } false) ∧
      RanksBlock t s.block ∧ WritesOnly s.str m s.cur.toNat total ∧
      readField m s.cur.toNat 4 = d - 1 ∧
      (∀ r < d, readField m (s.cur.toNat + 4 + 8 * r) 8 = (t.uniqAt (BitVec.ofNat 8 r)).toNat) ∧
      ∀ i (h : i < s.block.length),
        readField m (s.cur.toNat + 4 + 8 * d + w * i) w = (t.rankAt s.block[i]).toNat

/-- R506: FWDEC on a stream of U header values and N ranks below U writes the named values to the block
and moves CUR past the stream; a rank not below U after such ranks is E_DECODE with no effect. E_RANGE with
no effect comes where the next field, in stream order, would pass bit 8192 (R804 (c), R810): UM1, a header
value, or a rank after ranks below U. -/
def Obligations.FwdecReadsItsStream : Prop :=
  ∀ s : State, s.legalBlock 64 →
    (∀ (vals : List Byte) (ranks : List Nat), 1 ≤ vals.length → vals.length ≤ 16 →
      (∀ r ∈ ranks, r < vals.length) →
      (∀ total, ranks.length = s.n.toNat →
        total = 4 + 8 * vals.length + fwWidth vals.length * s.n.toNat → s.cur.toNat + total ≤ 8192 →
        StreamHolds s.str s.cur.toNat
          (⟨vals.length - 1, 4⟩ :: byteFields 8 vals ++ ranks.map fun r => ⟨r, fwWidth vals.length⟩) →
        ∃ m, exec .fwdec s = .next (State.succeeded { s with
            blk := m, cur := BitVec.ofNat 14 (s.cur.toNat + total), bitlen := BitVec.ofNat 14 total,
            consumed := s.n } false) ∧
          WritesBlock s.blk m s.base.toNat (ranks.map fun r => vals.getD r 0#8)) ∧
      (∀ bad, ranks.length < s.n.toNat → vals.length ≤ bad →
        s.cur.toNat + 4 + 8 * vals.length + fwWidth vals.length * (ranks.length + 1) ≤ 8192 →
        StreamHolds s.str s.cur.toNat
          (⟨vals.length - 1, 4⟩ :: byteFields 8 vals
            ++ (ranks ++ [bad]).map fun r => ⟨r, fwWidth vals.length⟩) →
        exec .fwdec s = .next (s.onlyStatus (some .decode) false)) ∧
      (ranks.length < s.n.toNat →
        s.RunsOutAfter
          (⟨vals.length - 1, 4⟩ :: byteFields 8 vals ++ ranks.map fun r => ⟨r, fwWidth vals.length⟩)
          (fwWidth vals.length) →
        exec .fwdec s = .next (s.onlyStatus (some .range) false))) ∧
    (s.RunsOutAfter [] 4 → exec .fwdec s = .next (s.onlyStatus (some .range) false)) ∧
    ∀ (u : Nat) (vals : List Byte), vals.length < u →
      s.RunsOutAfter (⟨u - 1, 4⟩ :: byteFields 8 vals) 8 →
      exec .fwdec s = .next (s.onlyStatus (some .range) false)

/-! ### Single-value coder (43_single_value.md) -/

/-- R553 with R550 and R551: SVENC takes the value V with the largest count, the earliest of several,
writes V and then a flag for every byte and the byte after a flag of 1, and sets SVVAL to V. -/
def Obligations.SvencWritesItsStream : Prop :=
  ∀ (s : State) (v : Byte) (total : Nat), s.legalBlock 64 → v ∈ s.block →
    (∀ w, s.block.count w ≤ s.block.count v) →
    (∀ w ∈ s.block, s.block.count w = s.block.count v → s.block.idxOf v ≤ s.block.idxOf w) →
    total = 8 + s.n.toNat + 8 * (s.n.toNat - s.block.count v) →
    (s.limit = 0#13 ∨ total ≤ s.limit.toNat) → s.cur.toNat + total ≤ 8192 →
    ∃ m t, exec .svenc s = .next (State.succeeded { s with
        str := m, cur := BitVec.ofNat 14 (s.cur.toNat + total), bitlen := BitVec.ofNat 14 total,
        consumed := s.n, svval := v, sym := t } false) ∧
      RanksBlock t s.block ∧ WritesOnly s.str m s.cur.toNat total ∧
      StreamHolds m s.cur.toNat
        (⟨v.toNat, 8⟩ :: s.block.flatMap fun x => if x = v then [⟨0, 1⟩] else [⟨1, 1⟩, ⟨x.toNat, 8⟩])

/-- R554: when N is 64 and some value fills at least 48 positions, a successful SVENC writes at most 200
bits. -/
def Obligations.SvencDominanceIsSmall : Prop :=
  ∀ (s t : State), s.n = 64#10 → (∃ v, 48 ≤ s.block.count v) → exec .svenc s = .next t →
    t.succeededNow → t.bitlen.toNat ≤ 200 ∧ t.bitlen.toNat < 8 * 64

/-- R555: SVDEC reads V and then, for every byte, a flag and after a flag of 1 a literal (a literal equal
to V too); every such stream that ends by bit 8192 decodes. Where the next field, in stream order, would
pass bit 8192, V, a flag or a literal, it raises E_RANGE with no effect (R804 (c)). -/
def Obligations.SvdecReadsItsStream : Prop :=
  ∀ s : State, s.legalBlock 64 →
    (s.RunsOutAfter [] 8 → exec .svdec s = .next (s.onlyStatus (some .range) false)) ∧
    ∀ (v : Byte) (codes : List (Option Byte)) (fs : List Field),
      fs = ⟨v.toNat, 8⟩ :: codes.flatMap (fun c => match c with
        | none => [⟨0, 1⟩]
        | some x => [⟨1, 1⟩, ⟨x.toNat, 8⟩]) →
      (codes.length = s.n.toNat → s.cur.toNat + fieldsWidth fs ≤ 8192 →
        StreamHolds s.str s.cur.toNat fs →
        ∃ m, exec .svdec s = .next (State.succeeded { s with
            blk := m, cur := BitVec.ofNat 14 (s.cur.toNat + fieldsWidth fs),
            bitlen := BitVec.ofNat 14 (fieldsWidth fs), consumed := s.n } false) ∧
          WritesBlock s.blk m s.base.toNat (codes.map fun c => c.getD v)) ∧
      (codes.length < s.n.toNat → s.RunsOutAfter fs 1 ∨ s.RunsOutAfter (fs ++ [⟨1, 1⟩]) 8 →
        exec .svdec s = .next (s.onlyStatus (some .range) false))

/-! ### 7-bit packer (44_seven_bit.md) -/

/-- R602 with R600: P7ENC on a block of bytes below 0x80 writes the low seven bits of each, 7·N bits. -/
def Obligations.P7encPacksSevenBits : Prop :=
  ∀ (s : State), s.legalBlock 64 → (∀ v ∈ s.block, v.toNat < 128) →
    (s.limit = 0#13 ∨ 7 * s.n.toNat ≤ s.limit.toNat) → s.cur.toNat + 7 * s.n.toNat ≤ 8192 →
    ∃ m t, exec .p7enc s = .next (State.succeeded { s with
        str := m, cur := BitVec.ofNat 14 (s.cur.toNat + 7 * s.n.toNat),
        bitlen := BitVec.ofNat 14 (7 * s.n.toNat), consumed := s.n, sym := t } false) ∧
      RanksBlock t s.block ∧ WritesOnly s.str m s.cur.toNat (7 * s.n.toNat) ∧
      ∀ i (h : i < s.block.length), readField m (s.cur.toNat + 7 * i) 7 = s.block[i].toNat

/-- R605: P7DEC writes the N 7-bit fields at CUR to the block, bit 7 of each byte 0, whatever they are;
where they would pass bit 8192 it raises E_RANGE with no effect. -/
def Obligations.P7decUnpacksSevenBits : Prop :=
  ∀ (s : State), s.legalBlock 64 →
    (s.cur.toNat + 7 * s.n.toNat ≤ 8192 →
      ∃ m, exec .p7dec s = .next (State.succeeded { s with
          blk := m, cur := BitVec.ofNat 14 (s.cur.toNat + 7 * s.n.toNat),
          bitlen := BitVec.ofNat 14 (7 * s.n.toNat), consumed := s.n } false) ∧
        WritesBlock s.blk m s.base.toNat ((List.range s.n.toNat).map fun i =>
          BitVec.ofNat 8 (readField s.str (s.cur.toNat + 7 * i) 7))) ∧
    (8192 < s.cur.toNat + 7 * s.n.toNat → exec .p7dec s = .next (s.onlyStatus (some .range) false))

/-! ### Text coder (45_text.md) -/

/-- R664 with R660 and R661: TXTENC selects the table by the counts of the signature characters (always
table 0 without AD), sets L7 when every byte is below 0x80, writes SEL, L7 and the code of every byte, and
sets TXTSEL. -/
def Obligations.TxtencWritesItsStream : Prop :=
  ∀ (s : State) (ad : Bool) (cm ck th sel : Nat) (l7 : Bool) (table : List Byte) (fs : List Field),
    s.legalBlock 512 →
    cm = s.block.countP (fun v => markupSet.contains v) →
    ck = s.block.countP (fun v => codeSet.contains v) →
    th = (if s.n.toNat < 32 then 2 else 3) →
    sel = (if ad = false then 0 else if th ≤ cm ∧ ck ≤ cm then 1 else if th ≤ ck then 2 else 0) →
    textTable sel = some table →
    (l7 = true ↔ ∀ v ∈ s.block, v.toNat < 128) →
    fs = ⟨sel, 2⟩ :: ⟨l7.toNat, 1⟩ :: s.block.flatMap (fun v => match rankIn table v with
      | some r => [rankCode r]
      | none => [⟨3, 3⟩, ⟨v.toNat, if l7 then 7 else 8⟩]) →
    (s.limit = 0#13 ∨ fieldsWidth fs ≤ s.limit.toNat) → s.cur.toNat + fieldsWidth fs ≤ 8192 →
    ∃ m t, exec (.txtenc ad) s = .next (State.succeeded { s with
        str := m, cur := BitVec.ofNat 14 (s.cur.toNat + fieldsWidth fs),
        bitlen := BitVec.ofNat 14 (fieldsWidth fs), consumed := s.n, txtsel := BitVec.ofNat 2 sel,
        sym := t } false) ∧
      RanksBlock t s.block ∧ WritesOnly s.str m s.cur.toNat (fieldsWidth fs) ∧
      StreamHolds m s.cur.toNat fs

/-- R667 with R662: TXTDEC on a stream of a selector 0..2, L7 and N codes (each a rank of the table or an
escaped literal, of a table character too) writes the named bytes; SEL = 3, and a reserved 7-bit code
after such codes, are E_DECODE with no effect. Where the
next field, in stream order, would pass bit 8192, E_RANGE with no effect (R804 (c), R810): SEL, L7, a group,
an escaped literal or the extra bits of a group. -/
def Obligations.TxtdecReadsItsStream : Prop :=
  ∀ (s : State), s.legalBlock 512 →
    (∀ (sel : Nat) (l7 : Bool) (table : List Byte) (codes : List (Nat ⊕ Byte)) (hd fs : List Field),
      textTable sel = some table →
      (∀ r, Sum.inl r ∈ codes → r < 23) →
      (∀ v : Byte, Sum.inr v ∈ codes → v.toNat < 2 ^ (if l7 then 7 else 8)) →
      hd = [⟨sel, 2⟩, ⟨l7.toNat, 1⟩] →
      fs = codes.flatMap (fun c => match c with
        | .inl r => [rankCode r]
        | .inr v => [⟨3, 3⟩, ⟨v.toNat, if l7 then 7 else 8⟩]) →
      (codes.length = s.n.toNat → s.cur.toNat + fieldsWidth (hd ++ fs) ≤ 8192 →
        StreamHolds s.str s.cur.toNat (hd ++ fs) →
        ∃ m, exec .txtdec s = .next (State.succeeded { s with
            blk := m, cur := BitVec.ofNat 14 (s.cur.toNat + fieldsWidth (hd ++ fs)),
            bitlen := BitVec.ofNat 14 (fieldsWidth (hd ++ fs)), consumed := s.n } false) ∧
          WritesBlock s.blk m s.base.toNat (codes.map fun c => match c with
            | .inl r => table.getD r 0#8
            | .inr v => v)) ∧
      (∀ e, 12 ≤ e → e ≤ 15 → codes.length < s.n.toNat →
        s.cur.toNat + fieldsWidth (hd ++ fs) + 7 ≤ 8192 →
        StreamHolds s.str s.cur.toNat (hd ++ fs ++ [⟨7 + 8 * e, 7⟩]) →
        exec .txtdec s = .next (s.onlyStatus (some .decode) false)) ∧
      (∀ part w, codes.length < s.n.toNat →
        (part = [] ∧ w = 3 ∨ part = [⟨3, 3⟩] ∧ w = (if l7 then 7 else 8) ∨
          part = [⟨4, 3⟩] ∧ w = 1 ∨ part = [⟨5, 3⟩] ∧ w = 1 ∨ part = [⟨6, 3⟩] ∧ w = 2 ∨
          part = [⟨7, 3⟩] ∧ w = 4) →
        s.RunsOutAfter (hd ++ fs ++ part) w →
        exec .txtdec s = .next (s.onlyStatus (some .range) false))) ∧
    (s.RunsOutAfter [] 2 → exec .txtdec s = .next (s.onlyStatus (some .range) false)) ∧
    (∀ sel, sel < 3 → s.RunsOutAfter [⟨sel, 2⟩] 1 →
      exec .txtdec s = .next (s.onlyStatus (some .range) false)) ∧
    (s.cur.toNat + 2 ≤ 8192 → readField s.str s.cur.toNat 2 = 3 →
      exec .txtdec s = .next (s.onlyStatus (some .decode) false))

/-! ### String coders (46_string.md, 47_xstring.md) -/

/-- R705: over any block and any Lmax ≥ 2, exactly one token list follows the match policy. -/
def Obligations.MatchPolicyGivesOneTokenList : Prop :=
  ∀ (rank : Byte → Nat) (lmax : Nat) (x : List Byte), 2 ≤ lmax →
    ∃ toks, FollowsPolicy rank lmax x 0 toks ∧ ∀ toks', FollowsPolicy rank lmax x 0 toks' → toks' = toks

/-- R710 with R700 to R703, R705 and R709: STRENC on a block of D ≤ 32 distinct values writes the header
(D - 1 in 5 bits, the uniques in rank order) and the tokens of the match policy with Lmax = 9, ranks by
first occurrence. -/
def Obligations.StrencWritesItsStream : Prop :=
  ∀ (s : State) (d total : Nat) (toks : List Token), s.legalBlock 64 → d = distinct s.block → d ≤ 32 →
    FollowsPolicy (firstRank s.block) 9 s.block 0 toks →
    total = 5 + 8 * d + tokensBits 3 0 0 toks → (s.limit = 0#13 ∨ total ≤ s.limit.toNat) →
    s.cur.toNat + total ≤ 8192 →
    ∃ m t, exec .strenc s = .next (State.succeeded { s with
        str := m, cur := BitVec.ofNat 14 (s.cur.toNat + total), bitlen := BitVec.ofNat 14 total,
        consumed := s.n, sym := t } false) ∧
      RanksBlock t s.block ∧ WritesOnly s.str m s.cur.toNat total ∧
      StreamHolds m s.cur.toNat
        (⟨d - 1, 5⟩ :: byteFields 8 (t.uniques d) ++ tokensFields 3 0 0 toks)

/-- R755 with R751, R752 and R753: XSTRENC covers the C bytes before the 129th unique (all N when there is
none), writes UH - 1, the P7 flag, the first UH uniques in 7 or 8 bits and the tokens of X[0..C-1] with
Lmax = 17, sets CONSUMED to C, and CAP exactly when it stopped early. -/
def Obligations.XstrencWritesItsStream : Prop :=
  ∀ (s : State) (d c uh w total : Nat) (toks : List Token), s.legalBlock 512 →
    d = distinct s.block → uh = min d 128 →
    (d ≤ 128 ∧ c = s.n.toNat ∨
      128 < d ∧ c < s.n.toNat ∧ distinct (s.block.take c) = 128 ∧
        byteAt s.block c ∉ s.block.take c) →
    w = (if ∀ v ∈ s.block.take c, v.toNat < 128 then 7 else 8) →
    FollowsPolicy (firstRank s.block) 17 (s.block.take c) 0 toks →
    total = 8 + w * uh + tokensBits 4 0 0 toks → (s.limit = 0#13 ∨ total ≤ s.limit.toNat) →
    s.cur.toNat + total ≤ 8192 →
    ∃ m t, exec .xstrenc s = .next (State.succeeded { s with
        str := m, cur := BitVec.ofNat 14 (s.cur.toNat + total), bitlen := BitVec.ofNat 14 total,
        consumed := BitVec.ofNat 10 c, sym := t } (decide (128 < d))) ∧
      RanksBlock t s.block ∧ WritesOnly s.str m s.cur.toNat total ∧
      StreamHolds m s.cur.toNat
        (⟨uh - 1, 7⟩ :: ⟨8 - w, 1⟩ :: byteFields w (t.uniques uh) ++ tokensFields 4 0 0 toks)

/-- R713 and R758: STRDEC and XSTRDEC on a stream of header values and valid tokens write the bytes the
tokens stand for by R700's effect column, byte by byte: VAL[u], VAL[IDX], and out[i+k] = out[P+k]. -/
def Obligations.StringDecodersReadTheirStreams : Prop :=
  ∀ (s : State) (vals : List Byte) (toks : List Token) (fs : List Field), 1 ≤ vals.length →
    (s.legalBlock 64 → vals.length ≤ 32 → ValidTokens vals.length s.n.toNat 3 0 0 toks →
      fs = ⟨vals.length - 1, 5⟩ :: byteFields 8 vals ++ tokensFields 3 0 0 toks →
      s.cur.toNat + fieldsWidth fs ≤ 8192 → StreamHolds s.str s.cur.toNat fs →
      ∃ m out, exec .strdec s = .next (State.succeeded { s with
          blk := m, cur := BitVec.ofNat 14 (s.cur.toNat + fieldsWidth fs),
          bitlen := BitVec.ofNat 14 (fieldsWidth fs), consumed := s.n } false) ∧
        out.length = s.n.toNat ∧ TokensProduce vals out 0 0 toks ∧ WritesBlock s.blk m s.base.toNat out) ∧
    (∀ p7 : Bool, s.legalBlock 512 → vals.length ≤ 128 → (p7 = true → ∀ v ∈ vals, v.toNat < 128) →
      ValidTokens vals.length s.n.toNat 4 0 0 toks →
      fs = ⟨vals.length - 1, 7⟩ :: ⟨p7.toNat, 1⟩ :: byteFields (if p7 then 7 else 8) vals
        ++ tokensFields 4 0 0 toks →
      s.cur.toNat + fieldsWidth fs ≤ 8192 → StreamHolds s.str s.cur.toNat fs →
      ∃ m out, exec .xstrdec s = .next (State.succeeded { s with
          blk := m, cur := BitVec.ofNat 14 (s.cur.toNat + fieldsWidth fs),
          bitlen := BitVec.ofNat 14 (fieldsWidth fs), consumed := s.n } false) ∧
        out.length = s.n.toNat ∧ TokensProduce vals out 0 0 toks ∧ WritesBlock s.blk m s.base.toNat out)

/-- R708: STRDEC and XSTRDEC raise E_DECODE, with no effect, at the first token that fails its check, and
at the end of the block when a header value was never used. Where the next field, in stream order, would
pass bit 8192, they raise E_RANGE with no effect (R804 (c), R810): a header field, or, after tokens that pass
their checks, a leading bit, IDX, LM2 or P of the next token. -/
def Obligations.StringDecodersRejectBadTokens : Prop :=
  (∀ (s : State) (vals : List Byte) (toks : List Token) (fs : List Field), 1 ≤ vals.length →
    (s.legalBlock 64 → vals.length ≤ 32 → RejectedTokens vals.length s.n.toNat 3 0 0 toks →
      fs = ⟨vals.length - 1, 5⟩ :: byteFields 8 vals ++ tokensFields 3 0 0 toks →
      s.cur.toNat + fieldsWidth fs ≤ 8192 → StreamHolds s.str s.cur.toNat fs →
      exec .strdec s = .next (s.onlyStatus (some .decode) false)) ∧
    (∀ p7 : Bool, s.legalBlock 512 → vals.length ≤ 128 →
      RejectedTokens vals.length s.n.toNat 4 0 0 toks →
      fs = ⟨vals.length - 1, 7⟩ :: ⟨p7.toNat, 1⟩ :: byteFields (if p7 then 7 else 8) vals
        ++ tokensFields 4 0 0 toks →
      s.cur.toNat + fieldsWidth fs ≤ 8192 → StreamHolds s.str s.cur.toNat fs →
      exec .xstrdec s = .next (s.onlyStatus (some .decode) false))) ∧
  (∀ s : State, s.legalBlock 64 →
    (s.RunsOutAfter [] 5 → exec .strdec s = .next (s.onlyStatus (some .range) false)) ∧
    (∀ (u : Nat) (vals : List Byte), vals.length < u → s.RunsOutAfter (⟨u - 1, 5⟩ :: byteFields 8 vals) 8 →
      exec .strdec s = .next (s.onlyStatus (some .range) false)) ∧
    ∀ (vals : List Byte) (toks : List Token) (part : List Field) (w : Nat), 1 ≤ vals.length →
      OpenTokens vals.length s.n.toNat 3 part w 0 0 toks →
      s.RunsOutAfter (⟨vals.length - 1, 5⟩ :: byteFields 8 vals ++ tokensFields 3 0 0 toks ++ part) w →
      exec .strdec s = .next (s.onlyStatus (some .range) false)) ∧
  ∀ s : State, s.legalBlock 512 →
    (s.RunsOutAfter [] 7 → exec .xstrdec s = .next (s.onlyStatus (some .range) false)) ∧
    (∀ u, s.RunsOutAfter [⟨u - 1, 7⟩] 1 → exec .xstrdec s = .next (s.onlyStatus (some .range) false)) ∧
    (∀ (u : Nat) (p7 : Bool) (vals : List Byte), vals.length < u →
      s.RunsOutAfter (⟨u - 1, 7⟩ :: ⟨p7.toNat, 1⟩ :: byteFields (if p7 then 7 else 8) vals)
        (if p7 then 7 else 8) →
      exec .xstrdec s = .next (s.onlyStatus (some .range) false)) ∧
    ∀ (p7 : Bool) (vals : List Byte) (toks : List Token) (part : List Field) (w : Nat), 1 ≤ vals.length →
      OpenTokens vals.length s.n.toNat 4 part w 0 0 toks →
      s.RunsOutAfter
        (⟨vals.length - 1, 7⟩ :: ⟨p7.toNat, 1⟩ :: byteFields (if p7 then 7 else 8) vals
          ++ tokensFields 4 0 0 toks ++ part) w →
      exec .xstrdec s = .next (s.onlyStatus (some .range) false)

/-! ### Round trips -/

/-- R507: FWDEC at the cursor FWENC started from, with the same N and the stream bits unchanged, writes the
block back exactly and ends with CUR = c + BITLEN. (FWENC succeeding is the rule's U ≤ 16, with room and no
decline by LIMIT.) -/
def Obligations.FixedWidthRoundTrip : Prop := RoundTrips .fwenc .fwdec 64 fun s _ => s.n

/-- R557: SVDEC at the cursor SVENC started from, with the same N and the stream bits unchanged, restores
the block exactly. -/
def Obligations.SingleValueRoundTrip : Prop := RoundTrips .svenc .svdec 64 fun s _ => s.n

/-- R606: P7DEC at the cursor P7ENC started from, with the same N, restores the block. (P7ENC succeeding is
the rule's bytes below 0x80, with room and no decline by LIMIT.) -/
def Obligations.SevenBitRoundTrip : Prop := RoundTrips .p7enc .p7dec 64 fun s _ => s.n

/-- R669: TXTDEC at the cursor TXTENC started from, with the same N, restores the block, for either AD;
TXTDEC has no AD operand. -/
def Obligations.TextRoundTrip : Prop := ∀ ad, RoundTrips (.txtenc ad) .txtdec 512 fun s _ => s.n

/-- R715: STRDEC at the cursor STRENC started from, with the same N, restores the block and ends at the same
CUR. -/
def Obligations.BoundedStringRoundTrip : Prop := RoundTrips .strenc .strdec 64 fun s _ => s.n

/-- R759: XSTRDEC at the cursor XSTRENC started from, with N = the reported CONSUMED = C, restores
X[0..C-1], capped or not. -/
def Obligations.ExtendedStringRoundTrip : Prop :=
  RoundTrips .xstrenc .xstrdec 512 fun _ t => t.consumed

/-! ### Invariants (10_state.md R104, R121, R122) -/

/-- Every step keeps both memories in canonical form (the model's own, log entry 4) and inside their
addresses (R122, R203). -/
def Obligations.StepsKeepTheMemoriesCanonical : Prop :=
  ∀ s t : State, s.MemoriesWf → step s = .next t → t.MemoriesWf

/-- R121 (a) to (d): every step keeps the symbol table consistent. -/
def Obligations.StepsKeepTheSymbolTableConsistent : Prop :=
  ∀ s t : State, s.sym.Consistent → step s = .next t → t.sym.Consistent

/-- R104, R111, R112, R118: every step keeps STATUS and the result registers at legal values. -/
def Obligations.StepsKeepTheResultsLegal : Prop :=
  ∀ s t : State, s.ResultsLegal → step s = .next t → t.ResultsLegal

/-- R900, R126: the state after reset has every register of R101 at its reset value, the table cleared, no
command, IRQ 0, and meets the invariants. (That no host access is pending and no answer given are the
model's own fields, log entry 15.) -/
def Obligations.ResetStateIsTheSpecs : Prop :=
  State.reset.ie = false ∧ State.reset.status = Status.zero ∧ State.reset.statusWord = 0#32 ∧
  State.reset.ctrlWord = 0#32 ∧ State.reset.running = none ∧ State.reset.irq = false ∧
  State.reset.cur = 0#14 ∧ State.reset.n = 0#10 ∧ State.reset.base = 0#9 ∧ State.reset.limit = 0#13 ∧
  State.reset.data = 0#16 ∧ State.reset.bitlen = 0#14 ∧ State.reset.consumed = 0#10 ∧
  State.reset.svval = 0#8 ∧ State.reset.txtsel = 0#2 ∧
  (∀ v, State.reset.sym.seenAt v = false ∧ State.reset.sym.rankAt v = 0#8 ∧
    State.reset.sym.occAt v = 0#10 ∧ State.reset.sym.uniqAt v = 0#8) ∧
  State.reset.sym.u = 0#9 ∧ State.reset.sym.scanpos = 0#10 ∧ State.reset.sym.textcnt = 0#10 ∧
  State.reset.sym.oracc = 0#8 ∧
  State.reset.MemoriesWf ∧ State.reset.sym.Consistent ∧ State.reset.ResultsLegal

/-! ### The host port (20_memory.md, 60_exceptions.md, 70_reset_and_hazards.md) -/

/-- R101, R210, R220, R222, R223: a host read of an idle core returns the register of R101 at its offset,
the four bytes of BLK or STR with the lowest in bits 7:0, 0 at a reserved offset, or a bus error when the
offset is no multiple of 4; it changes nothing but the port's answer (log entry 8). -/
def Obligations.IdleReadsReturnTheMappedWord : Prop :=
  ∀ (s : State) (off : BitVec 14) (rest : List Access), s.running = none → s.inbox = .read off :: rest →
    ∃ r, step s = .next { s with inbox := rest, reply := r } ∧
      (off.toNat % 4 ≠ 0 → r = .busError) ∧
      (∀ w, (off, w) ∈ registerWords s → r = .data w) ∧
      (∀ k < 128, off.toNat = 0x1000 + 4 * k → ∃ w : Word, r = .data w ∧
        ∀ j < 4, w.extractLsb' (8 * j) 8 = s.blkByte (4 * k + j)) ∧
      (∀ k < 256, off.toNat = 0x2000 + 4 * k → ∃ w : Word, r = .data w ∧
        (∀ j < 4, w.extractLsb' (8 * j) 8 = s.strByte (4 * k + j)) ∧
        ∀ j < 32, w.getLsbD j = strBit s.str (32 * k + j)) ∧
      (off.toNat % 4 = 0 → (0x44 ≤ off.toNat ∧ off.toNat < 0x1000) ∨
        (0x1200 ≤ off.toNat ∧ off.toNat < 0x2000) ∨ 0x2400 ≤ off.toNat → r = .data 0#32)

/-- R104's layout of the word a read of STATUS returns. -/
def Obligations.StatusWordHasItsLayout : Prop :=
  ∀ s : State, s.statusWord.getLsbD 0 = s.running.isSome ∧ s.statusWord.getLsbD 1 = s.status.done ∧
    s.statusWord.extractLsb' 4 3 = (match s.status.err with
      | none => 0#3
      | some .badCmd => 1#3
      | some .len => 2#3
      | some .range => 3#3
      | some .decode => 4#3) ∧
    s.statusWord.getLsbD 8 = s.status.na ∧ s.statusWord.getLsbD 9 = s.status.cap ∧
    s.statusWord.getLsbD 10 = s.status.ovr ∧ s.statusWord.extractLsb' 2 2 = 0#2 ∧
    s.statusWord.getLsbD 7 = false ∧ s.statusWord.extractLsb' 11 21 = 0#21

/-- R102, R103, R104, R105, R210, R213, R222, R223, R800: what a full-width host write to an idle core does:
CUR, N, BASE and LIMIT store the word cut to their width; a BLK or STR word stores its four bytes; CMD
latches the word, sets BUSY and clears DONE, ERR, NA and CAP; STATUS clears DONE and OVR by ones; CTRL with
SRST 0 stores IE; read-only registers and reserved offsets keep everything; a misaligned or partial write
is a bus error and changes nothing. The port's answer, and the draw CMD makes for its duration (log entry
2), are the model's own fields. -/
def Obligations.IdleWritesStoreOrStart : Prop :=
  ∀ (s : State) (off : BitVec 14) (lanes : BitVec 4) (w : Word) (rest : List Access),
    s.running = none → s.inbox = .write off lanes w :: rest →
    (off.toNat % 4 ≠ 0 ∨ lanes ≠ 0xF#4 → step s = .next { s with inbox := rest, reply := .busError }) ∧
    (lanes = 0xF#4 →
      (off = 0x010#14 →
        step s = .next { s with inbox := rest, reply := .accepted, cur := w.setWidth 14 }) ∧
      (off = 0x014#14 → step s = .next { s with inbox := rest, reply := .accepted, n := w.setWidth 10 }) ∧
      (off = 0x018#14 →
        step s = .next { s with inbox := rest, reply := .accepted, base := w.setWidth 9 }) ∧
      (off = 0x01C#14 →
        step s = .next { s with inbox := rest, reply := .accepted, limit := w.setWidth 13 }) ∧
      (off = 0x00C#14 → ∃ left, step s = .next { s with
        inbox := rest, reply := .accepted, draws := s.draws + 1, running := some ⟨w, left⟩,
        status := ⟨false, none, false, false, s.status.ovr⟩ }) ∧
      (off = 0x008#14 → step s = .next { s with
        inbox := rest, reply := .accepted, status := { s.status with
          done := s.status.done && !w.getLsbD 1, ovr := s.status.ovr && !w.getLsbD 10 } }) ∧
      (off = 0x004#14 → w.getLsbD 1 = false →
        step s = .next { s with inbox := rest, reply := .accepted, ie := w.getLsbD 0 }) ∧
      (off.toNat % 4 = 0 → off = 0x000#14 ∨ (0x020 ≤ off.toNat ∧ off.toNat < 0x1000) ∨
        (0x1200 ≤ off.toNat ∧ off.toNat < 0x2000) ∨ 0x2400 ≤ off.toNat →
        step s = .next { s with inbox := rest, reply := .accepted }) ∧
      (∀ k < 128, off.toNat = 0x1000 + 4 * k → ∃ m,
        step s = .next { s with inbox := rest, reply := .accepted, blk := m } ∧
        (∀ j < 4, m.read Config.powerOnBlk (4 * k + j) = w.extractLsb' (8 * j) 8) ∧
        ∀ a, a < 4 * k ∨ 4 * k + 4 ≤ a → m.read Config.powerOnBlk a = s.blkByte a) ∧
      (∀ k < 256, off.toNat = 0x2000 + 4 * k → ∃ m,
        step s = .next { s with inbox := rest, reply := .accepted, str := m } ∧
        (∀ j < 4, m.read Config.powerOnStr (4 * k + j) = w.extractLsb' (8 * j) 8) ∧
        ∀ a, a < 4 * k ∨ 4 * k + 4 ≤ a → m.read Config.powerOnStr a = s.strByte a))

/-- R230, R231, R808: accesses that land while a command runs. A full-width write to CMD, CUR, N, BASE,
LIMIT, BLK or STR is dropped and sets OVR; one to STATUS or to CTRL with SRST 0 is accepted; one to a
read-only register or a reserved offset has no effect; a read of ID, CTRL or STATUS returns its value; a
read of another register, of BLK or of STR changes nothing but the port's answer and the count of free values
drawn (log entries 5 and 8), and says nothing of the value. A misaligned access and a partial-width write
are a bus error, which changes no state of the core and leaves OVR as it was (R213, R809). Every access
counts as one that has landed (accessesLeft, the model's own field, log entry 2). -/
def Obligations.BusyAccessesDropStoreOrDraw : Prop :=
  ∀ (s : State) (r : Running) (rest : List Access), s.running = some r → 1 ≤ r.accessesLeft →
    (∀ (off : BitVec 14) (lanes : BitVec 4) (w : Word),
      (s.inbox = .write off lanes w :: rest ∧ (off.toNat % 4 ≠ 0 ∨ lanes ≠ 0xF#4)) ∨
        (s.inbox = .read off :: rest ∧ off.toNat % 4 ≠ 0) →
      step s = .next { s with
        inbox := rest, reply := .busError, running := some ⟨r.word, r.accessesLeft - 1⟩ }) ∧
    (∀ (off : BitVec 14) (w : Word), s.inbox = .write off 0xF#4 w :: rest →
      off = 0x00C#14 ∨ off = 0x010#14 ∨ off = 0x014#14 ∨ off = 0x018#14 ∨ off = 0x01C#14 ∨
        (off.toNat % 4 = 0 ∧ 0x1000 ≤ off.toNat ∧ off.toNat < 0x1200) ∨
        (off.toNat % 4 = 0 ∧ 0x2000 ≤ off.toNat ∧ off.toNat < 0x2400) →
      step s = .next { s with
        inbox := rest, reply := .accepted, running := some ⟨r.word, r.accessesLeft - 1⟩,
        status := { s.status with ovr := true } }) ∧
    (∀ (off : BitVec 14) (w : Word), s.inbox = .write off 0xF#4 w :: rest →
      (off = 0x008#14 → step s = .next { s with
        inbox := rest, reply := .accepted, running := some ⟨r.word, r.accessesLeft - 1⟩,
        status := { s.status with
          done := s.status.done && !w.getLsbD 1, ovr := s.status.ovr && !w.getLsbD 10 } }) ∧
      (off = 0x004#14 → w.getLsbD 1 = false → step s = .next { s with
        inbox := rest, reply := .accepted, running := some ⟨r.word, r.accessesLeft - 1⟩,
        ie := w.getLsbD 0 }) ∧
      (off.toNat % 4 = 0 → off = 0x000#14 ∨ (0x020 ≤ off.toNat ∧ off.toNat < 0x1000) ∨
        (0x1200 ≤ off.toNat ∧ off.toNat < 0x2000) ∨ 0x2400 ≤ off.toNat →
        step s = .next { s with
          inbox := rest, reply := .accepted, running := some ⟨r.word, r.accessesLeft - 1⟩ })) ∧
    (∀ off : BitVec 14, s.inbox = .read off :: rest →
      (∀ w, off = 0x000#14 ∧ w = 0x54444301#32 ∨ off = 0x004#14 ∧ w = s.ctrlWord ∨
        off = 0x008#14 ∧ w = s.statusWord →
        step s = .next { s with
          inbox := rest, reply := .data w, running := some ⟨r.word, r.accessesLeft - 1⟩ }) ∧
      (off = 0x00C#14 ∨ (off.toNat % 4 = 0 ∧ 0x010 ≤ off.toNat ∧ off.toNat ≤ 0x040) ∨
        (off.toNat % 4 = 0 ∧ 0x1000 ≤ off.toNat ∧ off.toNat < 0x1200) ∨
        (off.toNat % 4 = 0 ∧ 0x2000 ≤ off.toNat ∧ off.toNat < 0x2400) →
        ∃ w, step s = .next { s with
          inbox := rest, reply := .data w, running := some ⟨r.word, r.accessesLeft - 1⟩,
          draws := s.draws + 1 }))

/-- R224, R235, R920: from a busy state a step either completes the latched command, or performs a soft
reset, or leaves the command running, one access nearer to its completion (log entries 2 and 14), with every
register, table and memory it can read or write as they were. -/
def Obligations.NothingOfARunningCommandIsSeen : Prop :=
  ∀ (s t : State) (r : Running), s.running = some r → step s = .next t →
    (s.commandToRun = some r.word ∧ t.running = none ∧ t.status.done = true) ∨
    (s.commandToRun = none ∧ ∃ w rest, s.inbox = .write 0x004#14 0xF#4 w :: rest ∧ w.getLsbD 1 = true ∧
      t.running = none ∧ t.status = Status.zero) ∨
    (s.commandToRun = none ∧ (∃ left, left + 1 = r.accessesLeft ∧ t.running = some ⟨r.word, left⟩) ∧
      t.cur = s.cur ∧ t.n = s.n ∧ t.base = s.base ∧ t.limit = s.limit ∧ t.data = s.data ∧
      t.bitlen = s.bitlen ∧ t.consumed = s.consumed ∧ t.svval = s.svval ∧ t.txtsel = s.txtsel ∧
      t.sym = s.sym ∧ t.blk = s.blk ∧ t.str = s.str)

/-- R902: a CTRL write with SRST = 1, busy or idle, gives every register and the symbol table their reset
values, the other bits of the write ignored. Idle, BLK and STR are kept. Busy, an aborted decoder leaves
the BLK bytes outside its block and all of STR as they were; an aborted encoder that would have succeeded
leaves BLK and the STR bytes outside the bytes of its output; every other aborted command leaves both, and
so does a word that does not decode (that an encoder which would raise or decline covers no byte is the
model's reading, log entry 6). -/
def Obligations.SoftResetClearsAllButTheMemories : Prop :=
  ∀ (s : State) (w : Word) (rest : List Access), s.commandToRun = none →
    s.inbox = .write 0x004#14 0xF#4 w :: rest → w.getLsbD 1 = true →
    ∃ blk str draws, step s = .next { State.reset with
        blk := blk, str := str, draws := draws, inbox := rest, reply := .accepted } ∧
      (s.running = none → blk = s.blk ∧ str = s.str ∧ draws = s.draws) ∧
      (∀ r e, s.running = some r → decode r.word = .error e → blk = s.blk ∧ str = s.str) ∧
      ∀ r i, s.running = some r → decode r.word = .ok i →
        (i.isDecoder → str = s.str ∧ ∀ a, ¬(s.base.toNat ≤ a ∧ a < s.base.toNat + s.n.toNat) →
          blk.read Config.powerOnBlk a = s.blkByte a) ∧
        (i.isEncoder → blk = s.blk ∧ ∀ t, exec i s = .next t →
          (¬t.succeededNow → str = s.str) ∧
          (t.succeededNow → ∀ a, a < s.cur.toNat / 8 ∨
            (s.cur.toNat + t.bitlen.toNat - 1) / 8 < a →
            str.read Config.powerOnStr a = s.strByte a)) ∧
        (¬i.isDecoder → ¬i.isEncoder → blk = s.blk ∧ str = s.str)

/-- R820: IRQ is DONE and IE. Every command that completes with IE = 1 raises it, whatever its outcome; a
host write of 1 to STATUS bit 1, a CMD write and IE = 0 drop it. -/
def Obligations.InterruptFollowsDoneAndEnable : Prop :=
  (∀ (i : Instr) (s t : State), exec i s = .next t → t.irq = s.ie) ∧
  (∀ (s : State) (off : BitVec 14) (w : Word) (rest : List Access), s.running = none →
    s.inbox = .write off 0xF#4 w :: rest →
    off = 0x008#14 ∧ w.getLsbD 1 = true ∨ off = 0x00C#14 ∨ off = 0x004#14 ∧ w.getLsbD 0 = false ∨
      off = 0x004#14 ∧ w.getLsbD 1 = true →
    ∃ t, step s = .next t ∧ t.irq = false)

/-! ### The rules' tables and widths -/

/-- The tables and widths that the stream statements use, fixed by the rules: the rank width of R501; the
three tables of R655, the ranks in them (R656) and the signature sets of R659; the codes of R662, c = G OR
(e << 3), listed for ranks 0..22; idxw by R701's ranges and posw by R702 (the fewest bits, at least 1, that
hold every value below i; 1 at i = 0); the fields and the length of a token (R700, R702, R709), and of a token
list, u and i taken where each token starts; and a field of the stream, bit k of it at stream bit p + k
(R14), and byte i of a block. -/
def Obligations.TablesAndWidthsAreTheRules : Prop :=
  (List.range 16).map (fun k => fwWidth (k + 1)) = [0, 1, 2, 2, 3, 3, 3, 3, 4, 4, 4, 4, 4, 4, 4, 4] ∧
  textTable 0 = some ([0x20, 0x65, 0x74, 0x61, 0x6F, 0x69, 0x6E, 0x73, 0x72, 0x68, 0x6C, 0x64]
    ++ [0x63, 0x75, 0x6D, 0x66, 0x70, 0x67, 0x77, 0x79, 0x62, 0x2C, 0x2E]) ∧
  textTable 1 = some ([0x3C, 0x3E, 0x2F, 0x20, 0x22, 0x3D, 0x65, 0x74, 0x61, 0x3A, 0x69, 0x6F]
    ++ [0x6E, 0x73, 0x72, 0x64, 0x6C, 0x63, 0x70, 0x68, 0x2D, 0x2E, 0x6D]) ∧
  textTable 2 = some ([0x20, 0x65, 0x28, 0x29, 0x3B, 0x3D, 0x74, 0x2A, 0x2C, 0x69, 0x72, 0x6E]
    ++ [0x73, 0x61, 0x6F, 0x63, 0x6C, 0x75, 0x64, 0x66, 0x5F, 0x0A, 0x70]) ∧
  (∀ sel, 3 ≤ sel → textTable sel = none) ∧ textTable 0 = some tableT0 ∧
  (∀ sel table, textTable sel = some table →
    ∀ (v : Byte) (r : Nat), rankIn table v = some r ↔ table[r]? = some v) ∧
  (∀ v : Byte, markupSet.contains v = true ↔ v ∈ [0x3C#8, 0x3E#8, 0x2F#8, 0x22#8, 0x3A#8]) ∧
  (∀ v : Byte, codeSet.contains v = true ↔ v ∈ [0x2A#8, 0x3D#8, 0x3B#8, 0x28#8, 0x29#8, 0x2C#8]) ∧
  (List.range 23).map rankCode =
    [⟨0x00, 3⟩, ⟨0x01, 3⟩, ⟨0x02, 3⟩, ⟨0x04, 4⟩, ⟨0x0C, 4⟩, ⟨0x05, 4⟩, ⟨0x0D, 4⟩, ⟨0x06, 5⟩, ⟨0x0E, 5⟩]
    ++ [⟨0x16, 5⟩, ⟨0x1E, 5⟩, ⟨0x07, 7⟩, ⟨0x0F, 7⟩, ⟨0x17, 7⟩, ⟨0x1F, 7⟩, ⟨0x27, 7⟩, ⟨0x2F, 7⟩]
    ++ [⟨0x37, 7⟩, ⟨0x3F, 7⟩, ⟨0x47, 7⟩, ⟨0x4F, 7⟩, ⟨0x57, 7⟩, ⟨0x5F, 7⟩] ∧
  (∀ u, (u ≤ 2 → idxw u = 1) ∧ (3 ≤ u → u ≤ 4 → idxw u = 2) ∧ (5 ≤ u → u ≤ 8 → idxw u = 3) ∧
    (9 ≤ u → u ≤ 16 → idxw u = 4) ∧ (17 ≤ u → u ≤ 32 → idxw u = 5) ∧ (33 ≤ u → u ≤ 64 → idxw u = 6) ∧
    (65 ≤ u → u ≤ 128 → idxw u = 7)) ∧
  (posw 0 = 1 ∧ ∀ i, 1 ≤ i → 1 ≤ posw i ∧ i ≤ 2 ^ posw i ∧ ∀ b, 1 ≤ b → i ≤ 2 ^ b → posw i ≤ b) ∧
  (∀ lw u i, (Token.newUnique).fields lw u i = [⟨0, 1⟩] ∧
    (∀ idx, (Token.repeatRank idx).fields lw u i = [⟨1, 1⟩, ⟨0, 1⟩, ⟨idx, idxw u⟩]) ∧
    ∀ len pos, (Token.string len pos).fields lw u i = [⟨1, 1⟩, ⟨1, 1⟩, ⟨len - 2, lw⟩, ⟨pos, posw i⟩]) ∧
  (∀ lw u i, tokensFields lw u i [] = [] ∧ ∀ toks,
    tokensFields lw u i (.newUnique :: toks)
      = (Token.newUnique).fields lw u i ++ tokensFields lw (u + 1) (i + 1) toks ∧
    (∀ idx, tokensFields lw u i (.repeatRank idx :: toks)
      = (Token.repeatRank idx).fields lw u i ++ tokensFields lw u (i + 1) toks) ∧
    (∀ len pos, tokensFields lw u i (.string len pos :: toks)
      = (Token.string len pos).fields lw u i ++ tokensFields lw u (i + len) toks) ∧
    tokensBits lw u i toks = fieldsWidth (tokensFields lw u i toks)) ∧
  (∀ fs : List Field, fieldsWidth fs = (fs.map Field.width).sum) ∧
  (∀ (x : List Byte) (i : Nat) (h : i < x.length), byteAt x i = x[i]) ∧
  ∀ (m : Memory) (p n k : Nat),
    (readField m p n).testBit k = (decide (k < n) && strBit m (p + k))
end

