-- ==== Sys2Proof/Laws/Memory.lean ====
section
/-! SUPPORT. The laws of the memory operations: a read after a write, the canonical form every operation
keeps, and that equal contents are equal lists. -/

namespace Sys2Proof.Machine

/-! ### Reading after writing -/

@[simp] theorem Memory.lookup_nil (a : Nat) : Memory.lookup [] a = none := rfl

theorem Memory.lookup_cons (k : Nat) (b : Byte) (m : Memory) (a : Nat) :
    Memory.lookup ((k, b) :: m) a = if a = k then some b else Memory.lookup m a := rfl

@[simp] theorem Memory.lookup_write_same (m : Memory) (a : Nat) (b : Byte) :
    (m.write a b).lookup a = some b := by
  induction m with
  | nil => simp [Memory.write, Memory.lookup]
  | cons c rest ih =>
    obtain ⟨k, v⟩ := c
    simp only [Memory.write]
    split
    · simp [Memory.lookup]
    · split
      · simp [Memory.lookup]
      · rename_i h1 h2
        simp [Memory.lookup, h2, ih]

@[simp] theorem Memory.lookup_write_other (m : Memory) {a a' : Nat} (b : Byte) (h : a' ≠ a) :
    (m.write a b).lookup a' = m.lookup a' := by
  induction m with
  | nil => simp [Memory.write, Memory.lookup, h]
  | cons c rest ih =>
    obtain ⟨k, v⟩ := c
    simp only [Memory.write]
    split
    · simp [Memory.lookup, h]
    · split
      · rename_i h1 h2
        subst h2
        simp [Memory.lookup, h]
      · simp [Memory.lookup, ih]

theorem Memory.read_write (d : Nat → Byte) (m : Memory) (a a' : Nat) (b : Byte) :
    (m.write a b).read d a' = if a' = a then b else m.read d a' := by
  by_cases h : a' = a
  · subst h; simp [Memory.read]
  · simp [Memory.read, h]

@[simp] theorem Memory.read_write_same (d : Nat → Byte) (m : Memory) (a : Nat) (b : Byte) :
    (m.write a b).read d a = b := by simp [Memory.read_write]

@[simp] theorem Memory.read_write_other (d : Nat → Byte) (m : Memory) {a a' : Nat} (b : Byte)
    (h : a' ≠ a) : (m.write a b).read d a' = m.read d a' := by simp [Memory.read_write, h]

theorem Memory.read_writeBytes_below (d : Nat → Byte) (bs : List Byte) (m : Memory) (a a' : Nat)
    (h : a' < a) : (m.writeBytes a bs).read d a' = m.read d a' := by
  induction bs generalizing m a with
  | nil => rfl
  | cons b bs ih =>
    rw [Memory.writeBytes, ih _ _ (by omega), Memory.read_write_other _ _ _ (by omega)]

theorem Memory.read_writeBytes_above (d : Nat → Byte) (bs : List Byte) (m : Memory) (a a' : Nat)
    (h : a + bs.length ≤ a') : (m.writeBytes a bs).read d a' = m.read d a' := by
  induction bs generalizing m a with
  | nil => rfl
  | cons b bs ih =>
    simp only [List.length_cons] at h
    rw [Memory.writeBytes, ih _ _ (by omega), Memory.read_write_other _ _ _ (by omega)]

/-- A block write puts byte i at address a + i. -/
theorem Memory.read_writeBytes_inside (d : Nat → Byte) (bs : List Byte) (m : Memory) (a i : Nat)
    (h : i < bs.length) : (m.writeBytes a bs).read d (a + i) = bs[i] := by
  induction bs generalizing m a i with
  | nil => simp at h
  | cons b bs ih =>
    rw [Memory.writeBytes]
    cases i with
    | zero => rw [Memory.read_writeBytes_below _ _ _ _ _ (by omega)]; simp
    | succ i =>
      simp only [List.length_cons] at h
      have := ih (m.write a b) (a + 1) i (by omega)
      rw [show a + (i + 1) = a + 1 + i by omega, this]; simp

/-- A block write leaves every address outside its range as it was. -/
theorem Memory.read_writeBytes_outside (d : Nat → Byte) (bs : List Byte) (m : Memory) (a a' : Nat)
    (h : a' < a ∨ a + bs.length ≤ a') : (m.writeBytes a bs).read d a' = m.read d a' :=
  h.elim (Memory.read_writeBytes_below d bs m a a') (Memory.read_writeBytes_above d bs m a a')

theorem Memory.read_writeLE_outside (d : Nat → Byte) (n : Nat) (m : Memory) (a v a' : Nat)
    (h : a' < a ∨ a + n ≤ a') : (m.writeLE a v n).read d a' = m.read d a' := by
  induction n generalizing m a v with
  | zero => rfl
  | succ n ih =>
    rw [Memory.writeLE, ih _ _ _ (by omega), Memory.read_write_other _ _ _ (by omega)]

/-- R210: byte j of the word goes to address a + j. -/
theorem Memory.read_writeLE_inside (d : Nat → Byte) (n : Nat) (m : Memory) (a v j : Nat) (h : j < n) :
    (m.writeLE a v n).read d (a + j) = BitVec.ofNat 8 (v / 256 ^ j) := by
  induction n generalizing m a v j with
  | zero => omega
  | succ n ih =>
    rw [Memory.writeLE]
    cases j with
    | zero => rw [Memory.read_writeLE_outside _ _ _ _ _ _ (by omega)]; simp
    | succ j =>
      rw [show a + (j + 1) = a + 1 + j by omega, ih _ _ _ _ (by omega), Nat.div_div_eq_div_mul,
        pow_succ, Nat.mul_comm]

/-- What was written as a little-endian word reads back. -/
theorem Memory.readLE_writeLE (d : Nat → Byte) (n : Nat) (m : Memory) (a v : Nat) :
    (m.writeLE a v n).readLE d a n = v % 256 ^ n := by
  induction n generalizing m a v with
  | zero => simp [Memory.readLE, Nat.mod_one]
  | succ n ih =>
    have hpow : 256 ^ (n + 1) = 256 * 256 ^ n := by rw [pow_succ, Nat.mul_comm]
    rw [Memory.readLE, Memory.writeLE, ih, Memory.read_writeLE_outside _ _ _ _ _ _ (by omega),
      Memory.read_write_same, BitVec.toNat_ofNat, hpow, Nat.mod_mul]

theorem Memory.read_forget_outside (d : Nat → Byte) (n : Nat) (m : Memory) (k a a' : Nat)
    (h : a' < a ∨ a + n ≤ a') : (m.forget k a n).read d a' = m.read d a' := by
  induction n generalizing m a with
  | zero => rfl
  | succ n ih =>
    rw [Memory.forget, ih _ _ (by omega), Memory.read_write_other _ _ _ (by omega)]

/-! ### The canonical form -/

theorem Memory.risesFrom_mono {lo lo' : Nat} (m : Memory) (h : lo' ≤ lo)
    (hm : m.risesFrom lo = true) : m.risesFrom lo' = true := by
  cases m with
  | nil => rfl
  | cons c rest =>
    simp only [Memory.risesFrom, Bool.and_eq_true, decide_eq_true_eq] at hm ⊢
    exact ⟨by omega, hm.2⟩

theorem Memory.risesFrom_write {lo : Nat} (m : Memory) (a : Nat) (b : Byte) (h : lo ≤ a)
    (hm : m.risesFrom lo = true) : (m.write a b).risesFrom lo = true := by
  induction m generalizing lo with
  | nil => simp [Memory.write, Memory.risesFrom, h]
  | cons c rest ih =>
    obtain ⟨k, v⟩ := c
    simp only [Memory.risesFrom, Bool.and_eq_true, decide_eq_true_eq] at hm
    simp only [Memory.write]
    split
    · simp only [Memory.risesFrom, Bool.and_eq_true, decide_eq_true_eq]
      exact ⟨h, by omega, hm.2⟩
    · split
      · rename_i h2
        subst h2
        simp only [Memory.risesFrom, Bool.and_eq_true, decide_eq_true_eq]
        exact hm
      · simp only [Memory.risesFrom, Bool.and_eq_true, decide_eq_true_eq]
        exact ⟨hm.1, ih (by omega) hm.2⟩

@[simp] theorem Memory.wf_nil : Memory.wf [] = true := rfl

/-- A write keeps the canonical form. -/
theorem Memory.wf_write {m : Memory} (a : Nat) (b : Byte) (h : m.wf = true) :
    (m.write a b).wf = true := Memory.risesFrom_write m a b (Nat.zero_le a) h

theorem Memory.wf_writeBytes {m : Memory} (a : Nat) (bs : List Byte) (h : m.wf = true) :
    (m.writeBytes a bs).wf = true := by
  induction bs generalizing m a with
  | nil => exact h
  | cons b bs ih => exact ih _ (Memory.wf_write a b h)

theorem Memory.wf_writeLE {m : Memory} (a v n : Nat) (h : m.wf = true) :
    (m.writeLE a v n).wf = true := by
  induction n generalizing m a v with
  | zero => exact h
  | succ n ih => exact ih _ _ (Memory.wf_write a _ h)

theorem Memory.wf_forget {m : Memory} (k a n : Nat) (h : m.wf = true) :
    (m.forget k a n).wf = true := by
  induction n generalizing m a with
  | zero => exact h
  | succ n ih => exact ih _ (Memory.wf_write a _ h)

@[simp] theorem Memory.within_nil (size : Nat) : Memory.within size [] = true := rfl

theorem Memory.within_write {size : Nat} {m : Memory} (a : Nat) (b : Byte) (ha : a < size)
    (h : m.within size = true) : (m.write a b).within size = true := by
  induction m with
  | nil => simp [Memory.write, Memory.within, ha]
  | cons c rest ih =>
    obtain ⟨k, v⟩ := c
    simp only [Memory.within, List.all_cons, Bool.and_eq_true, decide_eq_true_eq] at h ih
    simp only [Memory.write]
    split
    · simpa [Memory.within, ha] using h
    · split
      · simpa [Memory.within, ha] using h.2
      · simp only [Memory.within, List.all_cons, Bool.and_eq_true, decide_eq_true_eq]
        exact ⟨h.1, ih h.2⟩

theorem Memory.within_writeBytes {size : Nat} {m : Memory} (a : Nat) (bs : List Byte)
    (ha : a + bs.length ≤ size) (h : m.within size = true) :
    (m.writeBytes a bs).within size = true := by
  induction bs generalizing m a with
  | nil => exact h
  | cons b bs ih =>
    simp only [List.length_cons] at ha
    exact ih _ (by omega) (Memory.within_write a b (by omega) h)

theorem Memory.within_writeLE {size : Nat} {m : Memory} (a v n : Nat) (ha : a + n ≤ size)
    (h : m.within size = true) : (m.writeLE a v n).within size = true := by
  induction n generalizing m a v with
  | zero => exact h
  | succ n ih => exact ih _ _ (by omega) (Memory.within_write a _ (by omega) h)

theorem Memory.within_forget {size : Nat} {m : Memory} (k a n : Nat) (ha : a + n ≤ size)
    (h : m.within size = true) : (m.forget k a n).within size = true := by
  induction n generalizing m a with
  | zero => exact h
  | succ n ih => exact ih _ (by omega) (Memory.within_write a _ (by omega) h)

theorem Memory.lookup_of_risesFrom {lo : Nat} {m : Memory} (h : m.risesFrom lo = true) {a : Nat}
    (ha : a < lo) : m.lookup a = none := by
  induction m generalizing lo with
  | nil => rfl
  | cons c rest ih =>
    obtain ⟨k, v⟩ := c
    simp only [Memory.risesFrom, Bool.and_eq_true, decide_eq_true_eq] at h
    rw [Memory.lookup_cons, if_neg (by omega)]
    exact ih h.2 (by omega)

theorem Memory.eq_of_risesFrom {lo : Nat} {m m' : Memory} (h : m.risesFrom lo = true)
    (h' : m'.risesFrom lo = true) (heq : ∀ a, m.lookup a = m'.lookup a) : m = m' := by
  induction m generalizing lo m' with
  | nil =>
    cases m' with
    | nil => rfl
    | cons c rest =>
      have := heq c.1
      simp [Memory.lookup] at this
  | cons c rest ih =>
    obtain ⟨k, v⟩ := c
    cases m' with
    | nil =>
      have := heq k
      simp [Memory.lookup] at this
    | cons c' rest' =>
      obtain ⟨k', v'⟩ := c'
      simp only [Memory.risesFrom, Bool.and_eq_true, decide_eq_true_eq] at h h'
      have hk : k = k' := by
        rcases Nat.lt_trichotomy k k' with hlt | he | hgt
        · have := heq k
          rw [Memory.lookup_cons, if_pos rfl, Memory.lookup_cons, if_neg (by omega),
            Memory.lookup_of_risesFrom h'.2 (by omega)] at this
          cases this
        · exact he
        · have := heq k'
          rw [Memory.lookup_cons, if_neg (by omega), Memory.lookup_of_risesFrom h.2 (by omega),
            Memory.lookup_cons, if_pos rfl] at this
          cases this
      subst hk
      have hv := heq k
      simp only [Memory.lookup_cons, if_pos] at hv
      cases hv
      rw [ih h.2 h'.2 fun a => ?_]
      by_cases ha : a = k
      · subst ha
        rw [Memory.lookup_of_risesFrom h.2 (by omega), Memory.lookup_of_risesFrom h'.2 (by omega)]
      · have := heq a
        rwa [Memory.lookup_cons, if_neg ha, Memory.lookup_cons, if_neg ha] at this

/-- Two memories in canonical form that list the same bytes are the same list. -/
theorem Memory.eq_of_wf {m m' : Memory} (h : m.wf = true) (h' : m'.wf = true)
    (heq : ∀ a, m.lookup a = m'.lookup a) : m = m' := Memory.eq_of_risesFrom h h' heq

/-! ### Reading a run of bytes -/

@[simp] theorem Memory.length_bytes (d : Nat → Byte) (m : Memory) (a n : Nat) :
    (m.bytes d a n).length = n := by simp [Memory.bytes]

theorem Memory.getElem_bytes (d : Nat → Byte) (m : Memory) (a n i : Nat)
    (h : i < (m.bytes d a n).length) : (m.bytes d a n)[i] = m.read d (a + i) := by
  simp [Memory.bytes]

/-- Writing a block and reading the same range gives the block. -/
theorem Memory.bytes_writeBytes (d : Nat → Byte) (m : Memory) (a : Nat) (bs : List Byte) :
    (m.writeBytes a bs).bytes d a bs.length = bs := by
  apply List.ext_getElem
  · simp
  · intro i h1 h2
    rw [Memory.getElem_bytes, Memory.read_writeBytes_inside _ _ _ _ _ h2]

end Sys2Proof.Machine
end

