-- ==== Sys2Proof/Laws/Cursor.lean ====
section
/-! SUPPORT. The laws of the stream bits and the cursor primitives: which bits PutBits writes, clears and
keeps (R402), what GetBits reads (R404), when each raises E_RANGE (R403), and the same for a list of
fields, which is what an encoder writes. -/

namespace Sys2Proof.Machine

@[simp] theorem strBits_eq : Config.strBits = 8192 := rfl
@[simp] theorem strBytes_eq : Config.strBytes = 1024 := rfl
@[simp] theorem blkBytes_eq : Config.blkBytes = 512 := rfl

/-! ### One bit -/

theorem getLsbD_setBit (x : Byte) (k j : Nat) (b : Bool) (hk : k < 8) :
    (setBit x k b).getLsbD j = if j = k then b else x.getLsbD j := by
  unfold setBit
  by_cases hj : j < 8
  · by_cases hjk : j = k
    · subst hjk; cases b <;> simp [hj]
    · by_cases hlt : j < k
      · cases b <;> simp [hj, hjk, hlt]
      · have : j - k ≠ 0 := by omega
        cases b <;> simp [hj, hjk, hlt, this]
  · have h1 : j ≠ k := by omega
    have h2 : 8 ≤ j := by omega
    simp [h1, BitVec.getLsbD_of_ge _ _ h2]

/-- R402, one bit: the written bit, the rest of a byte entered at its bit 0 cleared, everything else
kept. -/
theorem strBit_putBit (m : Memory) (q p : Nat) (b : Bool) :
    strBit (putBit m q b) p =
      if p = q then b else if p / 8 = q / 8 ∧ q % 8 = 0 then false else strBit m p := by
  unfold strBit putBit
  rw [Memory.read_write]
  by_cases hbyte : p / 8 = q / 8
  · rw [if_pos hbyte, getLsbD_setBit _ _ _ _ (Nat.mod_lt _ (by omega))]
    by_cases hp : p = q
    · simp [hp]
    · have : p % 8 ≠ q % 8 := by omega
      rw [if_neg this, if_neg hp]
      by_cases hq : q % 8 = 0
      · simp [hq, hbyte]
      · simp [hq, hbyte]
  · have hp : p ≠ q := fun h => hbyte (by rw [h])
    simp [hbyte, hp]

/-! ### One field -/


/-- R402, a whole field. -/
theorem strBit_putField (n : Nat) (m : Memory) (c v p : Nat) :
    (c ≤ p ∧ p < c + n → strBit (putField m c v n) p = v.testBit (p - c)) ∧
    (clearedBy c n p → strBit (putField m c v n) p = false) ∧
    (¬(c ≤ p ∧ p < c + n) → ¬clearedBy c n p → strBit (putField m c v n) p = strBit m p) := by
  induction n generalizing m c v with
  | zero =>
    refine ⟨fun h => by omega, fun h => ?_, fun _ _ => rfl⟩
    obtain ⟨h1, h2, h3⟩ := h
    omega
  | succ n ih =>
    obtain ⟨hin, hclr, hout⟩ := ih (putBit m c (decide (v % 2 = 1))) (c + 1) (v / 2)
    simp only [putField]
    refine ⟨fun h => ?_, fun h => ?_, fun h h' => ?_⟩
    · by_cases hp : p = c
      · subst hp
        rw [hout (by omega) (fun hc => by obtain ⟨h1, h2, h3⟩ := hc; omega), strBit_putBit, if_pos rfl,
          Nat.sub_self, Nat.testBit_zero]
      · rw [hin (by omega), show p - c = (p - (c + 1)) + 1 by omega, Nat.testBit_succ]
    · obtain ⟨h1, h2, h3⟩ := h
      by_cases hc : clearedBy (c + 1) n p
      · exact hclr hc
      · rw [hout (by omega) hc, strBit_putBit]
        have h8 : c = 8 * (p / 8) := by
          by_contra hne
          exact hc ⟨by omega, by omega, by omega⟩
        rw [if_neg (by omega), if_pos ⟨by omega, by omega⟩]
    · rw [hout (by omega) (fun hc => by obtain ⟨h1, h2, h3⟩ := hc; exact h' ⟨by omega, by omega, by omega⟩),
        strBit_putBit, if_neg (by omega), if_neg]
      rintro ⟨h1, h2⟩
      exact h' ⟨by omega, by omega, by omega⟩

/-- R404: bit k of the value read is stream bit p + k. -/
theorem testBit_readField (n : Nat) (m : Memory) (p k : Nat) :
    (readField m p n).testBit k = (decide (k < n) && strBit m (p + k)) := by
  induction n generalizing p k with
  | zero => simp [readField]
  | succ n ih =>
    simp only [readField]
    cases k with
    | zero =>
      cases strBit m p <;> simp [Nat.testBit_zero]
    | succ k =>
      rw [Nat.testBit_succ, show ((strBit m p).toNat + 2 * readField m (p + 1) n) / 2 =
        readField m (p + 1) n by cases strBit m p <;> simp; omega, ih]
      simp [show p + 1 + k = p + (k + 1) by omega]

theorem readField_lt (n : Nat) (m : Memory) (p : Nat) : readField m p n < 2 ^ n := by
  induction n generalizing p with
  | zero => simp [readField]
  | succ n ih =>
    have := ih (p + 1)
    simp only [readField, pow_succ]
    cases strBit m p <;> simp <;> omega

/-- A field is read back by its bits alone. -/
theorem readField_eq_of_bits {n : Nat} {m : Memory} {p v : Nat}
    (h : ∀ k < n, strBit m (p + k) = v.testBit k) : readField m p n = v % 2 ^ n := by
  apply Nat.eq_of_testBit_eq
  intro k
  rw [testBit_readField, Nat.testBit_mod_two_pow]
  by_cases hk : k < n
  · simp [hk, h k hk]
  · simp [hk]

/-- Two memories that agree on a field's bits read the same value there. -/
theorem readField_congr {n : Nat} {m m' : Memory} {p : Nat}
    (h : ∀ q, p ≤ q → q < p + n → strBit m q = strBit m' q) : readField m p n = readField m' p n := by
  apply Nat.eq_of_testBit_eq
  intro k
  rw [testBit_readField, testBit_readField]
  by_cases hk : k < n
  · simp [hk, h (p + k) (by omega) (by omega)]
  · simp [hk]

/-- What a field write stores reads back. -/
theorem readField_putField (m : Memory) (c v n : Nat) :
    readField (putField m c v n) c n = v % 2 ^ n :=
  readField_eq_of_bits fun k hk => by
    have := (strBit_putField n m c v (c + k)).1 ⟨by omega, by omega⟩
    simpa using this

/-! ### The primitives -/

theorem putBits_ok {m : Memory} {cur v n : Nat} (h : cur + n ≤ 8192) :
    putBits m cur v n = .ok (putField m cur v n, cur + n) := by
  unfold putBits
  by_cases hn : n = 0
  · subst hn; simp [putField]
  · rw [if_neg hn, if_neg (by simp; omega)]

theorem putBits_range {m : Memory} {cur v n : Nat} (hn : 1 ≤ n) (h : 8192 < cur + n) :
    putBits m cur v n = .error .range := by
  unfold putBits
  rw [if_neg (by omega), if_pos (by simpa using h)]

theorem getBits_ok {m : Memory} {cur n : Nat} (h : cur + n ≤ 8192) :
    getBits m cur n = .ok (readField m cur n, cur + n) := by
  unfold getBits
  by_cases hn : n = 0
  · subst hn; simp [readField]
  · rw [if_neg hn, if_neg (by simp; omega)]

theorem getBits_range {m : Memory} {cur n : Nat} (hn : 1 ≤ n) (h : 8192 < cur + n) :
    getBits m cur n = .error .range := by
  unfold getBits
  rw [if_neg (by omega), if_pos (by simpa using h)]

/-- All GetBits can answer. -/
theorem getBits_cases (m : Memory) (cur n : Nat) :
    (1 ≤ n ∧ 8192 < cur + n ∧ getBits m cur n = .error .range) ∨
    ((n = 0 ∨ cur + n ≤ 8192) ∧ getBits m cur n = .ok (readField m cur n, cur + n)) := by
  by_cases hn : n = 0
  · subst hn; right; exact ⟨.inl rfl, by simp [getBits, readField]⟩
  · by_cases h : cur + n ≤ 8192
    · exact .inr ⟨.inr h, getBits_ok h⟩
    · exact .inl ⟨by omega, by omega, getBits_range (by omega) (by omega)⟩

/-! ### A list of fields -/

/-- Bit k of a list of fields laid end to end. -/
def fieldsBit : List Field → Nat → Bool
  | [], _ => false
  | f :: fs, k => if k < f.width then f.value.testBit k else fieldsBit fs (k - f.width)

@[simp] theorem fieldsWidth_nil : fieldsWidth [] = 0 := rfl
@[simp] theorem fieldsWidth_cons (f : Field) (fs : List Field) :
    fieldsWidth (f :: fs) = f.width + fieldsWidth fs := rfl

@[simp] theorem fieldsWidth_append (fs gs : List Field) :
    fieldsWidth (fs ++ gs) = fieldsWidth fs + fieldsWidth gs := by
  induction fs with
  | nil => simp
  | cons f fs ih => simp [ih, Nat.add_assoc]

/-- The stream after a list of fields, as one function of the old one (the PutBits of each in order). -/
def putAll (m : Memory) (cur : Nat) : List Field → Memory
  | [] => m
  | f :: fs => putAll (putField m cur f.value f.width) (cur + f.width) fs

/-- Fields that fit below bit 8192 are all written, and the cursor ends behind them (R409). -/
theorem putFields_ok {fs : List Field} {m : Memory} {cur : Nat} (h : cur + fieldsWidth fs ≤ 8192) :
    putFields m cur fs = .ok (putAll m cur fs, cur + fieldsWidth fs) := by
  induction fs generalizing m cur with
  | nil => rfl
  | cons f fs ih =>
    simp only [fieldsWidth_cons] at h
    rw [putFields, putBits_ok (by omega)]
    simp only []
    rw [ih (by omega), putAll, fieldsWidth_cons, Nat.add_assoc]

/-- R402 for a whole stream: the bits written, the bits cleared behind it in the last byte entered at its
bit 0, and everything else kept (R202). -/
theorem strBit_putAll (fs : List Field) (m : Memory) (c p : Nat) :
    (c ≤ p ∧ p < c + fieldsWidth fs → strBit (putAll m c fs) p = fieldsBit fs (p - c)) ∧
    (clearedBy c (fieldsWidth fs) p → strBit (putAll m c fs) p = false) ∧
    (¬(c ≤ p ∧ p < c + fieldsWidth fs) → ¬clearedBy c (fieldsWidth fs) p →
      strBit (putAll m c fs) p = strBit m p) := by
  induction fs generalizing m c with
  | nil =>
    refine ⟨fun h => by simp at h; omega, fun h => ?_, fun _ _ => rfl⟩
    obtain ⟨h1, h2, h3⟩ := h
    simp at h2; omega
  | cons f fs ih =>
    obtain ⟨hin, hclr, hout⟩ := ih (putField m c f.value f.width) (c + f.width)
    obtain ⟨gin, gclr, gout⟩ := strBit_putField f.width m c f.value p
    simp only [putAll, fieldsWidth_cons]
    refine ⟨fun h => ?_, fun h => ?_, fun h h' => ?_⟩
    · by_cases hp : p < c + f.width
      · rw [hout (by omega) (fun hc => by obtain ⟨h1, h2, h3⟩ := hc; omega), gin ⟨h.1, hp⟩]
        simp [fieldsBit, show p - c < f.width by omega]
      · rw [hin (by omega)]
        simp [fieldsBit, show ¬p - c < f.width by omega, show p - c - f.width = p - (c + f.width) by omega]
    · obtain ⟨h1, h2, h3⟩ := h
      by_cases hc : clearedBy (c + f.width) (fieldsWidth fs) p
      · exact hclr hc
      · rw [hout (by omega) hc]
        apply gclr
        refine ⟨h1, ?_, by omega⟩
        by_contra hne
        exact hc ⟨by omega, by omega, by omega⟩
    · have hc : ¬clearedBy (c + f.width) (fieldsWidth fs) p := by
        rintro ⟨h1, h2, h3⟩
        exact h' ⟨by omega, by omega, by omega⟩
      rw [hout (by omega) hc, gout (by omega)]
      rintro ⟨h1, h2, h3⟩
      by_cases hf : c + (f.width + fieldsWidth fs) ≤ p
      · exact h' ⟨h1, by omega, hf⟩
      · omega

theorem Memory.wf_putField {m : Memory} (c v n : Nat) (h : m.wf = true) :
    (putField m c v n).wf = true := by
  induction n generalizing m c v with
  | zero => exact h
  | succ n ih => exact ih _ _ (Memory.wf_write _ _ h)

theorem Memory.within_putField {size : Nat} {m : Memory} (c v n : Nat) (hc : c + n ≤ 8 * size)
    (h : m.within size = true) : (putField m c v n).within size = true := by
  induction n generalizing m c v with
  | zero => exact h
  | succ n ih => exact ih _ _ (by omega) (Memory.within_write _ _ (by omega) h)

theorem Memory.wf_putAll {m : Memory} (c : Nat) (fs : List Field) (h : m.wf = true) :
    (putAll m c fs).wf = true := by
  induction fs generalizing m c with
  | nil => exact h
  | cons f fs ih => exact ih _ (Memory.wf_putField _ _ _ h)

theorem Memory.within_putAll {size : Nat} {m : Memory} (c : Nat) (fs : List Field)
    (hc : c + fieldsWidth fs ≤ 8 * size) (h : m.within size = true) :
    (putAll m c fs).within size = true := by
  induction fs generalizing m c with
  | nil => exact h
  | cons f fs ih =>
    simp only [fieldsWidth_cons] at hc
    exact ih _ (by omega) (Memory.within_putField _ _ _ (by omega) h)

end Sys2Proof.Machine
end

