-- ==== Sys2Proof/Laws/State.lean ====
section
/-! SUPPORT. What every named update of the state does to every field: one lemma per field per update,
true by rfl, so that no later proof unfolds a record update. -/

namespace Sys2Proof.Machine

/-! ### startCommand: R800 start -/

@[simp] theorem State.startCommand_ie (s : State) (w : Word) (left : Nat) :
    (s.startCommand w left).ie = s.ie := rfl
@[simp] theorem State.startCommand_status (s : State) (w : Word) (left : Nat) :
    (s.startCommand w left).status = ⟨false, none, false, false, s.status.ovr⟩ := rfl
@[simp] theorem State.startCommand_running (s : State) (w : Word) (left : Nat) :
    (s.startCommand w left).running = some ⟨w, left⟩ := rfl
@[simp] theorem State.startCommand_cur (s : State) (w : Word) (left : Nat) :
    (s.startCommand w left).cur = s.cur := rfl
@[simp] theorem State.startCommand_n (s : State) (w : Word) (left : Nat) :
    (s.startCommand w left).n = s.n := rfl
@[simp] theorem State.startCommand_base (s : State) (w : Word) (left : Nat) :
    (s.startCommand w left).base = s.base := rfl
@[simp] theorem State.startCommand_limit (s : State) (w : Word) (left : Nat) :
    (s.startCommand w left).limit = s.limit := rfl
@[simp] theorem State.startCommand_data (s : State) (w : Word) (left : Nat) :
    (s.startCommand w left).data = s.data := rfl
@[simp] theorem State.startCommand_bitlen (s : State) (w : Word) (left : Nat) :
    (s.startCommand w left).bitlen = s.bitlen := rfl
@[simp] theorem State.startCommand_consumed (s : State) (w : Word) (left : Nat) :
    (s.startCommand w left).consumed = s.consumed := rfl
@[simp] theorem State.startCommand_svval (s : State) (w : Word) (left : Nat) :
    (s.startCommand w left).svval = s.svval := rfl
@[simp] theorem State.startCommand_txtsel (s : State) (w : Word) (left : Nat) :
    (s.startCommand w left).txtsel = s.txtsel := rfl
@[simp] theorem State.startCommand_sym (s : State) (w : Word) (left : Nat) :
    (s.startCommand w left).sym = s.sym := rfl
@[simp] theorem State.startCommand_blk (s : State) (w : Word) (left : Nat) :
    (s.startCommand w left).blk = s.blk := rfl
@[simp] theorem State.startCommand_str (s : State) (w : Word) (left : Nat) :
    (s.startCommand w left).str = s.str := rfl
@[simp] theorem State.startCommand_inbox (s : State) (w : Word) (left : Nat) :
    (s.startCommand w left).inbox = s.inbox := rfl
@[simp] theorem State.startCommand_reply (s : State) (w : Word) (left : Nat) :
    (s.startCommand w left).reply = s.reply := rfl
@[simp] theorem State.startCommand_draws (s : State) (w : Word) (left : Nat) :
    (s.startCommand w left).draws = s.draws := rfl

/-! ### endCommand: R800 finish -/

@[simp] theorem State.endCommand_ie (s : State) (e : Option CmdError) (na cap : Bool) :
    (s.endCommand e na cap).ie = s.ie := rfl
@[simp] theorem State.endCommand_status (s : State) (e : Option CmdError) (na cap : Bool) :
    (s.endCommand e na cap).status = ⟨true, e, na, cap, s.status.ovr⟩ := rfl
@[simp] theorem State.endCommand_running (s : State) (e : Option CmdError) (na cap : Bool) :
    (s.endCommand e na cap).running = none := rfl
@[simp] theorem State.endCommand_cur (s : State) (e : Option CmdError) (na cap : Bool) :
    (s.endCommand e na cap).cur = s.cur := rfl
@[simp] theorem State.endCommand_n (s : State) (e : Option CmdError) (na cap : Bool) :
    (s.endCommand e na cap).n = s.n := rfl
@[simp] theorem State.endCommand_base (s : State) (e : Option CmdError) (na cap : Bool) :
    (s.endCommand e na cap).base = s.base := rfl
@[simp] theorem State.endCommand_limit (s : State) (e : Option CmdError) (na cap : Bool) :
    (s.endCommand e na cap).limit = s.limit := rfl
@[simp] theorem State.endCommand_data (s : State) (e : Option CmdError) (na cap : Bool) :
    (s.endCommand e na cap).data = s.data := rfl
@[simp] theorem State.endCommand_bitlen (s : State) (e : Option CmdError) (na cap : Bool) :
    (s.endCommand e na cap).bitlen = s.bitlen := rfl
@[simp] theorem State.endCommand_consumed (s : State) (e : Option CmdError) (na cap : Bool) :
    (s.endCommand e na cap).consumed = s.consumed := rfl
@[simp] theorem State.endCommand_svval (s : State) (e : Option CmdError) (na cap : Bool) :
    (s.endCommand e na cap).svval = s.svval := rfl
@[simp] theorem State.endCommand_txtsel (s : State) (e : Option CmdError) (na cap : Bool) :
    (s.endCommand e na cap).txtsel = s.txtsel := rfl
@[simp] theorem State.endCommand_sym (s : State) (e : Option CmdError) (na cap : Bool) :
    (s.endCommand e na cap).sym = s.sym := rfl
@[simp] theorem State.endCommand_blk (s : State) (e : Option CmdError) (na cap : Bool) :
    (s.endCommand e na cap).blk = s.blk := rfl
@[simp] theorem State.endCommand_str (s : State) (e : Option CmdError) (na cap : Bool) :
    (s.endCommand e na cap).str = s.str := rfl
@[simp] theorem State.endCommand_inbox (s : State) (e : Option CmdError) (na cap : Bool) :
    (s.endCommand e na cap).inbox = s.inbox := rfl
@[simp] theorem State.endCommand_reply (s : State) (e : Option CmdError) (na cap : Bool) :
    (s.endCommand e na cap).reply = s.reply := rfl
@[simp] theorem State.endCommand_draws (s : State) (e : Option CmdError) (na cap : Bool) :
    (s.endCommand e na cap).draws = s.draws := rfl

/-! ### setData: a result in DATA (R110) -/

@[simp] theorem State.setData_ie (s : State) (v : Nat) :
    (s.setData v).ie = s.ie := rfl
@[simp] theorem State.setData_status (s : State) (v : Nat) :
    (s.setData v).status = s.status := rfl
@[simp] theorem State.setData_running (s : State) (v : Nat) :
    (s.setData v).running = s.running := rfl
@[simp] theorem State.setData_cur (s : State) (v : Nat) :
    (s.setData v).cur = s.cur := rfl
@[simp] theorem State.setData_n (s : State) (v : Nat) :
    (s.setData v).n = s.n := rfl
@[simp] theorem State.setData_base (s : State) (v : Nat) :
    (s.setData v).base = s.base := rfl
@[simp] theorem State.setData_limit (s : State) (v : Nat) :
    (s.setData v).limit = s.limit := rfl
@[simp] theorem State.setData_data (s : State) (v : Nat) :
    (s.setData v).data = BitVec.ofNat 16 v := rfl
@[simp] theorem State.setData_bitlen (s : State) (v : Nat) :
    (s.setData v).bitlen = s.bitlen := rfl
@[simp] theorem State.setData_consumed (s : State) (v : Nat) :
    (s.setData v).consumed = s.consumed := rfl
@[simp] theorem State.setData_svval (s : State) (v : Nat) :
    (s.setData v).svval = s.svval := rfl
@[simp] theorem State.setData_txtsel (s : State) (v : Nat) :
    (s.setData v).txtsel = s.txtsel := rfl
@[simp] theorem State.setData_sym (s : State) (v : Nat) :
    (s.setData v).sym = s.sym := rfl
@[simp] theorem State.setData_blk (s : State) (v : Nat) :
    (s.setData v).blk = s.blk := rfl
@[simp] theorem State.setData_str (s : State) (v : Nat) :
    (s.setData v).str = s.str := rfl
@[simp] theorem State.setData_inbox (s : State) (v : Nat) :
    (s.setData v).inbox = s.inbox := rfl
@[simp] theorem State.setData_reply (s : State) (v : Nat) :
    (s.setData v).reply = s.reply := rfl
@[simp] theorem State.setData_draws (s : State) (v : Nat) :
    (s.setData v).draws = s.draws := rfl

/-! ### setCur: the cursor moved (R106) -/

@[simp] theorem State.setCur_ie (s : State) (c : Nat) :
    (s.setCur c).ie = s.ie := rfl
@[simp] theorem State.setCur_status (s : State) (c : Nat) :
    (s.setCur c).status = s.status := rfl
@[simp] theorem State.setCur_running (s : State) (c : Nat) :
    (s.setCur c).running = s.running := rfl
@[simp] theorem State.setCur_cur (s : State) (c : Nat) :
    (s.setCur c).cur = BitVec.ofNat 14 c := rfl
@[simp] theorem State.setCur_n (s : State) (c : Nat) :
    (s.setCur c).n = s.n := rfl
@[simp] theorem State.setCur_base (s : State) (c : Nat) :
    (s.setCur c).base = s.base := rfl
@[simp] theorem State.setCur_limit (s : State) (c : Nat) :
    (s.setCur c).limit = s.limit := rfl
@[simp] theorem State.setCur_data (s : State) (c : Nat) :
    (s.setCur c).data = s.data := rfl
@[simp] theorem State.setCur_bitlen (s : State) (c : Nat) :
    (s.setCur c).bitlen = s.bitlen := rfl
@[simp] theorem State.setCur_consumed (s : State) (c : Nat) :
    (s.setCur c).consumed = s.consumed := rfl
@[simp] theorem State.setCur_svval (s : State) (c : Nat) :
    (s.setCur c).svval = s.svval := rfl
@[simp] theorem State.setCur_txtsel (s : State) (c : Nat) :
    (s.setCur c).txtsel = s.txtsel := rfl
@[simp] theorem State.setCur_sym (s : State) (c : Nat) :
    (s.setCur c).sym = s.sym := rfl
@[simp] theorem State.setCur_blk (s : State) (c : Nat) :
    (s.setCur c).blk = s.blk := rfl
@[simp] theorem State.setCur_str (s : State) (c : Nat) :
    (s.setCur c).str = s.str := rfl
@[simp] theorem State.setCur_inbox (s : State) (c : Nat) :
    (s.setCur c).inbox = s.inbox := rfl
@[simp] theorem State.setCur_reply (s : State) (c : Nat) :
    (s.setCur c).reply = s.reply := rfl
@[simp] theorem State.setCur_draws (s : State) (c : Nat) :
    (s.setCur c).draws = s.draws := rfl

/-! ### setStr: STR written (R122) -/

@[simp] theorem State.setStr_ie (s : State) (m : Memory) :
    (s.setStr m).ie = s.ie := rfl
@[simp] theorem State.setStr_status (s : State) (m : Memory) :
    (s.setStr m).status = s.status := rfl
@[simp] theorem State.setStr_running (s : State) (m : Memory) :
    (s.setStr m).running = s.running := rfl
@[simp] theorem State.setStr_cur (s : State) (m : Memory) :
    (s.setStr m).cur = s.cur := rfl
@[simp] theorem State.setStr_n (s : State) (m : Memory) :
    (s.setStr m).n = s.n := rfl
@[simp] theorem State.setStr_base (s : State) (m : Memory) :
    (s.setStr m).base = s.base := rfl
@[simp] theorem State.setStr_limit (s : State) (m : Memory) :
    (s.setStr m).limit = s.limit := rfl
@[simp] theorem State.setStr_data (s : State) (m : Memory) :
    (s.setStr m).data = s.data := rfl
@[simp] theorem State.setStr_bitlen (s : State) (m : Memory) :
    (s.setStr m).bitlen = s.bitlen := rfl
@[simp] theorem State.setStr_consumed (s : State) (m : Memory) :
    (s.setStr m).consumed = s.consumed := rfl
@[simp] theorem State.setStr_svval (s : State) (m : Memory) :
    (s.setStr m).svval = s.svval := rfl
@[simp] theorem State.setStr_txtsel (s : State) (m : Memory) :
    (s.setStr m).txtsel = s.txtsel := rfl
@[simp] theorem State.setStr_sym (s : State) (m : Memory) :
    (s.setStr m).sym = s.sym := rfl
@[simp] theorem State.setStr_blk (s : State) (m : Memory) :
    (s.setStr m).blk = s.blk := rfl
@[simp] theorem State.setStr_str (s : State) (m : Memory) :
    (s.setStr m).str = m := rfl
@[simp] theorem State.setStr_inbox (s : State) (m : Memory) :
    (s.setStr m).inbox = s.inbox := rfl
@[simp] theorem State.setStr_reply (s : State) (m : Memory) :
    (s.setStr m).reply = s.reply := rfl
@[simp] theorem State.setStr_draws (s : State) (m : Memory) :
    (s.setStr m).draws = s.draws := rfl

/-! ### setSym: the symbol table committed (R120) -/

@[simp] theorem State.setSym_ie (s : State) (t : SymTab) :
    (s.setSym t).ie = s.ie := rfl
@[simp] theorem State.setSym_status (s : State) (t : SymTab) :
    (s.setSym t).status = s.status := rfl
@[simp] theorem State.setSym_running (s : State) (t : SymTab) :
    (s.setSym t).running = s.running := rfl
@[simp] theorem State.setSym_cur (s : State) (t : SymTab) :
    (s.setSym t).cur = s.cur := rfl
@[simp] theorem State.setSym_n (s : State) (t : SymTab) :
    (s.setSym t).n = s.n := rfl
@[simp] theorem State.setSym_base (s : State) (t : SymTab) :
    (s.setSym t).base = s.base := rfl
@[simp] theorem State.setSym_limit (s : State) (t : SymTab) :
    (s.setSym t).limit = s.limit := rfl
@[simp] theorem State.setSym_data (s : State) (t : SymTab) :
    (s.setSym t).data = s.data := rfl
@[simp] theorem State.setSym_bitlen (s : State) (t : SymTab) :
    (s.setSym t).bitlen = s.bitlen := rfl
@[simp] theorem State.setSym_consumed (s : State) (t : SymTab) :
    (s.setSym t).consumed = s.consumed := rfl
@[simp] theorem State.setSym_svval (s : State) (t : SymTab) :
    (s.setSym t).svval = s.svval := rfl
@[simp] theorem State.setSym_txtsel (s : State) (t : SymTab) :
    (s.setSym t).txtsel = s.txtsel := rfl
@[simp] theorem State.setSym_sym (s : State) (t : SymTab) :
    (s.setSym t).sym = t := rfl
@[simp] theorem State.setSym_blk (s : State) (t : SymTab) :
    (s.setSym t).blk = s.blk := rfl
@[simp] theorem State.setSym_str (s : State) (t : SymTab) :
    (s.setSym t).str = s.str := rfl
@[simp] theorem State.setSym_inbox (s : State) (t : SymTab) :
    (s.setSym t).inbox = s.inbox := rfl
@[simp] theorem State.setSym_reply (s : State) (t : SymTab) :
    (s.setSym t).reply = s.reply := rfl
@[simp] theorem State.setSym_draws (s : State) (t : SymTab) :
    (s.setSym t).draws = s.draws := rfl

/-! ### commitCoded: an encoder's commit -/

@[simp] theorem State.commitCoded_ie (s : State) (c : Coded) (m : Memory) (k : Nat) :
    (s.commitCoded c m k).ie = s.ie := rfl
@[simp] theorem State.commitCoded_status (s : State) (c : Coded) (m : Memory) (k : Nat) :
    (s.commitCoded c m k).status = s.status := rfl
@[simp] theorem State.commitCoded_running (s : State) (c : Coded) (m : Memory) (k : Nat) :
    (s.commitCoded c m k).running = s.running := rfl
@[simp] theorem State.commitCoded_cur (s : State) (c : Coded) (m : Memory) (k : Nat) :
    (s.commitCoded c m k).cur = BitVec.ofNat 14 k := rfl
@[simp] theorem State.commitCoded_n (s : State) (c : Coded) (m : Memory) (k : Nat) :
    (s.commitCoded c m k).n = s.n := rfl
@[simp] theorem State.commitCoded_base (s : State) (c : Coded) (m : Memory) (k : Nat) :
    (s.commitCoded c m k).base = s.base := rfl
@[simp] theorem State.commitCoded_limit (s : State) (c : Coded) (m : Memory) (k : Nat) :
    (s.commitCoded c m k).limit = s.limit := rfl
@[simp] theorem State.commitCoded_data (s : State) (c : Coded) (m : Memory) (k : Nat) :
    (s.commitCoded c m k).data = s.data := rfl
@[simp] theorem State.commitCoded_bitlen (s : State) (c : Coded) (m : Memory) (k : Nat) :
    (s.commitCoded c m k).bitlen = BitVec.ofNat 14 c.total := rfl
@[simp] theorem State.commitCoded_consumed (s : State) (c : Coded) (m : Memory) (k : Nat) :
    (s.commitCoded c m k).consumed = BitVec.ofNat 10 c.consumed := rfl
@[simp] theorem State.commitCoded_svval (s : State) (c : Coded) (m : Memory) (k : Nat) :
    (s.commitCoded c m k).svval = c.svval := rfl
@[simp] theorem State.commitCoded_txtsel (s : State) (c : Coded) (m : Memory) (k : Nat) :
    (s.commitCoded c m k).txtsel = c.txtsel := rfl
@[simp] theorem State.commitCoded_sym (s : State) (c : Coded) (m : Memory) (k : Nat) :
    (s.commitCoded c m k).sym = c.sym := rfl
@[simp] theorem State.commitCoded_blk (s : State) (c : Coded) (m : Memory) (k : Nat) :
    (s.commitCoded c m k).blk = s.blk := rfl
@[simp] theorem State.commitCoded_str (s : State) (c : Coded) (m : Memory) (k : Nat) :
    (s.commitCoded c m k).str = m := rfl
@[simp] theorem State.commitCoded_inbox (s : State) (c : Coded) (m : Memory) (k : Nat) :
    (s.commitCoded c m k).inbox = s.inbox := rfl
@[simp] theorem State.commitCoded_reply (s : State) (c : Coded) (m : Memory) (k : Nat) :
    (s.commitCoded c m k).reply = s.reply := rfl
@[simp] theorem State.commitCoded_draws (s : State) (c : Coded) (m : Memory) (k : Nat) :
    (s.commitCoded c m k).draws = s.draws := rfl

/-! ### commitDecoded: a decoder's commit -/

@[simp] theorem State.commitDecoded_ie (s : State) (out : List Byte) (k : Nat) :
    (s.commitDecoded out k).ie = s.ie := rfl
@[simp] theorem State.commitDecoded_status (s : State) (out : List Byte) (k : Nat) :
    (s.commitDecoded out k).status = s.status := rfl
@[simp] theorem State.commitDecoded_running (s : State) (out : List Byte) (k : Nat) :
    (s.commitDecoded out k).running = s.running := rfl
@[simp] theorem State.commitDecoded_cur (s : State) (out : List Byte) (k : Nat) :
    (s.commitDecoded out k).cur = BitVec.ofNat 14 k := rfl
@[simp] theorem State.commitDecoded_n (s : State) (out : List Byte) (k : Nat) :
    (s.commitDecoded out k).n = s.n := rfl
@[simp] theorem State.commitDecoded_base (s : State) (out : List Byte) (k : Nat) :
    (s.commitDecoded out k).base = s.base := rfl
@[simp] theorem State.commitDecoded_limit (s : State) (out : List Byte) (k : Nat) :
    (s.commitDecoded out k).limit = s.limit := rfl
@[simp] theorem State.commitDecoded_data (s : State) (out : List Byte) (k : Nat) :
    (s.commitDecoded out k).data = s.data := rfl
@[simp] theorem State.commitDecoded_bitlen (s : State) (out : List Byte) (k : Nat) :
    (s.commitDecoded out k).bitlen = BitVec.ofNat 14 (k - s.cur.toNat) := rfl
@[simp] theorem State.commitDecoded_consumed (s : State) (out : List Byte) (k : Nat) :
    (s.commitDecoded out k).consumed = s.n := rfl
@[simp] theorem State.commitDecoded_svval (s : State) (out : List Byte) (k : Nat) :
    (s.commitDecoded out k).svval = s.svval := rfl
@[simp] theorem State.commitDecoded_txtsel (s : State) (out : List Byte) (k : Nat) :
    (s.commitDecoded out k).txtsel = s.txtsel := rfl
@[simp] theorem State.commitDecoded_sym (s : State) (out : List Byte) (k : Nat) :
    (s.commitDecoded out k).sym = s.sym := rfl
@[simp] theorem State.commitDecoded_blk (s : State) (out : List Byte) (k : Nat) :
    (s.commitDecoded out k).blk = s.blk.writeBytes s.base.toNat out := rfl
@[simp] theorem State.commitDecoded_str (s : State) (out : List Byte) (k : Nat) :
    (s.commitDecoded out k).str = s.str := rfl
@[simp] theorem State.commitDecoded_inbox (s : State) (out : List Byte) (k : Nat) :
    (s.commitDecoded out k).inbox = s.inbox := rfl
@[simp] theorem State.commitDecoded_reply (s : State) (out : List Byte) (k : Nat) :
    (s.commitDecoded out k).reply = s.reply := rfl
@[simp] theorem State.commitDecoded_draws (s : State) (out : List Byte) (k : Nat) :
    (s.commitDecoded out k).draws = s.draws := rfl

/-! ### onlyStatus: a command with no effect but on STATUS (R800) -/

@[simp] theorem State.onlyStatus_ie (s : State) (e : Option CmdError) (na : Bool) :
    (s.onlyStatus e na).ie = s.ie := rfl
@[simp] theorem State.onlyStatus_status (s : State) (e : Option CmdError) (na : Bool) :
    (s.onlyStatus e na).status = ⟨true, e, na, false, s.status.ovr⟩ := rfl
@[simp] theorem State.onlyStatus_running (s : State) (e : Option CmdError) (na : Bool) :
    (s.onlyStatus e na).running = none := rfl
@[simp] theorem State.onlyStatus_cur (s : State) (e : Option CmdError) (na : Bool) :
    (s.onlyStatus e na).cur = s.cur := rfl
@[simp] theorem State.onlyStatus_n (s : State) (e : Option CmdError) (na : Bool) :
    (s.onlyStatus e na).n = s.n := rfl
@[simp] theorem State.onlyStatus_base (s : State) (e : Option CmdError) (na : Bool) :
    (s.onlyStatus e na).base = s.base := rfl
@[simp] theorem State.onlyStatus_limit (s : State) (e : Option CmdError) (na : Bool) :
    (s.onlyStatus e na).limit = s.limit := rfl
@[simp] theorem State.onlyStatus_data (s : State) (e : Option CmdError) (na : Bool) :
    (s.onlyStatus e na).data = s.data := rfl
@[simp] theorem State.onlyStatus_bitlen (s : State) (e : Option CmdError) (na : Bool) :
    (s.onlyStatus e na).bitlen = s.bitlen := rfl
@[simp] theorem State.onlyStatus_consumed (s : State) (e : Option CmdError) (na : Bool) :
    (s.onlyStatus e na).consumed = s.consumed := rfl
@[simp] theorem State.onlyStatus_svval (s : State) (e : Option CmdError) (na : Bool) :
    (s.onlyStatus e na).svval = s.svval := rfl
@[simp] theorem State.onlyStatus_txtsel (s : State) (e : Option CmdError) (na : Bool) :
    (s.onlyStatus e na).txtsel = s.txtsel := rfl
@[simp] theorem State.onlyStatus_sym (s : State) (e : Option CmdError) (na : Bool) :
    (s.onlyStatus e na).sym = s.sym := rfl
@[simp] theorem State.onlyStatus_blk (s : State) (e : Option CmdError) (na : Bool) :
    (s.onlyStatus e na).blk = s.blk := rfl
@[simp] theorem State.onlyStatus_str (s : State) (e : Option CmdError) (na : Bool) :
    (s.onlyStatus e na).str = s.str := rfl
@[simp] theorem State.onlyStatus_inbox (s : State) (e : Option CmdError) (na : Bool) :
    (s.onlyStatus e na).inbox = s.inbox := rfl
@[simp] theorem State.onlyStatus_reply (s : State) (e : Option CmdError) (na : Bool) :
    (s.onlyStatus e na).reply = s.reply := rfl
@[simp] theorem State.onlyStatus_draws (s : State) (e : Option CmdError) (na : Bool) :
    (s.onlyStatus e na).draws = s.draws := rfl

/-! ### succeeded: a command that succeeded (R800) -/

@[simp] theorem State.succeeded_ie (s : State) (cap : Bool) :
    (s.succeeded cap).ie = s.ie := rfl
@[simp] theorem State.succeeded_status (s : State) (cap : Bool) :
    (s.succeeded cap).status = ⟨true, none, false, cap, s.status.ovr⟩ := rfl
@[simp] theorem State.succeeded_running (s : State) (cap : Bool) :
    (s.succeeded cap).running = none := rfl
@[simp] theorem State.succeeded_cur (s : State) (cap : Bool) :
    (s.succeeded cap).cur = s.cur := rfl
@[simp] theorem State.succeeded_n (s : State) (cap : Bool) :
    (s.succeeded cap).n = s.n := rfl
@[simp] theorem State.succeeded_base (s : State) (cap : Bool) :
    (s.succeeded cap).base = s.base := rfl
@[simp] theorem State.succeeded_limit (s : State) (cap : Bool) :
    (s.succeeded cap).limit = s.limit := rfl
@[simp] theorem State.succeeded_data (s : State) (cap : Bool) :
    (s.succeeded cap).data = s.data := rfl
@[simp] theorem State.succeeded_bitlen (s : State) (cap : Bool) :
    (s.succeeded cap).bitlen = s.bitlen := rfl
@[simp] theorem State.succeeded_consumed (s : State) (cap : Bool) :
    (s.succeeded cap).consumed = s.consumed := rfl
@[simp] theorem State.succeeded_svval (s : State) (cap : Bool) :
    (s.succeeded cap).svval = s.svval := rfl
@[simp] theorem State.succeeded_txtsel (s : State) (cap : Bool) :
    (s.succeeded cap).txtsel = s.txtsel := rfl
@[simp] theorem State.succeeded_sym (s : State) (cap : Bool) :
    (s.succeeded cap).sym = s.sym := rfl
@[simp] theorem State.succeeded_blk (s : State) (cap : Bool) :
    (s.succeeded cap).blk = s.blk := rfl
@[simp] theorem State.succeeded_str (s : State) (cap : Bool) :
    (s.succeeded cap).str = s.str := rfl
@[simp] theorem State.succeeded_inbox (s : State) (cap : Bool) :
    (s.succeeded cap).inbox = s.inbox := rfl
@[simp] theorem State.succeeded_reply (s : State) (cap : Bool) :
    (s.succeeded cap).reply = s.reply := rfl
@[simp] theorem State.succeeded_draws (s : State) (cap : Bool) :
    (s.succeeded cap).draws = s.draws := rfl

/-! ### answer: the port's answer (R213) -/

@[simp] theorem State.answer_ie (s : State) (r : Reply) :
    (s.answer r).ie = s.ie := rfl
@[simp] theorem State.answer_status (s : State) (r : Reply) :
    (s.answer r).status = s.status := rfl
@[simp] theorem State.answer_running (s : State) (r : Reply) :
    (s.answer r).running = s.running := rfl
@[simp] theorem State.answer_cur (s : State) (r : Reply) :
    (s.answer r).cur = s.cur := rfl
@[simp] theorem State.answer_n (s : State) (r : Reply) :
    (s.answer r).n = s.n := rfl
@[simp] theorem State.answer_base (s : State) (r : Reply) :
    (s.answer r).base = s.base := rfl
@[simp] theorem State.answer_limit (s : State) (r : Reply) :
    (s.answer r).limit = s.limit := rfl
@[simp] theorem State.answer_data (s : State) (r : Reply) :
    (s.answer r).data = s.data := rfl
@[simp] theorem State.answer_bitlen (s : State) (r : Reply) :
    (s.answer r).bitlen = s.bitlen := rfl
@[simp] theorem State.answer_consumed (s : State) (r : Reply) :
    (s.answer r).consumed = s.consumed := rfl
@[simp] theorem State.answer_svval (s : State) (r : Reply) :
    (s.answer r).svval = s.svval := rfl
@[simp] theorem State.answer_txtsel (s : State) (r : Reply) :
    (s.answer r).txtsel = s.txtsel := rfl
@[simp] theorem State.answer_sym (s : State) (r : Reply) :
    (s.answer r).sym = s.sym := rfl
@[simp] theorem State.answer_blk (s : State) (r : Reply) :
    (s.answer r).blk = s.blk := rfl
@[simp] theorem State.answer_str (s : State) (r : Reply) :
    (s.answer r).str = s.str := rfl
@[simp] theorem State.answer_inbox (s : State) (r : Reply) :
    (s.answer r).inbox = s.inbox := rfl
@[simp] theorem State.answer_reply (s : State) (r : Reply) :
    (s.answer r).reply = r := rfl
@[simp] theorem State.answer_draws (s : State) (r : Reply) :
    (s.answer r).draws = s.draws := rfl

/-! ### setOvr: a lost write (R808) -/

@[simp] theorem State.setOvr_ie (s : State) :
    s.setOvr.ie = s.ie := rfl
@[simp] theorem State.setOvr_status (s : State) :
    s.setOvr.status = { s.status with ovr := true } := rfl
@[simp] theorem State.setOvr_running (s : State) :
    s.setOvr.running = s.running := rfl
@[simp] theorem State.setOvr_cur (s : State) :
    s.setOvr.cur = s.cur := rfl
@[simp] theorem State.setOvr_n (s : State) :
    s.setOvr.n = s.n := rfl
@[simp] theorem State.setOvr_base (s : State) :
    s.setOvr.base = s.base := rfl
@[simp] theorem State.setOvr_limit (s : State) :
    s.setOvr.limit = s.limit := rfl
@[simp] theorem State.setOvr_data (s : State) :
    s.setOvr.data = s.data := rfl
@[simp] theorem State.setOvr_bitlen (s : State) :
    s.setOvr.bitlen = s.bitlen := rfl
@[simp] theorem State.setOvr_consumed (s : State) :
    s.setOvr.consumed = s.consumed := rfl
@[simp] theorem State.setOvr_svval (s : State) :
    s.setOvr.svval = s.svval := rfl
@[simp] theorem State.setOvr_txtsel (s : State) :
    s.setOvr.txtsel = s.txtsel := rfl
@[simp] theorem State.setOvr_sym (s : State) :
    s.setOvr.sym = s.sym := rfl
@[simp] theorem State.setOvr_blk (s : State) :
    s.setOvr.blk = s.blk := rfl
@[simp] theorem State.setOvr_str (s : State) :
    s.setOvr.str = s.str := rfl
@[simp] theorem State.setOvr_inbox (s : State) :
    s.setOvr.inbox = s.inbox := rfl
@[simp] theorem State.setOvr_reply (s : State) :
    s.setOvr.reply = s.reply := rfl
@[simp] theorem State.setOvr_draws (s : State) :
    s.setOvr.draws = s.draws := rfl

end Sys2Proof.Machine
end

