-- ==== Sys2Proof/Laws/Ops.lean ====
section
/-! SUPPORT. What the shared ends of a command can do: `complete`, the encoders' `emit` and the decoders'
`deliver` (R800, R804, R806, R810). Proofs about a command cite these and never unfold them. -/

namespace Sys2Proof.Machine

/-! ### Outcomes -/

@[simp] theorem State.raiseError_eq (s : State) (e : CmdError) :
    s.raiseError e = s.onlyStatus (some e) false := rfl

@[simp] theorem State.decline_eq (s : State) : s.decline = s.onlyStatus none true := rfl

@[simp] theorem State.endCommand_ok (t : State) (cap : Bool) :
    t.endCommand none false cap = t.succeeded cap := rfl

@[simp] theorem complete_commit (s t : State) (cap : Bool) :
    complete s (.commit t cap) = .next (t.succeeded cap) := rfl

@[simp] theorem complete_raise (s : State) (e : CmdError) :
    complete s (.raise e) = .next (s.onlyStatus (some e) false) := rfl

@[simp] theorem complete_notApplicable (s : State) :
    complete s .notApplicable = .next (s.onlyStatus none true) := rfl

/-- Everything the end of a command can answer. -/
theorem complete_cases {s t : State} {b : Body} (h : complete s b = .next t) :
    (∃ u cap, b = .commit u cap ∧ t = u.succeeded cap) ∨
    (∃ e, b = .raise e ∧ t = s.onlyStatus (some e) false) ∨
    (b = .notApplicable ∧ t = s.onlyStatus none true) := by
  cases b with
  | commit u cap => cases h; exact .inl ⟨u, cap, rfl, rfl⟩
  | raise e => cases h; exact .inr (.inl ⟨e, rfl, rfl⟩)
  | notApplicable => cases h; exact .inr (.inr ⟨rfl, rfl⟩)

/-! ### Block check -/

theorem State.blockOk_iff (s : State) (maxn : Nat) : s.blockOk maxn = true ↔ s.legalBlock maxn := by
  simp only [State.blockOk, State.legalBlock, Bool.and_eq_true, decide_eq_true_eq, and_assoc,
    show Config.blkBytes = 512 from rfl]

@[simp] theorem State.length_block (s : State) : s.block.length = s.n.toNat := by
  simp [State.block]

theorem State.getElem_block (s : State) (i : Nat) (h : i < s.block.length) :
    s.block[i] = s.blkByte (s.base.toNat + i) := by
  simp [State.block, Memory.getElem_bytes, State.blkByte]

/-! ### Field widths -/

theorem fieldWidth_legal {nb : BitVec 4} (h : legalWidth nb = true) : fieldWidth nb = some nb.toNat := by
  simp only [legalWidth, Bool.and_eq_true, decide_eq_true_eq] at h
  simp only [fieldWidth]
  rw [if_neg (by omega)]

theorem fieldWidth_illegal {nb : BitVec 4} (h : legalWidth nb = false) : fieldWidth nb = none := by
  simp only [legalWidth, Bool.and_eq_false_iff, decide_eq_false_iff_not] at h
  simp only [fieldWidth]
  rw [if_pos (by omega)]

/-! ### Encoders -/

/-- The encoder declines: its total is above a LIMIT that is not 0 (R806). -/
theorem emit_limit {s : State} {c : Coded} (h0 : s.limit.toNat ≠ 0) (h : s.limit.toNat < c.total) :
    emit s c = .notApplicable := by
  unfold emit; rw [if_pos ⟨h0, h⟩]

/-- The encoder's whole output would pass the end of STR (R804 (b)); LIMIT came first (R810). -/
theorem emit_range {s : State} {c : Coded} (hl : s.limit.toNat = 0 ∨ c.total ≤ s.limit.toNat)
    (h : 8192 < s.cur.toNat + c.total) : emit s c = .raise .range := by
  unfold emit; rw [if_neg (by omega), if_pos (by simpa using h)]

/-- The encoder writes and commits. -/
theorem emit_ok {s : State} {c : Coded} (hl : s.limit.toNat = 0 ∨ c.total ≤ s.limit.toNat)
    (h : s.cur.toNat + c.total ≤ 8192) (hw : fieldsWidth c.fields = c.total) :
    emit s c =
      .commit (s.commitCoded c (putAll s.str s.cur.toNat c.fields) (s.cur.toNat + c.total)) c.capped := by
  unfold emit
  rw [if_neg (by omega), if_neg (by simpa using h), putFields_ok (by omega), hw]

/-- Everything an encoder's end can do. -/
theorem emit_cases (s : State) (c : Coded) (hw : fieldsWidth c.fields = c.total) :
    (s.limit.toNat ≠ 0 ∧ s.limit.toNat < c.total ∧ emit s c = .notApplicable) ∨
    ((s.limit.toNat = 0 ∨ c.total ≤ s.limit.toNat) ∧ 8192 < s.cur.toNat + c.total ∧
      emit s c = .raise .range) ∨
    ((s.limit.toNat = 0 ∨ c.total ≤ s.limit.toNat) ∧ s.cur.toNat + c.total ≤ 8192 ∧
      emit s c =
        .commit (s.commitCoded c (putAll s.str s.cur.toNat c.fields) (s.cur.toNat + c.total))
          c.capped) := by
  by_cases h0 : s.limit.toNat ≠ 0 ∧ s.limit.toNat < c.total
  · exact .inl ⟨h0.1, h0.2, emit_limit h0.1 h0.2⟩
  · have hl : s.limit.toNat = 0 ∨ c.total ≤ s.limit.toNat := by omega
    by_cases hr : 8192 < s.cur.toNat + c.total
    · exact .inr (.inl ⟨hl, hr, emit_range hl hr⟩)
    · exact .inr (.inr ⟨hl, by omega, emit_ok hl (by omega) hw⟩)

/-! ### Decoders -/

/-- Everything a decoder's end can do. -/
theorem deliver_cases (s : State) (r : Except CmdError (List Byte × Nat)) :
    (∃ e, r = .error e ∧ deliver s r = .raise e) ∨
    (∃ out cur, r = .ok (out, cur) ∧ deliver s r = .commit (s.commitDecoded out cur) false) := by
  cases r with
  | error e => exact .inl ⟨e, rfl, rfl⟩
  | ok p => exact .inr ⟨p.1, p.2, rfl, rfl⟩

end Sys2Proof.Machine
end

