-- ==== Sys2Proof/Laws/PerInstr.lean ====
section
/-! SUPPORT. What holds of every command as syntax, one lemma per constructor: the low byte of its word is
its opcode, and the opcode map has a row for it (30_encoding.md R300, R303). -/

namespace Sys2Proof.Laws.OpcodeByte

/-- R300: bits 7:0 of a command's word are its opcode; R303: the map has a row for that opcode. -/
def Statement (i : Instr) : Prop := opcodeField (encode i) = i.opcode ∧ (opRow i.opcode).isSome = true

/-- The low byte of a word whose operand bits stand above bit 7. -/
theorem opcodeField_encode_of {i : Instr} (h : i.operandBits.extractLsb' 0 8 = 0#8) :
    opcodeField (encode i) = i.opcode := by
  unfold opcodeField encode
  rw [BitVec.extractLsb'_or, h, BitVec.or_zero]
  apply BitVec.eq_of_toNat_eq
  simp only [BitVec.extractLsb'_toNat, BitVec.toNat_setWidth, Nat.shiftRight_zero]
  have := i.opcode.isLt
  omega

/-- A field shifted above bit 7 leaves the low byte 0. -/
theorem low_shift {n : Nat} (x : BitVec n) {k : Nat} (hk : 8 ≤ k) :
    ((x.setWidth 32 <<< k : Word)).extractLsb' 0 8 = 0#8 := by
  apply BitVec.eq_of_getLsbD_eq
  intro i hi
  simp only [BitVec.getLsbD_extractLsb', BitVec.getLsbD_shiftLeft]
  simp
  intro _ h
  omega

theorem nop : Statement .nop := by unfold Statement; decide
theorem putbits (val : BitVec 9) (nb : BitVec 4) : Statement (.putbits val nb) :=
  ⟨opcodeField_encode_of (by
    rw [Instr.operandBits, BitVec.extractLsb'_or, low_shift nb (by omega), low_shift val (by omega)]
    decide), rfl⟩
theorem getbits (nb : BitVec 4) : Statement (.getbits nb) :=
  ⟨opcodeField_encode_of (low_shift nb (by omega)), rfl⟩
theorem peekbits (nb : BitVec 4) : Statement (.peekbits nb) :=
  ⟨opcodeField_encode_of (low_shift nb (by omega)), rfl⟩
theorem symrst : Statement .symrst := by unfold Statement; decide
theorem symscan (lim : BitVec 10) : Statement (.symscan lim) :=
  ⟨opcodeField_encode_of (low_shift lim (by omega)), rfl⟩
theorem rdrank (idx : BitVec 8) : Statement (.rdrank idx) :=
  ⟨opcodeField_encode_of (low_shift idx (by omega)), rfl⟩
theorem rduniq (idx : BitVec 8) : Statement (.rduniq idx) :=
  ⟨opcodeField_encode_of (low_shift idx (by omega)), rfl⟩
theorem rdocc (idx : BitVec 8) : Statement (.rdocc idx) :=
  ⟨opcodeField_encode_of (low_shift idx (by omega)), rfl⟩
theorem fwenc : Statement .fwenc := by unfold Statement; decide
theorem fwdec : Statement .fwdec := by unfold Statement; decide
theorem svenc : Statement .svenc := by unfold Statement; decide
theorem svdec : Statement .svdec := by unfold Statement; decide
theorem p7enc : Statement .p7enc := by unfold Statement; decide
theorem p7dec : Statement .p7dec := by unfold Statement; decide
theorem txtenc (ad : Bool) : Statement (.txtenc ad) :=
  ⟨opcodeField_encode_of (low_shift (BitVec.ofBool ad) (by omega)), rfl⟩
theorem txtdec : Statement .txtdec := by unfold Statement; decide
theorem strenc : Statement .strenc := by unfold Statement; decide
theorem strdec : Statement .strdec := by unfold Statement; decide
theorem xstrenc : Statement .xstrenc := by unfold Statement; decide
theorem xstrdec : Statement .xstrdec := by unfold Statement; decide

end Sys2Proof.Laws.OpcodeByte
end

