-- ==== Sys2Proof/Laws/Scanner.lean ====
section
/-! SUPPORT. What scanning does to the symbol table (41_symbol_table.md R451, R452, R460): the fields after
one ScanByte, that the rebuild ranks a block by first occurrence, and that scanning keeps R121. -/

namespace Sys2Proof.Machine

/-! ### Counting distinct values -/

theorem distinct_eq_card (x : List Byte) : distinct x = x.toFinset.card := (List.card_toFinset x).symm

theorem distinct_snoc (x : List Byte) (v : Byte) :
    distinct (x ++ [v]) = distinct x + if v ∈ x then 0 else 1 := by
  rw [distinct_eq_card, distinct_eq_card, List.toFinset_append]
  have hv : ([v] : List Byte).toFinset = {v} := by simp
  rw [hv, Finset.union_comm, ← Finset.insert_eq]
  by_cases h : v ∈ x
  · rw [Finset.insert_eq_of_mem (by simpa using h)]; simp [h]
  · rw [Finset.card_insert_of_notMem (by simpa using h)]; simp [h]

theorem card_le_256 (s : Finset Byte) : s.card ≤ 256 := by
  have : s.card = (s.image BitVec.toNat).card :=
    (Finset.card_image_of_injective s fun a b h => BitVec.eq_of_toNat_eq h).symm
  rw [this]
  have hsub : s.image BitVec.toNat ⊆ Finset.range 256 := by
    intro k hk
    obtain ⟨b, -, rfl⟩ := Finset.mem_image.1 hk
    exact Finset.mem_range.2 b.isLt
  simpa using Finset.card_le_card hsub

theorem distinct_le (x : List Byte) : distinct x ≤ 256 := by
  rw [distinct_eq_card]; exact card_le_256 _

/-- A value not met yet leaves room for its rank. -/
theorem distinct_lt {x : List Byte} {v : Byte} (h : v ∉ x) : distinct x < 256 := by
  have h1 := distinct_snoc x v
  have h2 := distinct_le (x ++ [v])
  rw [if_neg h] at h1
  omega

theorem distinct_le_length (x : List Byte) : distinct x ≤ x.length := (List.dedup_sublist x).length_le

theorem distinct_pos {x : List Byte} (h : x ≠ []) : 1 ≤ distinct x := by
  rw [distinct_eq_card, Nat.succ_le_iff, Finset.card_pos]
  obtain ⟨v, hv⟩ := List.exists_mem_of_ne_nil x h
  exact ⟨v, by simpa using hv⟩

/-! ### One ScanByte -/

theorem SymTab.seenAt_scanByte (t : SymTab) (v w : Byte) :
    (t.scanByte v).seenAt w = (t.seenAt w || decide (w = v)) := by
  simp only [SymTab.scanByte, SymTab.noteFirst, SymTab.seenAt]
  by_cases hv : t.seen[v.toNat] = true
  · simp only [hv, if_true]
    by_cases hw : w = v
    · subst hw; simp [hv]
    · simp [hw]
  · simp only [hv]
    by_cases hw : w = v
    · subst hw; simp
    · have : v.toNat ≠ w.toNat := fun h => hw (BitVec.eq_of_toNat_eq h.symm)
      simp [hw, this]

theorem SymTab.rankAt_scanByte (t : SymTab) (v w : Byte) :
    (t.scanByte v).rankAt w =
      if t.seenAt v = false ∧ w = v then t.u.setWidth 8 else t.rankAt w := by
  simp only [SymTab.scanByte, SymTab.noteFirst, SymTab.seenAt, SymTab.rankAt]
  by_cases hv : t.seen[v.toNat] = true
  · simp [hv]
  · by_cases hw : w = v
    · subst hw; simp [hv]
    · have : v.toNat ≠ w.toNat := fun h => hw (BitVec.eq_of_toNat_eq h.symm)
      simp [hv, hw, this]

theorem SymTab.uniqAt_scanByte (t : SymTab) (v r : Byte) :
    (t.scanByte v).uniqAt r =
      if t.seenAt v = false ∧ r.toNat = t.u.toNat then v else t.uniqAt r := by
  simp only [SymTab.scanByte, SymTab.noteFirst, SymTab.seenAt, SymTab.uniqAt]
  by_cases hv : t.seen[v.toNat] = true
  · simp [hv]
  · by_cases hr : t.u.toNat = r.toNat
    · simp [hv, hr]
    · simp [hv, hr, Ne.symm hr]

theorem SymTab.u_scanByte (t : SymTab) (v : Byte) :
    (t.scanByte v).u = if t.seenAt v = true then t.u else t.u + 1#9 := by
  simp only [SymTab.scanByte, SymTab.noteFirst, SymTab.seenAt]
  by_cases hv : t.seen[v.toNat] = true <;> simp [hv]

theorem SymTab.occAt_scanByte (t : SymTab) (v w : Byte) :
    (t.scanByte v).occAt w = if w = v then t.occAt w + 1#10 else t.occAt w := by
  have hocc : (t.noteFirst v).occ = t.occ := by
    simp only [SymTab.noteFirst]; split <;> rfl
  simp only [SymTab.scanByte, SymTab.occAt, hocc]
  by_cases hw : w = v
  · subst hw; simp
  · have : v.toNat ≠ w.toNat := fun h => hw (BitVec.eq_of_toNat_eq h.symm)
    simp [hw, this]

@[simp] theorem SymTab.scanpos_scanByte (t : SymTab) (v : Byte) : (t.scanByte v).scanpos = t.scanpos := by
  simp only [SymTab.scanByte, SymTab.noteFirst]; split <;> rfl

theorem SymTab.oracc_scanByte (t : SymTab) (v : Byte) : (t.scanByte v).oracc = t.oracc ||| v := by
  simp only [SymTab.scanByte, SymTab.noteFirst]; split <;> rfl

theorem SymTab.textcnt_scanByte (t : SymTab) (v : Byte) :
    (t.scanByte v).textcnt = if tableT0.contains v = true then t.textcnt + 1#10 else t.textcnt := by
  have h : (t.noteFirst v).textcnt = t.textcnt := by simp only [SymTab.noteFirst]; split <;> rfl
  simp only [SymTab.scanByte, h]

theorem SymTab.scanBytes_append (t : SymTab) (x y : List Byte) :
    t.scanBytes (x ++ y) = (t.scanBytes x).scanBytes y := by
  induction x generalizing t with
  | nil => rfl
  | cons v x ih => exact ih _

theorem SymTab.scanBytes_snoc (t : SymTab) (x : List Byte) (v : Byte) :
    t.scanBytes (x ++ [v]) = (t.scanBytes x).scanByte v := by
  rw [SymTab.scanBytes_append]; rfl

/-! ### The rebuild (R460) -/

theorem take_snoc_of_lt {x : List Byte} {v : Byte} {p : Nat} (h : p ≤ x.length) :
    (x ++ [v]).take p = x.take p := by
  rw [List.take_append_of_le_length h]

/-- Scanning a block of at most 512 bytes from the empty table ranks and counts it, SCANPOS apart. -/
theorem ranksBlock_scanBytes (x : List Byte) (hx : x.length ≤ 512) :
    RanksBlock { symReset.scanBytes x with scanpos := BitVec.ofNat 10 x.length } x := by
  induction x using List.reverseRecOn with
  | nil =>
    have h0 : ∀ v : Byte, (SymTab.zero.seenAt v) = false := by intro v; simp [SymTab.seenAt, SymTab.zero]
    have h1 : ∀ v : Byte, (SymTab.zero.occAt v) = 0#10 := by intro v; simp [SymTab.occAt, SymTab.zero]
    refine ⟨rfl, fun v => ?_, fun p h => absurd h (by simp), fun p h => absurd h (by simp), fun v => ?_,
      rfl, rfl, rfl⟩
    · have := h0 v
      simpa [symReset, SymTab.scanBytes, SymTab.seenAt] using this
    · have := h1 v
      simp only [SymTab.occAt] at this
      simp [symReset, SymTab.scanBytes, SymTab.occAt, this]
  | append_singleton x v ih =>
    simp only [List.length_append, List.length_singleton] at hx
    have ih := ih (by omega)
    have hseen := ih.seen v
    have hbase : ∀ w, SymTab.seenAt { symReset.scanBytes x with scanpos := BitVec.ofNat 10 x.length } w =
      (symReset.scanBytes x).seenAt w := fun _ => rfl
    have hvx : ∀ w, (symReset.scanBytes x).seenAt w = true ↔ w ∈ x := ih.seen
    have hu : (symReset.scanBytes x).u.toNat = distinct x := ih.u
    have hrank : ∀ p (h : p < x.length), x[p] ∉ x.take p →
      ((symReset.scanBytes x).rankAt x[p]).toNat = distinct (x.take p) := ih.rank
    have huniq : ∀ p (h : p < x.length), x[p] ∉ x.take p →
      (symReset.scanBytes x).uniqAt (BitVec.ofNat 8 (distinct (x.take p))) = x[p] := ih.uniq
    have hocc : ∀ w, ((symReset.scanBytes x).occAt w).toNat = x.count w := ih.occ
    have htext : (symReset.scanBytes x).textcnt.toNat = x.countP fun w => tableT0.contains w := ih.textcnt
    have hor : (symReset.scanBytes x).oracc = x.foldl (fun a w => a ||| w) 0#8 := ih.oracc
    have hdlt : ∀ p (h : p < x.length), x[p] ∉ x.take p → distinct (x.take p) < distinct x := by
      intro p h hp
      have h1 : distinct (x.take (p + 1)) = distinct (x.take p) + 1 := by
        rw [List.take_add_one, List.getElem?_eq_getElem h]
        simp only [Option.toList_some]
        rw [distinct_snoc, if_neg hp]
      have h2 : distinct (x.take (p + 1)) ≤ distinct x := by
        rw [distinct_eq_card, distinct_eq_card]
        apply Finset.card_le_card
        intro w hw
        rw [List.mem_toFinset] at hw ⊢
        exact List.mem_of_mem_take hw
      omega
    rw [SymTab.scanBytes_snoc]
    refine ⟨?_, fun w => ?_, fun p h hp => ?_, fun p h hp => ?_, fun w => ?_, ?_, ?_, ?_⟩
    · show ((symReset.scanBytes x).scanByte v).u.toNat = _
      rw [SymTab.u_scanByte, distinct_snoc]
      by_cases hv : v ∈ x
      · rw [if_pos ((hvx v).2 hv), if_pos hv, hu, Nat.add_zero]
      · rw [if_neg (fun h => hv ((hvx v).1 h)), if_neg hv, BitVec.toNat_add, hu]
        have := distinct_lt hv
        simp; omega
    · show ((symReset.scanBytes x).scanByte v).seenAt w = true ↔ _
      rw [SymTab.seenAt_scanByte]
      simp [hvx w]
    · show (((symReset.scanBytes x).scanByte v).rankAt _).toNat = _
      rw [SymTab.rankAt_scanByte]
      simp only [List.length_append, List.length_singleton] at h
      by_cases hpx : p < x.length
      · have he : (x ++ [v])[p] = x[p] := List.getElem_append_left hpx
        rw [he, take_snoc_of_lt (by omega)] at hp
        rw [he, take_snoc_of_lt (by omega), if_neg, hrank p hpx hp]
        rintro ⟨h1, h2⟩
        have : v ∈ x := h2 ▸ List.getElem_mem hpx
        rw [(hvx v).2 this] at h1
        cases h1
      · have hpe : p = x.length := by omega
        subst hpe
        simp only [List.getElem_concat_length, take_snoc_of_lt (le_refl _), List.take_length] at hp ⊢
        have hns : (symReset.scanBytes x).seenAt v = false := by
          cases hs : (symReset.scanBytes x).seenAt v
          · rfl
          · exact absurd ((hvx v).1 hs) hp
        rw [if_pos ⟨hns, trivial⟩, BitVec.toNat_setWidth, hu]
        have := distinct_lt hp
        omega
    · show ((symReset.scanBytes x).scanByte v).uniqAt _ = _
      rw [SymTab.uniqAt_scanByte]
      simp only [List.length_append, List.length_singleton] at h
      by_cases hpx : p < x.length
      · have he : (x ++ [v])[p] = x[p] := List.getElem_append_left hpx
        rw [he, take_snoc_of_lt (by omega)] at hp
        rw [he, take_snoc_of_lt (by omega), if_neg, huniq p hpx hp]
        rintro ⟨h1, h2⟩
        have h3 := hdlt p hpx hp
        have h4 := distinct_le x
        rw [hu, BitVec.toNat_ofNat] at h2
        omega
      · have hpe : p = x.length := by omega
        subst hpe
        simp only [List.getElem_concat_length, take_snoc_of_lt (le_refl _), List.take_length] at hp ⊢
        have hns : (symReset.scanBytes x).seenAt v = false := by
          cases hs : (symReset.scanBytes x).seenAt v
          · rfl
          · exact absurd ((hvx v).1 hs) hp
        have := distinct_lt hp
        rw [if_pos ⟨hns, by rw [hu, BitVec.toNat_ofNat]; omega⟩]
    · show (((symReset.scanBytes x).scanByte v).occAt w).toNat = _
      rw [SymTab.occAt_scanByte, List.count_append, List.count_singleton]
      have hc : x.count w ≤ x.length := List.count_le_length
      by_cases hw : w = v
      · subst hw
        rw [if_pos rfl, BitVec.toNat_add, hocc]
        simp; omega
      · rw [if_neg hw, hocc]
        simp [Ne.symm hw]
    · show (BitVec.ofNat 10 (x ++ [v]).length).toNat = _
      rw [BitVec.toNat_ofNat]
      simp only [List.length_append, List.length_singleton]
      omega
    · show ((symReset.scanBytes x).scanByte v).textcnt.toNat = _
      rw [SymTab.textcnt_scanByte, List.countP_append, List.countP_singleton]
      have hc : x.countP (fun w => tableT0.contains w) ≤ x.length := List.countP_le_length
      by_cases hv : tableT0.contains v = true
      · rw [if_pos hv, if_pos hv, BitVec.toNat_add, htext, BitVec.toNat_ofNat]
        omega
      · rw [if_neg hv, if_neg hv, htext, Nat.add_zero]
    · show ((symReset.scanBytes x).scanByte v).oracc = _
      rw [SymTab.oracc_scanByte, hor]
      simp

/-- The rebuild of R460 over a block of at most 512 bytes. -/
theorem ranksBlock_symRebuild (x : List Byte) (hx : x.length ≤ 512) : RanksBlock (symRebuild x) x :=
  ranksBlock_scanBytes x hx

/-- The rebuild of a state's block. -/
theorem ranksBlock_block (s : State) (h : s.n.toNat ≤ 512) : RanksBlock (symRebuild s.block) s.block :=
  ranksBlock_symRebuild _ (by simpa using h)

/-! ### Scanning keeps R121 -/

/-- Adding one at one index below n adds one to the sum. -/
theorem sum_range_bump {n j : Nat} {f g : Nat → Nat} (hj : j < n)
    (h : ∀ i < n, g i = if i = j then f i + 1 else f i) :
    ((List.range n).map g).sum = ((List.range n).map f).sum + 1 := by
  induction n with
  | zero => omega
  | succ n ih =>
    rw [List.range_succ, List.map_append, List.map_append, List.sum_append, List.sum_append]
    simp only [List.map_cons, List.map_nil, List.sum_cons, List.sum_nil, Nat.add_zero]
    by_cases hjn : j = n
    · have hsame : (List.range n).map g = (List.range n).map f := by
        apply List.map_congr_left
        intro i hi
        have := List.mem_range.1 hi
        rw [h i (by omega), if_neg (by omega)]
      rw [hsame, h n (by omega), if_pos hjn.symm]
      omega
    · rw [ih (by omega) (fun i hi => h i (by omega)), h n (by omega), if_neg (Ne.symm hjn)]
      omega

/-- Turning one index below n from false to true adds one to the count. -/
theorem countP_range_bump {n j : Nat} {f g : Nat → Bool} (hj : j < n) (hf : f j = false)
    (h : ∀ i < n, g i = (f i || decide (i = j))) :
    (List.range n).countP g = (List.range n).countP f + 1 := by
  induction n with
  | zero => omega
  | succ n ih =>
    rw [List.range_succ, List.countP_append, List.countP_append, List.countP_singleton,
      List.countP_singleton]
    by_cases hjn : j = n
    · subst hjn
      have hsame : (List.range j).countP g = (List.range j).countP f := by
        apply List.countP_congr
        intro i hi
        have := List.mem_range.1 hi
        rw [h i (by omega)]
        simp [show i ≠ j by omega]
      rw [hsame, h j (by omega), hf]
      simp
    · rw [ih (by omega) (fun i hi => h i (by omega)), h n (by omega)]
      simp [Ne.symm hjn]
      omega

/-- A table with an unseen value has fewer than 256 uniques. -/
theorem SymTab.Consistent.u_lt {t : SymTab} (h : t.Consistent) {v : Byte} (hv : t.seenAt v = false) :
    t.u.toNat < 256 := by
  rw [← h.card]
  have hb : (List.range 256).countP (fun w => t.seenAt (BitVec.ofNat 8 w) || decide (w = v.toNat)) =
      (List.range 256).countP (fun w => t.seenAt (BitVec.ofNat 8 w)) + 1 :=
    countP_range_bump v.isLt (by simpa using hv) (fun i _ => rfl)
  have hle : (List.range 256).countP (fun w => t.seenAt (BitVec.ofNat 8 w) || decide (w = v.toNat)) ≤ 256 := by
    simpa using List.countP_le_length (l := List.range 256)
      (p := fun w => t.seenAt (BitVec.ofNat 8 w) || decide (w = v.toNat))
  omega

/-- A count is at most the number of bytes scanned. -/
theorem SymTab.Consistent.occ_le {t : SymTab} (h : t.Consistent) (v : Byte) :
    (t.occAt v).toNat ≤ t.scanpos.toNat := by
  rw [← h.occ_sum]
  have hm : (t.occAt v).toNat ∈ (List.range 256).map fun w => (t.occAt (BitVec.ofNat 8 w)).toNat :=
    List.mem_map.2 ⟨v.toNat, List.mem_range.2 v.isLt, by simp⟩
  exact List.single_le_sum (by simp) _ hm

/-- The empty table meets R121. -/
theorem SymTab.consistent_zero : SymTab.zero.Consistent := by
  have hs : ∀ v : Byte, SymTab.zero.seenAt v = false := by intro v; simp [SymTab.seenAt, SymTab.zero]
  have ho : ∀ v : Byte, SymTab.zero.occAt v = 0#10 := by intro v; simp [SymTab.occAt, SymTab.zero]
  refine ⟨?_, fun v hv => ?_, fun r hr => ?_, ?_, fun v => ?_, by decide, by decide⟩
  · simp only [hs, List.countP_false]; rfl
  · rw [hs] at hv; cases hv
  · exact absurd hr (by simp [SymTab.zero])
  · simp only [ho, BitVec.toNat_ofNat, Nat.zero_mod, List.map_const', List.sum_replicate, smul_zero]
    exact (BitVec.toNat_ofNat 10 0).symm
  · rw [hs, ho]; simp

/-- One ScanByte, with SCANPOS moved past the byte, keeps R121. -/
theorem SymTab.Consistent.scanByte {t : SymTab} {k : Nat} (v : Byte) (hk : k < 512)
    (h : SymTab.Consistent { t with scanpos := BitVec.ofNat 10 k }) :
    SymTab.Consistent { t.scanByte v with scanpos := BitVec.ofNat 10 (k + 1) } := by
  have hkk : (BitVec.ofNat 10 k).toNat = k := by rw [BitVec.toNat_ofNat]; omega
  have hkk' : (BitVec.ofNat 10 (k + 1)).toNat = k + 1 := by rw [BitVec.toNat_ofNat]; omega
  have hcard : (List.range 256).countP (fun w => t.seenAt (BitVec.ofNat 8 w)) = t.u.toNat := h.card
  have hrank : ∀ w, t.seenAt w = true →
    (t.rankAt w).toNat < t.u.toNat ∧ t.uniqAt (t.rankAt w) = w := h.rank_lt
  have huniq : ∀ r : Byte, r.toNat < t.u.toNat →
    t.seenAt (t.uniqAt r) = true ∧ t.rankAt (t.uniqAt r) = r := h.uniq_seen
  have hsum : ((List.range 256).map fun w => (t.occAt (BitVec.ofNat 8 w)).toNat).sum = k := by
    rw [← hkk]; exact h.occ_sum
  have hpos : ∀ w, 0 < (t.occAt w).toNat ↔ t.seenAt w = true := h.occ_pos
  have htext : t.textcnt.toNat ≤ k := by rw [← hkk]; exact h.textcnt_le
  have hocc : ∀ w, (t.occAt w).toNat ≤ k := by intro w; rw [← hkk]; exact h.occ_le w
  have hlt : t.seenAt v = false → t.u.toNat < 256 := fun hv => h.u_lt (v := v) hv
  refine ⟨?_, fun w hw => ?_, fun r hr => ?_, ?_, fun w => ?_, ?_, ?_⟩
  · show (List.range 256).countP (fun w => (t.scanByte v).seenAt (BitVec.ofNat 8 w)) =
      (t.scanByte v).u.toNat
    rw [SymTab.u_scanByte]
    cases hv : t.seenAt v
    · have hb : (List.range 256).countP (fun w => (t.scanByte v).seenAt (BitVec.ofNat 8 w)) =
          (List.range 256).countP (fun w => t.seenAt (BitVec.ofNat 8 w)) + 1 := by
        refine countP_range_bump (j := v.toNat) v.isLt (by simpa using hv) fun i hi => ?_
        rw [SymTab.seenAt_scanByte]
        have hiff : (BitVec.ofNat 8 i = v) ↔ i = v.toNat := by
          constructor
          · rintro rfl; simp; omega
          · rintro rfl; simp
        simp only [hiff]
      have := hlt hv
      rw [hb, hcard, if_neg (by simp), BitVec.toNat_add]
      simp; omega
    · rw [if_pos rfl, ← hcard]
      apply List.countP_congr
      intro i hi
      rw [SymTab.seenAt_scanByte]
      by_cases he : BitVec.ofNat 8 i = v
      · rw [he, hv]; simp
      · simp [he]
  · change (t.scanByte v).seenAt w = true at hw
    show ((t.scanByte v).rankAt w).toNat < (t.scanByte v).u.toNat ∧
      (t.scanByte v).uniqAt ((t.scanByte v).rankAt w) = w
    rw [SymTab.seenAt_scanByte] at hw
    rw [SymTab.rankAt_scanByte, SymTab.u_scanByte, SymTab.uniqAt_scanByte]
    cases hv : t.seenAt v
    · have hu := hlt hv
      have hu1 : (t.u + 1#9).toNat = t.u.toNat + 1 := by rw [BitVec.toNat_add]; simp; omega
      by_cases he : w = v
      · subst he
        rw [if_pos ⟨rfl, rfl⟩, if_neg (by simp), hu1, BitVec.toNat_setWidth, if_pos]
        · exact ⟨by omega, rfl⟩
        · exact ⟨rfl, by omega⟩
      · have hw' : t.seenAt w = true := by simpa [he] using hw
        obtain ⟨h1, h2⟩ := hrank w hw'
        rw [if_neg (fun hc => he hc.2), if_neg (by simp), hu1, if_neg (fun hc => by omega)]
        exact ⟨by omega, h2⟩
    · have hw' : t.seenAt w = true := by
        by_cases he : w = v
        · rw [he, hv]
        · simpa [he] using hw
      simpa using hrank w hw'
  · change r.toNat < (t.scanByte v).u.toNat at hr
    show (t.scanByte v).seenAt ((t.scanByte v).uniqAt r) = true ∧
      (t.scanByte v).rankAt ((t.scanByte v).uniqAt r) = r
    rw [SymTab.u_scanByte] at hr
    rw [SymTab.seenAt_scanByte, SymTab.rankAt_scanByte, SymTab.uniqAt_scanByte]
    cases hv : t.seenAt v
    · have hu := hlt hv
      have hu1 : (t.u + 1#9).toNat = t.u.toNat + 1 := by rw [BitVec.toNat_add]; simp; omega
      rw [hv, if_neg (by simp), hu1] at hr
      by_cases he : r.toNat = t.u.toNat
      · rw [if_pos ⟨rfl, he⟩, if_pos ⟨rfl, rfl⟩]
        refine ⟨by simp, ?_⟩
        apply BitVec.eq_of_toNat_eq
        rw [BitVec.toNat_setWidth]
        omega
      · obtain ⟨h1, h2⟩ := huniq r (by omega)
        rw [if_neg (fun hc => he hc.2), h1, if_neg]
        · exact ⟨rfl, h2⟩
        · rintro ⟨-, hc⟩
          rw [hc, hv] at h1
          cases h1
    · rw [hv, if_pos rfl] at hr
      obtain ⟨h1, h2⟩ := huniq r hr
      simp [h1, h2]
  · show ((List.range 256).map fun w => ((t.scanByte v).occAt (BitVec.ofNat 8 w)).toNat).sum =
      (BitVec.ofNat 10 (k + 1)).toNat
    rw [hkk', ← hsum]
    refine sum_range_bump (j := v.toNat) v.isLt fun i hi => ?_
    rw [SymTab.occAt_scanByte]
    by_cases he : i = v.toNat
    · subst he
      have := hocc v
      simp only [BitVec.ofNat_toNat, BitVec.setWidth_eq, if_true]
      rw [BitVec.toNat_add]; simp; omega
    · rw [if_neg he, if_neg]
      rintro rfl
      exact he (by simp; omega)
  · show 0 < ((t.scanByte v).occAt w).toNat ↔ (t.scanByte v).seenAt w = true
    rw [SymTab.occAt_scanByte, SymTab.seenAt_scanByte]
    by_cases he : w = v
    · subst he
      have := hocc w
      rw [if_pos rfl, BitVec.toNat_add]
      simp; omega
    · rw [if_neg he]
      simpa [he] using hpos w
  · show (BitVec.ofNat 10 (k + 1)).toNat ≤ 512
    omega
  · show (t.scanByte v).textcnt.toNat ≤ (BitVec.ofNat 10 (k + 1)).toNat
    rw [hkk', SymTab.textcnt_scanByte]
    split
    · rw [BitVec.toNat_add, BitVec.toNat_ofNat]; omega
    · omega

/-- Scanning bytes, with SCANPOS moved past them, keeps R121. -/
theorem SymTab.Consistent.scanBytes (x : List Byte) {t : SymTab} {k : Nat} (hk : k + x.length ≤ 512)
    (h : SymTab.Consistent { t with scanpos := BitVec.ofNat 10 k }) :
    SymTab.Consistent { t.scanBytes x with scanpos := BitVec.ofNat 10 (k + x.length) } := by
  induction x generalizing t k with
  | nil => exact h
  | cons v x ih =>
    simp only [List.length_cons] at hk ⊢
    have := ih (t := t.scanByte v) (k := k + 1) (by omega) (h.scanByte v (by omega))
    rwa [show k + 1 + x.length = k + (x.length + 1) by omega] at this

/-- The rebuild of R460 meets R121. -/
theorem SymTab.consistent_symRebuild (x : List Byte) (hx : x.length ≤ 512) :
    (symRebuild x).Consistent := by
  have := SymTab.Consistent.scanBytes x (t := SymTab.zero) (k := 0) (by omega) SymTab.consistent_zero
  rwa [Nat.zero_add] at this

/-- SYMSCAN's scan (R452) keeps R121, whatever the block and the limit. -/
theorem SymTab.consistent_scanTo (s : State) (stop : Nat) (hstop : stop ≤ 512) (h : s.sym.Consistent) :
    (scanTo s stop).Consistent := by
  have hp := h.scanpos_le
  have h0 : SymTab.Consistent { s.sym with scanpos := BitVec.ofNat 10 s.sym.scanpos.toNat } := by
    simpa using h
  have := SymTab.Consistent.scanBytes
    (s.blk.bytes Config.powerOnBlk (s.base.toNat + s.sym.scanpos.toNat) (stop - s.sym.scanpos.toNat))
    (by simp; omega) h0
  simp only [scanTo]
  rwa [Memory.length_bytes, show s.sym.scanpos.toNat + (stop - s.sym.scanpos.toNat) =
    max s.sym.scanpos.toNat stop by omega] at this

end Sys2Proof.Machine
end

