-- ==== Sys2Proof/Laws/Streams.lean ====
section
/-! SUPPORT. The streams of the coders (30_encoding.md R309): what an encoder's fields leave in STR, that a
decoder reads them back, and that every encoder's `total` is the width of its fields (R500, R550, R600,
R661, R709, R751). -/

namespace Sys2Proof.Machine

/-! ### Holding a list of fields -/

/-- Every value fits its width. -/
def FieldsFit (fs : List Field) : Prop := ∀ f ∈ fs, f.value < 2 ^ f.width

@[simp] theorem streamHolds_nil (m : Memory) (p : Nat) : StreamHolds m p [] := trivial

@[simp] theorem streamHolds_cons (m : Memory) (p : Nat) (f : Field) (fs : List Field) :
    StreamHolds m p (f :: fs) ↔ readField m p f.width = f.value ∧ StreamHolds m (p + f.width) fs :=
  Iff.rfl

theorem streamHolds_append (m : Memory) (fs gs : List Field) (p : Nat) :
    StreamHolds m p (fs ++ gs) ↔ StreamHolds m p fs ∧ StreamHolds m (p + fieldsWidth fs) gs := by
  induction fs generalizing p with
  | nil => simp
  | cons f fs ih => simp [ih, and_assoc, Nat.add_assoc]

/-- A stream is its bits: where they agree, the same fields are held. -/
theorem streamHolds_congr {m m' : Memory} (fs : List Field) {p : Nat}
    (h : ∀ q, p ≤ q → q < p + fieldsWidth fs → strBit m q = strBit m' q) :
    StreamHolds m p fs → StreamHolds m' p fs := by
  induction fs generalizing p with
  | nil => simp
  | cons f fs ih =>
    simp only [fieldsWidth_cons] at h
    rintro ⟨h1, h2⟩
    refine ⟨?_, ih (fun q hq hq' => h q (by omega) (by omega)) h2⟩
    rw [← h1]
    exact readField_congr fun q hq hq' => (h q hq (by omega)).symm

/-- What an encoder's fields leave in STR (R402, R409). -/
theorem streamHolds_putAll (fs : List Field) (hfit : FieldsFit fs) (m : Memory) (c : Nat) :
    StreamHolds (putAll m c fs) c fs := by
  induction fs generalizing m c with
  | nil => simp
  | cons f fs ih =>
    have hf : f.value < 2 ^ f.width := hfit f (by simp)
    refine ⟨?_, ih (fun g hg => hfit g (by simp [hg])) _ _⟩
    rw [readField_eq_of_bits (v := f.value) fun k hk => ?_, Nat.mod_eq_of_lt hf]
    have := (strBit_putAll (f :: fs) m c (c + k)).1 ⟨by omega, by simp; omega⟩
    rw [this]
    simp [fieldsBit, hk]

/-! ### Reading a held stream -/

theorem getBits_of_holds {m : Memory} {p : Nat} {f : Field} {fs : List Field}
    (h : StreamHolds m p (f :: fs)) (hp : p + f.width ≤ 8192) :
    getBits m p f.width = .ok (f.value, p + f.width) := by
  rw [getBits_ok hp, h.1]

theorem fieldsWidth_map {α : Type} (g : α → Nat) (w : Nat) (xs : List α) :
    fieldsWidth (xs.map fun x => ⟨g x, w⟩) = w * xs.length := by
  induction xs with
  | nil => rfl
  | cons x xs ih => simp [ih, Nat.mul_succ, Nat.add_comm]

/-- GetBits(w) n times reads the n values the stream holds. -/
theorem getMany_of_holds {m : Memory} {w p : Nat} (vs : List Nat)
    (h : StreamHolds m p (vs.map fun v => ⟨v, w⟩)) (hp : p + w * vs.length ≤ 8192) :
    getMany m w vs.length p = .ok (vs, p + w * vs.length) := by
  induction vs generalizing p with
  | nil => rfl
  | cons v vs ih =>
    simp only [List.map_cons, streamHolds_cons] at h
    simp only [List.length_cons, Nat.mul_succ] at hp
    rw [List.length_cons, getMany, getBits_ok (by omega)]
    simp only [h.1]
    rw [ih h.2 (by omega)]
    simp only [Nat.mul_succ]
    rw [show p + w + w * vs.length = p + (w * vs.length + w) by omega]

/-! ### Totals are widths -/

@[simp] theorem SymTab.length_uniques (t : SymTab) (k : Nat) : (t.uniques k).length = k := by
  simp [SymTab.uniques]

/-- R500's length. -/
theorem fieldsWidth_fwStream (vals : List Byte) (ranks : List Nat) :
    fieldsWidth (fwStream vals ranks) =
      4 + 8 * vals.length + fwWidth vals.length * ranks.length := by
  simp only [fwStream, fieldsWidth_cons, fieldsWidth_append, fieldsWidth_map, List.cons_append]
  omega

theorem fwCoded_width (s : State) (t : SymTab) :
    fieldsWidth (fwCoded s t).fields = (fwCoded s t).total := by
  simp [fwCoded, fieldsWidth_fwStream]

/-- R550's length. -/
theorem fieldsWidth_svStream (v : Byte) (x : List Byte) :
    fieldsWidth (svStream v x) = 8 + x.length + 8 * (x.length - x.count v) := by
  have h : ∀ x : List Byte, fieldsWidth (svSymbols v x) + 8 * x.count v = 9 * x.length := by
    intro x
    induction x with
    | nil => simp [svSymbols]
    | cons a x ih =>
      simp only [svSymbols, List.length_cons]
      by_cases ha : a = v
      · subst ha; simp; omega
      · rw [if_neg ha, List.count_cons_of_ne ha]; simp; omega
  have := h x
  have hc : x.count v ≤ x.length := List.count_le_length
  simp only [svStream, fieldsWidth_cons]
  omega

theorem svCoded_width (s : State) (t : SymTab) (h : RanksBlock t s.block) :
    fieldsWidth (svCoded s t).fields = (svCoded s t).total := by
  simp only [svCoded, fieldsWidth_svStream, h.occ, State.length_block]

theorem p7Coded_width (s : State) (t : SymTab) :
    fieldsWidth (p7Coded s t).fields = (p7Coded s t).total := by
  simp [p7Coded, p7Stream, fieldsWidth_map]

/-- R661's length of one byte's code. -/
theorem fieldsWidth_textCode (table : List Byte) (l7 : Bool) (v : Byte) :
    fieldsWidth (textCode table l7 v) = textLen table l7 v := by
  unfold textCode textLen
  split <;> simp

theorem textCoded_width (ad : Bool) (s : State) (t : SymTab) :
    fieldsWidth (textCoded ad s t).fields = (textCoded ad s t).total := by
  have h : ∀ (table : List Byte) (l7 : Bool) (x : List Byte),
      fieldsWidth (x.flatMap (textCode table l7)) = (x.map (textLen table l7)).sum := by
    intro table l7 x
    induction x with
    | nil => rfl
    | cons a x ih => simp [fieldsWidth_textCode, ih]
  simp only [textCoded, textStream, fieldsWidth_cons, h]
  omega

/-- R709's token lengths are the widths of the tokens' fields. -/
theorem fieldsWidth_tokensFields (lw : Nat) (toks : List Token) (u i : Nat) :
    fieldsWidth (tokensFields lw u i toks) = tokensBits lw u i toks := by
  induction toks generalizing u i with
  | nil => rfl
  | cons tok toks ih =>
    simp only [tokensFields, tokensBits, fieldsWidth_append, ih]
    cases tok <;> simp [Token.fields, Token.bits] <;> omega

theorem strCoded_width (s : State) (t : SymTab) :
    fieldsWidth (strCoded s t).fields = (strCoded s t).total := by
  simp only [strCoded, strStream, fieldsWidth_cons, fieldsWidth_append, fieldsWidth_map,
    fieldsWidth_tokensFields, SymTab.length_uniques, List.cons_append]
  omega

theorem xstrCoded_width (s : State) (t : SymTab) :
    fieldsWidth (xstrCoded s t).fields = (xstrCoded s t).total := by
  simp only [xstrCoded, xstrStream, fieldsWidth_cons, fieldsWidth_append, fieldsWidth_map,
    fieldsWidth_tokensFields, SymTab.length_uniques, List.cons_append]
  omega

end Sys2Proof.Machine
end

