-- ==== Sys2Proof/Tests/Slice0.lean ====
section
/-! SUPPORT. The model's own tests: the ill-formed commands, words written out from 30_encoding.md, the
tables and worked examples of the family files and of 95_test_vectors.md, and for every statement that has
hypotheses a witness that meets them. -/

namespace Sys2Proof.Tests

open Sys2Proof.Machine

set_option maxRecDepth 100000
set_option Elab.async false

/-! ### Helpers -/

/-- The ASCII bytes of a text (R11). -/
def asc (x : String) : List Byte := x.toList.map fun c => BitVec.ofNat 8 c.toNat

/-- Bytes from numbers. -/
def bytes (x : List Nat) : List Byte := x.map (BitVec.ofNat 8)

/-- The state after reset with these bytes at the start of BLK and STR, and N and CUR written. -/
def loaded (blk str : List Byte) (n cur : Nat) : State :=
  { State.reset with
    blk := Memory.writeBytes [] 0 blk, str := Memory.writeBytes [] 0 str
    n := BitVec.ofNat 10 n, cur := BitVec.ofNat 14 cur }

/-- The state a command leaves. -/
def after (i : Instr) (s : State) : State :=
  match exec i s with
  | .next t => t
  | .fault _ => s
  | .refused _ => s

/-- An encoder on a block at BASE 0 and CUR 0, with STR not written. -/
def encoded (i : Instr) (x : List Byte) : State := after i (loaded x [] x.length 0)

/-- A decoder on stream bytes at CUR 0. -/
def decoded (i : Instr) (n : Nat) (x : List Nat) : State := after i (loaded [] (bytes x) n 0)

/-- The first bytes of STR, as numbers. -/
def strBytes (s : State) (n : Nat) : List Nat := (List.range n).map fun a => (s.strByte a).toNat

/-- The bytes of BLK listed, in address order. -/
def blkBytes (s : State) : List Byte := s.blk.map Prod.snd

/-- What a stream result shows: its bytes, BITLEN and STATUS. -/
def shows (s : State) (n : Nat) : List Nat × Nat × Nat :=
  (strBytes s n, s.bitlen.toNat, s.statusWord.toNat)

/-- Steps of the machine. -/
def runs : Nat → State → State
  | 0, s => s
  | k + 1, s =>
    match step s with
    | .next t => runs k t
    | .fault _ => s
    | .refused _ => s

/-- A full-width host write. -/
def wr (off : BitVec 14) (w : Word) : Access := .write off 0xF#4 w

/-! ### WellFormed refuses every ill-formed command (R302, R305 (c)) -/

theorem test_wf_putbits_refuses : (Instr.putbits 5#9 0#4).wellFormed = false ∧
    (Instr.putbits 5#9 10#4).wellFormed = false ∧ (Instr.putbits 5#9 15#4).wellFormed = false := by decide +kernel

theorem test_wf_getbits_refuses : (Instr.getbits 0#4).wellFormed = false ∧
    (Instr.getbits 10#4).wellFormed = false := by decide +kernel

theorem test_wf_peekbits_refuses : (Instr.peekbits 0#4).wellFormed = false ∧
    (Instr.peekbits 10#4).wellFormed = false := by decide +kernel

theorem test_wf_accepts_one_to_nine : (Instr.putbits 5#9 1#4).wellFormed = true ∧
    (Instr.getbits 9#4).wellFormed = true ∧ (Instr.peekbits 5#4).wellFormed = true := by decide +kernel

/-! ### Words written out bit by bit from R301, R303 and R307

Grouped as 31:26, 25, 24:16, 15:12, 11:8, 7:0. -/

theorem test_decode_cursor :
    decode 0b000000_0_000000000_0000_0000_00000000#32 = .ok .nop ∧
    decode 0b000000_0_100000101_0000_1001_00000001#32 = .ok (.putbits 0x105#9 9#4) ∧
    decode 0b000000_0_000000000_0000_0110_00000010#32 = .ok (.getbits 6#4) ∧
    decode 0b000000_0_000000000_0000_0011_00000011#32 = .ok (.peekbits 3#4) := by decide +kernel

theorem test_decode_scanner :
    decode 0b000000_0_000000000_0000_0000_00001000#32 = .ok .symrst ∧
    decode 0b000000_1_000000001_0000_0000_00001001#32 = .ok (.symscan 0x201#10) ∧
    decode 0b000000_0_000000000_0110_0011_00001010#32 = .ok (.rdrank 0x63#8) ∧
    decode 0b000000_0_000000000_0000_0001_00001011#32 = .ok (.rduniq 1#8) ∧
    decode 0b000000_0_000000000_1000_0001_00001100#32 = .ok (.rdocc 0x81#8) := by decide +kernel

theorem test_decode_coders :
    decode 0b000000_0_000000000_0000_0000_00010000#32 = .ok .fwenc ∧
    decode 0b000000_0_000000000_0000_0000_00010001#32 = .ok .fwdec ∧
    decode 0b000000_0_000000000_0000_0000_00010010#32 = .ok .svenc ∧
    decode 0b000000_0_000000000_0000_0000_00010011#32 = .ok .svdec ∧
    decode 0b000000_0_000000000_0000_0000_00010100#32 = .ok .p7enc ∧
    decode 0b000000_0_000000000_0000_0000_00010101#32 = .ok .p7dec ∧
    decode 0b000000_0_000000000_0000_0000_00010110#32 = .ok (.txtenc false) ∧
    decode 0b000000_0_000000000_0000_0001_00010110#32 = .ok (.txtenc true) ∧
    decode 0b000000_0_000000000_0000_0000_00010111#32 = .ok .txtdec := by decide +kernel

theorem test_decode_string_coders :
    decode 0b000000_0_000000000_0000_0000_00011000#32 = .ok .strenc ∧
    decode 0b000000_0_000000000_0000_0000_00011001#32 = .ok .strdec ∧
    decode 0b000000_0_000000000_0000_0000_00011010#32 = .ok .xstrenc ∧
    decode 0b000000_0_000000000_0000_0000_00011011#32 = .ok .xstrdec := by decide +kernel

/-- R305 (a) at the edges of its ranges. -/
theorem test_decode_refuses_reserved_opcodes :
    ([0x04, 0x07, 0x0D, 0x0F, 0x1C, 0xFF] : List Nat).all (fun o =>
      decide (decode (BitVec.ofNat 32 o) = .error (.unknownOpcode (BitVec.ofNat 8 o)))) = true := by decide +kernel

/-- R305 (b): the lowest and the highest reserved bit of a format, one word each. -/
theorem test_decode_refuses_reserved_bits :
    ([0x00000100, 0x80000000, 0x00001001, 0x02000001, 0x00010002, 0x00000109, 0x04000009, 0x0001000A,
      0x00000216, 0x80000016] : List Nat).all (fun w =>
      match decode (BitVec.ofNat 32 w) with
      | .error (.reservedBit _) => true
      | _ => false) = true := by decide +kernel

theorem test_encode_fields : encode (.putbits 0x1FF#9 9#4) = 0x01FF0901#32 ∧
    encode (.symscan 0x3FF#10) = 0x03FF0009#32 ∧ encode (.rdocc 0xFF#8) = 0x0000FF0C#32 ∧
    encode (.txtenc true) = 0x00000116#32 := by decide +kernel

/-- The rows of R303: the opcode is the match, and the mask is the opcode byte, the format's reserved bits
and nothing else. -/
theorem test_rows_are_the_opcode_map :
    (opRows.map fun r => (r.opcode.setWidth 32, 0xFF#32 ||| r.format.reservedMask)) = mapRows := by decide +kernel

theorem test_table_word : decodeTableWord 32 0x00050301 = some (.putbits 5#9 3#4) ∧
    decodeTableWord 32 0x1C = none := by decide +kernel

/-! ### Tables -/

/-- R501. -/
theorem test_fw_width_table : [1, 2, 3, 4, 5, 8, 9, 16].map fwWidth = [0, 1, 2, 2, 3, 3, 4, 4] := by decide +kernel

/-- R701 and R702 at the edges of their ranges. -/
theorem test_token_widths :
    [0, 1, 2, 3, 4, 5, 8, 9, 16, 17, 32, 33, 64, 65, 128].map idxw
      = [1, 1, 1, 2, 2, 3, 3, 4, 4, 5, 5, 6, 6, 7, 7] ∧
    [0, 1, 2, 3, 4, 5, 9, 63, 64, 65, 257, 511].map posw = [1, 1, 1, 2, 2, 3, 4, 6, 6, 7, 9, 9] := by decide +kernel

/-- R662's table of code values and lengths. -/
theorem test_rank_codes :
    (List.range 23).map (fun r => ((rankCode r).value, (rankCode r).width)) =
      [(0x00, 3), (0x01, 3), (0x02, 3), (0x04, 4), (0x0C, 4), (0x05, 4), (0x0D, 4), (0x06, 5)] ++
      [(0x0E, 5), (0x16, 5), (0x1E, 5), (0x07, 7), (0x0F, 7), (0x17, 7), (0x1F, 7), (0x27, 7)] ++
      [(0x2F, 7), (0x37, 7), (0x3F, 7), (0x47, 7), (0x4F, 7), (0x57, 7), (0x5F, 7)] := by decide +kernel

/-- R656. -/
theorem test_text_tables : [tableT0, tableT1, tableT2].all (fun t =>
    decide (t.length = 23) && decide t.Nodup && t.all fun v => decide (v.toNat < 128)) = true := by decide +kernel

/-! ### Worked examples of the rules, one or two per command -/

/-- R400: CUR = 17 stays, STATUS is 0x002. -/
theorem test_nop : (after .nop (loaded [] [] 0 17)).cur = 17#14 ∧
    (after .nop (loaded [] [] 0 17)).statusWord = 0x002#32 := by decide +kernel

/-- R407's example. -/
theorem test_putbits_two_fields :
    strBytes (after (.putbits 0x1FF#9 9#4) (after (.putbits 5#9 3#4) (loaded [] [] 0 0))) 2 = [0xFD, 0x0F] := by
  decide +kernel

/-- R407's mid-byte example. -/
theorem test_putbits_keeps_the_byte :
    strBytes (after (.putbits 0#9 3#4) (loaded [] (bytes [0xFF]) 0 2)) 1 = [0xE3] ∧
    (after (.putbits 0#9 3#4) (loaded [] (bytes [0xFF]) 0 2)).cur = 5#14 := by decide +kernel

/-- R405's example. -/
theorem test_getbits : (after (.getbits 9#4) (loaded [] (bytes [0xFD, 0x0F]) 0 3)).data = 0x1FF#16 ∧
    (after (.getbits 9#4) (loaded [] (bytes [0xFD, 0x0F]) 0 3)).cur = 12#14 := by decide +kernel

/-- R408's example, and its E_RANGE at 8184. -/
theorem test_peekbits : (after (.peekbits 3#4) (loaded [] (bytes [0xFD]) 0 0)).data = 5#16 ∧
    (after (.peekbits 3#4) (loaded [] (bytes [0xFD]) 0 0)).cur = 0#14 ∧
    (after (.peekbits 9#4) (loaded [] [] 0 8184)).status.err = some .range := by decide +kernel

/-- R450's example. -/
theorem test_symrst : (after .symrst (after (.symscan 0#10) (loaded (asc "abca") [] 4 0))).sym = SymTab.zero := rfl

/-- R452's example. -/
theorem test_symscan_resumes :
    let s := after (.symscan 2#10) (loaded (asc "abca") [] 4 0)
    let t := after (.symscan 0#10) s
    (s.sym.u, s.sym.scanpos, t.sym.u, t.sym.scanpos, t.sym.oracc, t.sym.textcnt) =
      (2#9, 2#10, 3#9, 4#10, 0x63#8, 4#10) := by decide +kernel

/-- R455, R456 and R457's examples. -/
theorem test_table_reads :
    let s := after (.symscan 0#10) (loaded (asc "abca") [] 4 0)
    [Instr.rdrank 0x63#8, .rdrank 0x7A#8, .rduniq 1#8, .rduniq 3#8, .rdocc 0x61#8].map
      (fun i => (after i s).data) = [0x102#16, 0#16, 0x162#16, 0#16, 2#16] := by decide +kernel

/-- R503 and R506's example. -/
theorem test_fwenc : shows (encoded .fwenc (asc "ABAB")) 3 = ([0x11, 0x24, 0xA4], 24, 2) := by decide +kernel
theorem test_fwdec : blkBytes (decoded .fwdec 4 [0x11, 0x24, 0xA4]) = asc "ABAB" := by decide +kernel

/-- R553 and R555's example. -/
theorem test_svenc : shows (encoded .svenc (asc "aaaXaaab")) 4 = ([0x61, 0x88, 0x85, 0x62], 32, 2) ∧
    (encoded .svenc (asc "abab")).svval = 0x61#8 := by decide +kernel
theorem test_svdec : blkBytes (decoded .svdec 8 [0x61, 0x88, 0x85, 0x62]) = asc "aaaXaaab" := by decide +kernel

/-- R602 and R605's example. -/
theorem test_p7enc : shows (encoded .p7enc (asc "Hi!")) 3 = ([0xC8, 0x74, 0x08], 21, 2) := by decide +kernel
theorem test_p7dec : blkBytes (decoded .p7dec 3 [0xC8, 0x74, 0x08]) = asc "Hi!" := by decide +kernel

/-- R664 and R667's example, and the reserved 7-bit code 0x67 in table 0 (R662). -/
theorem test_txtenc : shows (encoded (.txtenc false) (asc "the cat")) 4 = ([0x94, 0x0D, 0x1E, 0x24], 31, 2) := by
  decide +kernel
theorem test_txtdec : blkBytes (decoded .txtdec 7 [0x94, 0x0D, 0x1E, 0x24]) = asc "the cat" ∧
    (decoded .txtdec 1 [0x3C, 0x03]).status.err = some .decode := by decide +kernel

/-- R711's row "mississippi", and R713's overlapping copy. -/
theorem test_strenc : shows (encoded .strenc (asc "mississippi")) 8 =
    ([0xA3, 0x2D, 0x6D, 0x0E, 0x0E, 0xB9, 0xD2, 0x05], 60, 2) := by decide +kernel
theorem test_strdec : blkBytes (decoded .strdec 8 [0x20, 0x4C, 0x26]) = asc "aaaaaaaa" := by decide +kernel

/-- R714's rows, all E_DECODE. -/
theorem test_strdec_errors :
    [(1, [0x20, 0x2C]), (2, [0x21, 0x4C, 0x4C, 0x01]), (3, [0x20, 0xCC, 0x08]), (4, [0x20, 0x4C, 0x0E]),
      (2, [0x21, 0x4C, 0x4C, 0x00]), (2, [0x20, 0x0C])].all
      (fun c =>
        let s := decoded .strdec c.1 c.2
        decide (s.status = ⟨true, some .decode, false, false, false⟩) && s.blk.isEmpty
          && decide (s.cur = 0#14) && decide (s.bitlen = 0#14)) = true := by decide +kernel

/-- R755's example, and R756's row with P7 = 0. -/
theorem test_xstrenc : shows (encoded .xstrenc (asc "abcabcabc")) 5 = ([0x82, 0x61, 0xF1, 0x18, 0x13], 40, 2) ∧
    shows (encoded .xstrenc (bytes [0x41, 0xC1, 0x41, 0xC1])) 5 = ([0x01, 0x41, 0xC1, 0x0C, 0x00], 33, 2) := by
  decide +kernel
theorem test_xstrdec :
    blkBytes (decoded .xstrdec 8 [0x03, 0x80, 0x81, 0x82, 0x83, 0xB0, 0x00]) =
      bytes [0x80, 0x81, 0x82, 0x83, 0x80, 0x81, 0x82, 0x83] := by decide +kernel

/-! ### The host port -/

/-- R103, R230, R808: a second CMD write lands while the core is busy; it is dropped and sets OVR. -/
theorem test_busy_write_sets_ovr :
    let s := { (loaded [] [] 0 0).startCommand 0#32 1 with inbox := [wr 0x00C#14 8#32] }
    (runs 1 s).status.ovr = true ∧ (runs 1 s).running = some ⟨0#32, 0⟩ ∧ (runs 2 s).statusWord = 0x402#32 := by
  decide +kernel

/-- R213: a misaligned access is a bus error; R119: ID. -/
theorem test_bus_error_and_id :
    (runs 1 { State.reset with inbox := [.read 0x002#14] }).reply = .busError ∧
    (runs 1 { State.reset with inbox := [.write 0x010#14 0x7#4 5#32] }) =
      { State.reset with reply := .busError } ∧
    (runs 1 { State.reset with inbox := [.read 0x000#14] }).reply = .data 0x54444301#32 :=
  ⟨by decide +kernel, rfl, by decide +kernel⟩

/-- R213, R809: a bus error while a command runs leaves OVR 0 and the command running. -/
theorem test_busy_bus_error :
    let s := { (loaded [] [] 0 0).startCommand 0#32 2 with inbox := [.write 0x010#14 0x7#4 5#32] }
    (runs 1 s).reply = .busError ∧ (runs 1 s).status.ovr = false ∧ (runs 1 s).running = some ⟨0#32, 1⟩ ∧
    (runs 1 s).cur = 0#14 := by decide +kernel

/-- R210: byte m of BLK is bits 7:0 of its word. -/
theorem test_lanes :
    let s := runs 2 { State.reset with inbox := [wr 0x1000#14 0x64636261#32, .read 0x1000#14] }
    blkBytes s = asc "abcd" ∧ s.reply = .data 0x64636261#32 := by decide +kernel

/-- R820, R902: IRQ after an enabled completion, and none after a soft reset. -/
theorem test_irq :
    let s := { State.reset with ie := true, inbox := [wr 0x004#14 3#32] }
    (after .nop s).irq = true ∧ runs 1 (after .nop s) = { State.reset with reply := .accepted } :=
  ⟨by decide +kernel, rfl⟩

/-- The word of a CMD write runs as the next step, from reset. -/
theorem test_fetch_word :
    runs 1 (State.reset.withFetchWord 32 0x00050301) = after (.putbits 5#9 3#4) State.reset ∧
    (runs 1 (State.reset.withFetchWord 32 0x1C)).statusWord = 0x012#32 := ⟨rfl, by decide +kernel⟩

/-! ### Witnesses: states and operands that meet the hypotheses of the statements

Each is named after its statement and shows, clause by clause, that the hypotheses hold together; the values
stand at the edges of the ranges where a clause has one. -/

/-- Every command answers the state `after` names. -/
theorem next_after (i : Instr) (s : State) : exec i s = .next (after i s) := by
  have h : ∀ b : Body, ∃ t, complete s b = .next t := fun b => by cases b <;> exact ⟨_, rfl⟩
  have h' : ∃ t, exec i s = .next t := by cases i <;> first | exact ⟨_, rfl⟩ | exact h _
  obtain ⟨t, ht⟩ := h'
  simp only [after, ht]

/-- A checked form of StreamHolds. -/
def holds (m : Memory) : Nat → List Field → Bool
  | _, [] => true
  | p, f :: fs => decide (readField m p f.width = f.value) && holds m (p + f.width) fs

theorem streamHolds_of_holds {m : Memory} {fs : List Field} : ∀ {p : Nat}, holds m p fs = true →
    StreamHolds m p fs := by
  induction fs with
  | nil => intro p _; trivial
  | cons f fs ih =>
    intro p h
    simp only [holds, Bool.and_eq_true, decide_eq_true_eq] at h
    exact ⟨h.1, ih h.2⟩

/-- A checked form of RunsOutAfter. -/
theorem runsOutAfter_of {s : State} {fs : List Field} {w : Nat}
    (h : (holds s.str s.cur.toNat fs && (fs.isEmpty || decide (s.cur.toNat + fieldsWidth fs ≤ 8192))
      && decide (8192 < s.cur.toNat + fieldsWidth fs + w)) = true) : s.RunsOutAfter fs w := by
  simp only [Bool.and_eq_true, Bool.or_eq_true, List.isEmpty_iff, decide_eq_true_eq] at h
  exact ⟨streamHolds_of_holds h.1.1, h.1.2, h.2⟩

/-- A state whose last three STR bytes are these, at a cursor close to bit 8192. -/
def nearEnd (b1 b2 b3 : Byte) (n cur : Nat) : State :=
  { loaded [] [] n cur with str := [(1021, b1), (1022, b2), (1023, b3)] }

/-- A block of distinct bytes is covered by NEW_UNIQUE tokens alone. -/
theorem follows_of_nodup (rank : Byte → Nat) (lmax : Nat) {x : List Byte} (h : x.Nodup) :
    ∀ k i, i + k = x.length → FollowsPolicy rank lmax x i (List.replicate k .newUnique)
  | 0, i, hi => by simpa [FollowsPolicy] using hi
  | k + 1, i, hi => by
    have hlt : i < x.length := by omega
    refine ⟨hlt, ?_, follows_of_nodup rank lmax h k (i + 1) (by omega)⟩
    have e : byteAt x i = x[i] := by simp [byteAt, hlt]
    rw [e, List.mem_take_iff_getElem]
    rintro ⟨j, hj, hji⟩
    have := (List.Nodup.getElem_inj_iff h).1 hji
    omega

theorem witness_EncodeOfDecodeIsTheWord :
    decode 0x01FF0901#32 = .ok (.putbits 0x1FF#9 9#4) ∧ decode 0x00000116#32 = .ok (.txtenc true) := by decide +kernel

/-- Both sides, at the edges of NB. -/
theorem witness_LegalWordsAreThoseOfTheOpcodeMap : legalWord 0x00000101#32 ∧ legalWord 0x00000903#32 ∧
    ¬legalWord 0x00000001#32 ∧ ¬legalWord 0x00000A03#32 := by unfold legalWord; decide +kernel

/-- R305 (a), (b) and (c), each with a core about to execute that word. -/
theorem witness_IllegalWordsCompleteWithBadCmd : ∀ k ∈ ([0x04, 0x1C, 0x100, 0x1001, 0x02, 0xA01] : List Nat),
    ∃ s : State, s.commandToRun = some (BitVec.ofNat 32 k) ∧ ¬legalWord (BitVec.ofNat 32 k) := by
  have h : ∀ k ∈ ([0x04, 0x1C, 0x100, 0x1001, 0x02, 0xA01] : List Nat), ¬legalWord (BitVec.ofNat 32 k) := by
    unfold legalWord; decide +kernel
  exact fun k hk => ⟨State.reset.startCommand (BitVec.ofNat 32 k) 0, rfl, h k hk⟩

/-- The three ways a busy core is due: no access left to come, a WAIT, or none before the completion. -/
theorem witness_StepRunsTheDecodedCommand :
    let s := State.reset.startCommand 0x08#32 0
    (s.commandToRun = some 0x08#32 ∧ decode 0x08#32 = .ok .symrst) ∧
    (s.running = some ⟨0x08#32, 0⟩ ∧ s.inbox = []) ∧
    (∃ u : State, u.running = some ⟨0x08#32, 7⟩ ∧ u.inbox = .wait :: []) ∧
    ∃ u : State, u.running = some ⟨0x08#32, 0⟩ ∧ u.inbox = [.read 0#14] :=
  ⟨⟨rfl, by decide +kernel⟩, ⟨rfl, rfl⟩, ⟨{ State.reset.startCommand 0x08#32 7 with inbox := [.wait] }, rfl, rfl⟩,
    ⟨{ State.reset.startCommand 0x08#32 0 with inbox := [.read 0#14] }, rfl, rfl⟩⟩

/-- An error and a decline (17 uniques). -/
theorem witness_FailedOrDeclinedChangesOnlyStatus :
    ¬(after .fwenc State.reset).succeededNow ∧
    ¬(encoded .fwenc (bytes (List.range 17))).succeededNow := by unfold State.succeededNow; decide +kernel

/-- Each error, and the decline, occurs. -/
theorem witness_ErrorKindsByCommand :
    (after (.getbits 0#4) State.reset).status.err = some .badCmd ∧
    (after (.getbits 1#4) (loaded [] [] 0 8192)).status.err = some .range ∧
    (decoded .txtdec 1 [3]).status.err = some .decode ∧
    (encoded .p7enc (bytes [0x80])).status.na = true := by decide +kernel

/-- R802's three causes, one step outside each bound. -/
theorem witness_IllegalBlockRaisesLen :
    ¬(loaded [] [] 0 0).legalBlock 64 ∧ ¬(loaded [] [] 65 0).legalBlock 64 ∧ ¬(loaded [] [] 513 0).legalBlock 512 ∧
    ¬{ loaded [] [] 2 0 with base := 511#9 }.legalBlock 64 ∧
    (after .fwenc (loaded [] [] 65 0)).status.err = some .len := by unfold State.legalBlock; decide +kernel

/-- A command of each kind that succeeds. -/
theorem witness_RegistersChangeOnlyByTheirCommands :
    ∀ i ∈ [Instr.nop, .putbits 1#9 1#4, .symrst, .svenc, .svdec],
      exec i (loaded (asc "a") (bytes [0]) 1 0) = .next (after i (loaded (asc "a") (bytes [0]) 1 0)) :=
  fun i _ => next_after i _

theorem witness_MemoriesChangeOnlyWhereWritten :
    (after .svdec (loaded (asc "a") (bytes [0, 0]) 1 0)).blk ≠ (loaded (asc "a") (bytes [0, 0]) 1 0).blk ∧
    (after .svenc (loaded (asc "a") (bytes [0, 0]) 1 0)).str ≠ (loaded (asc "a") (bytes [0, 0]) 1 0).str ∧
    (after (.putbits 1#9 1#4) (loaded [] (bytes [0]) 0 0)).str ≠ (loaded [] (bytes [0]) 0 0).str := by decide +kernel

/-- A memory that differs outside the block only. -/
theorem witness_CommandsReadOnlyTheirBlock :
    let s := loaded (asc "ab") [] 1 0
    let m : Memory := Memory.writeBytes [] 0 (asc "ac")
    ¬(Instr.svenc).isDecoder ∧ m ≠ s.blk ∧
    ∀ a, s.base.toNat ≤ a → a < s.base.toNat + s.n.toNat → a < 512 →
      m.read Config.powerOnBlk a = s.blkByte a := by
  refine ⟨fun h => h, by decide +kernel, fun a _ h _ => ?_⟩
  have : a = 0 := by
    have e : (loaded (asc "ab") [] 1 0).base.toNat + (loaded (asc "ab") [] 1 0).n.toNat = 1 := by decide +kernel
    omega
  subst this; decide +kernel

/-- One encoder and one decoder that succeed. -/
theorem witness_CoderAdvancesCursorByBitlen :
    (Instr.isEncoder .svenc ∧ (encoded .svenc (asc "a")).succeededNow) ∧
    (Instr.isDecoder .svdec ∧ (decoded .svdec 1 [0x61, 0]).succeededNow) := by
  unfold State.succeededNow
  exact ⟨⟨trivial, by decide +kernel⟩, ⟨trivial, by decide +kernel⟩⟩

theorem witness_DecodersIgnoreTheSymbolTable : Instr.isDecoder .svdec ∧
    exec .svdec (loaded [] (bytes [0x61, 0]) 1 0) = .next (decoded .svdec 1 [0x61, 0]) :=
  ⟨trivial, next_after _ _⟩

/-- Both ends of the width, up to bit 8192 exactly. -/
theorem witness_PutbitsAppendsTheField :
    (1 ≤ (1#4).toNat ∧ (1#4).toNat ≤ 9 ∧ (loaded [] [] 0 8191).cur.toNat + (1#4).toNat ≤ 8192) ∧
    (1 ≤ (9#4).toNat ∧ (9#4).toNat ≤ 9 ∧ (loaded [] [] 0 8183).cur.toNat + (9#4).toNat ≤ 8192) := by decide +kernel

theorem witness_GetbitsAndPeekbitsReadTheField :
    1 ≤ (9#4).toNat ∧ (9#4).toNat ≤ 9 ∧ (loaded [] [] 0 8183).cur.toNat + (9#4).toNat ≤ 8192 := by decide +kernel

/-- Each clause at its edges. -/
theorem witness_CursorCommandErrors :
    ((0#4).toNat = 0 ∨ 10 ≤ (0#4).toNat) ∧ ((10#4).toNat = 0 ∨ 10 ≤ (10#4).toNat) ∧
    ((15#4).toNat = 0 ∨ 10 ≤ (15#4).toNat) ∧
    (1 ≤ (1#4).toNat ∧ (1#4).toNat ≤ 9 ∧ 8192 < (loaded [] [] 0 8192).cur.toNat + (1#4).toNat) ∧
    (1 ≤ (9#4).toNat ∧ (9#4).toNat ≤ 9 ∧ 8192 < (loaded [] [] 0 8184).cur.toNat + (9#4).toNat) := by decide +kernel

/-- LIM 0, LIM below N and LIM above N, from a consistent table. -/
theorem witness_SymscanAccumulates :
    (loaded (asc "abca") [] 4 0).legalBlock 512 ∧ (loaded (asc "abca") [] 4 0).sym.Consistent ∧
    ((if (0#10) = 0#10 then 4 else min (0#10).toNat 4) = 4) ∧
    ((if (2#10) = 0#10 then 4 else min (2#10).toNat 4) = 2) ∧
    ((if (9#10) = 0#10 then 4 else min (9#10).toNat 4) = 4) :=
  ⟨by unfold State.legalBlock; decide +kernel, SymTab.consistent_zero, by decide +kernel, by decide +kernel, by decide +kernel⟩

theorem witness_SymscanIsResumable :
    (loaded (asc "abca") [] 4 0).legalBlock 512 ∧ (loaded (asc "abca") [] 4 0).sym = SymTab.zero :=
  ⟨by unfold State.legalBlock; decide +kernel, rfl⟩

/-- A block one unique above each cap, and one with a single byte of 0x80. -/
theorem witness_ContentDeclinesComeFirst :
    let s := loaded (bytes (List.range 17)) [] 17 0
    let u := loaded (bytes [0x7F, 0x80]) [] 2 0
    let v := loaded (bytes (List.range 33)) [] 33 0
    (s.legalBlock 64 ∧ 16 < distinct s.block) ∧ (u.legalBlock 64 ∧ ∃ x ∈ u.block, 128 ≤ x.toNat) ∧
    (v.legalBlock 64 ∧ 32 < distinct v.block) := by
  unfold State.legalBlock; decide +kernel

/-- A 9-bit output against LIMIT 8 and 9, and against the last cursors that fit and do not fit. -/
theorem witness_LimitThenRangeDecideAnEncodersOutcome :
    let t := encoded .svenc (asc "a")
    Instr.isEncoder .svenc ∧ (loaded (asc "a") [] 1 0).limit = 0#13 ∧ t.succeededNow ∧
    (8#13 ≠ 0#13 ∧ (8#13).toNat < t.bitlen.toNat) ∧ t.bitlen.toNat ≤ (9#13).toNat ∧
    8192 < (8184#14).toNat + t.bitlen.toNat ∧ (8183#14).toNat + t.bitlen.toNat ≤ 8192 := by
  unfold State.succeededNow
  exact ⟨trivial, by decide +kernel⟩

theorem witness_EncoderIgnoresOldStreamAndTable : Instr.isEncoder .svenc ∧
    exec .svenc (loaded (asc "a") [] 1 0) = .next (encoded .svenc (asc "a")) ∧
    (encoded .svenc (asc "a")).succeededNow :=
  ⟨trivial, next_after _ _, by unfold State.succeededNow; decide +kernel⟩

/-- Both clauses, the second at the last cursor. -/
theorem witness_EncoderOutputFits5640Bits : Instr.isEncoder .svenc ∧
    (encoded .svenc (asc "a")).succeededNow ∧ (loaded (asc "a") [] 1 2552).cur.toNat ≤ 2552 :=
  ⟨trivial, by unfold State.succeededNow; decide +kernel, by decide +kernel⟩

/-- Sixteen uniques at the last cursor, under no limit and under LIMIT equal to the length. -/
theorem witness_FwencWritesItsStream :
    let s := loaded (bytes (List.range 16)) [] 16 (8192 - 196)
    s.legalBlock 64 ∧ 16 = distinct s.block ∧ 4 = fwWidth 16 ∧ 196 = 4 + 8 * 16 + 4 * s.n.toNat ∧
    s.limit = 0#13 ∧ 196 ≤ (196#13).toNat ∧ s.cur.toNat + 196 ≤ 8192 := by
  unfold State.legalBlock; decide +kernel

/-- R506's example, and a rank of 3 among three values. -/
theorem witness_FwdecReadsItsStream :
    (let s := loaded [] (bytes [0x11, 0x24, 0xA4]) 4 0
     s.legalBlock 64 ∧ (∀ r ∈ [0, 1, 0, 1], r < (asc "AB").length) ∧ [0, 1, 0, 1].length = s.n.toNat ∧
     24 = 4 + 8 * 2 + fwWidth 2 * s.n.toNat ∧ s.cur.toNat + 24 ≤ 8192 ∧
     StreamHolds s.str s.cur.toNat
       (⟨1, 4⟩ :: byteFields 8 (asc "AB") ++ [0, 1, 0, 1].map fun r => ⟨r, fwWidth 2⟩)) ∧
    (let s := loaded [] (bytes [0x12, 0x26, 0x36, 0xC6, 0x00]) 2 0
     s.legalBlock 64 ∧ (∀ r ∈ [0], r < (asc "abc").length) ∧ [0].length < s.n.toNat ∧ (asc "abc").length ≤ 3 ∧
     s.cur.toNat + 4 + 8 * 3 + fwWidth 3 * (1 + 1) ≤ 8192 ∧
     StreamHolds s.str s.cur.toNat
       (⟨2, 4⟩ :: byteFields 8 (asc "abc") ++ [0, 3].map fun r => ⟨r, fwWidth 3⟩)) := by
  refine ⟨⟨?_, by decide +kernel, by decide +kernel, by decide +kernel, by decide +kernel, ?_⟩,
    ⟨?_, by decide +kernel, by decide +kernel, by decide +kernel, by decide +kernel, ?_⟩⟩
  · unfold State.legalBlock; decide +kernel
  · exact streamHolds_of_holds (by decide)
  · unfold State.legalBlock; decide +kernel
  · exact streamHolds_of_holds (by decide)

/-- A tie, which the earliest value wins. -/
theorem witness_SvencWritesItsStream :
    let s := loaded (asc "ab") [] 2 0
    s.legalBlock 64 ∧ 0x61#8 ∈ s.block ∧ (∀ w, s.block.count w ≤ s.block.count 0x61#8) ∧
    (∀ w ∈ s.block, s.block.count w = s.block.count 0x61#8 → s.block.idxOf 0x61#8 ≤ s.block.idxOf w) ∧
    18 = 8 + s.n.toNat + 8 * (s.n.toNat - s.block.count 0x61#8) ∧ s.limit = 0#13 ∧
    s.cur.toNat + 18 ≤ 8192 := by
  have e : (loaded (asc "ab") [] 2 0).block = asc "ab" := by decide +kernel
  refine ⟨by unfold State.legalBlock; decide +kernel, by decide +kernel, ?_, by decide +kernel, by decide +kernel, rfl, by decide +kernel⟩
  rw [e]; decide +kernel

/-- Exactly 48 of 64 positions. -/
theorem witness_SvencDominanceIsSmall :
    let x := List.replicate 48 0x61#8 ++ List.replicate 16 0x62#8
    (loaded x [] 64 0).n = 64#10 ∧ (∃ v, 48 ≤ (loaded x [] 64 0).block.count v) ∧
    (encoded .svenc x).succeededNow := by
  refine ⟨rfl, ⟨0x61#8, by decide +kernel⟩, by unfold State.succeededNow; decide +kernel⟩

/-- A flag of 0, a literal, and a literal equal to V. -/
theorem witness_SvdecReadsItsStream :
    let s := loaded [] (bytes [0x61, 0x8E, 0x0D, 0x03]) 3 0
    let codes : List (Option Byte) := [none, some 0x63#8, some 0x61#8]
    let fs : List Field := ⟨0x61, 8⟩ :: codes.flatMap (fun c => match c with
      | none => [⟨0, 1⟩]
      | some x => [⟨1, 1⟩, ⟨x.toNat, 8⟩])
    s.legalBlock 64 ∧ codes.length = s.n.toNat ∧ s.cur.toNat + fieldsWidth fs ≤ 8192 ∧
    StreamHolds s.str s.cur.toNat fs :=
  ⟨by unfold State.legalBlock; decide +kernel, by decide +kernel, by decide +kernel, streamHolds_of_holds (by decide)⟩

theorem witness_P7encPacksSevenBits :
    let s := loaded (bytes [0x7F]) [] 1 8185
    s.legalBlock 64 ∧ (∀ v ∈ s.block, v.toNat < 128) ∧ s.limit = 0#13 ∧ 7 * s.n.toNat ≤ (7#13).toNat ∧
    s.cur.toNat + 7 * s.n.toNat ≤ 8192 := by unfold State.legalBlock; decide +kernel

/-- A stream cut at each kind of field: UM1 (at the first cursor that fails, and far above the bound), a
header value, a rank. -/
theorem witness_FwdecReadsItsStream_range :
    (nearEnd 0 0 0 1 8189).legalBlock 64 ∧ (nearEnd 0 0 0 1 8189).RunsOutAfter [] 4 ∧
    (nearEnd 0 0 0 1 16383).RunsOutAfter [] 4 ∧
    (nearEnd 0 0 0x10#8 1 8188).RunsOutAfter (⟨2 - 1, 4⟩ :: byteFields 8 []) 8 ∧
    (nearEnd 0x10#8 0x41#8 0x42#8 1 8172).RunsOutAfter
      (⟨2 - 1, 4⟩ :: byteFields 8 (asc "AB") ++ [].map fun r => ⟨r, fwWidth 2⟩) (fwWidth 2) :=
  ⟨by unfold State.legalBlock; decide, runsOutAfter_of (by decide), runsOutAfter_of (by decide),
    runsOutAfter_of (by decide), runsOutAfter_of (by decide)⟩

/-- V, a flag, a literal. -/
theorem witness_SvdecReadsItsStream_range :
    (nearEnd 0 0 0 1 8185).legalBlock 64 ∧ (nearEnd 0 0 0 1 8185).RunsOutAfter [] 8 ∧
    (nearEnd 0 0 0x61#8 1 8184).RunsOutAfter [⟨0x61, 8⟩] 1 ∧
    (nearEnd 0 0 0x80#8 1 8183).RunsOutAfter ([⟨0, 8⟩] ++ [⟨1, 1⟩]) 8 :=
  ⟨by unfold State.legalBlock; decide, runsOutAfter_of (by decide), runsOutAfter_of (by decide),
    runsOutAfter_of (by decide)⟩

/-- SEL, L7, a group, an escaped literal, and the extra bits of each group that has them. -/
theorem witness_TxtdecReadsItsStream_range :
    (nearEnd 0 0 0 1 8191).legalBlock 512 ∧ (nearEnd 0 0 0 1 8191).RunsOutAfter [] 2 ∧
    (nearEnd 0 0 0 1 8190).RunsOutAfter [⟨0, 2⟩] 1 ∧
    (nearEnd 0 0 0 1 8189).RunsOutAfter ([⟨0, 2⟩, ⟨0, 1⟩] ++ [] ++ []) 3 ∧
    (nearEnd 0 0 0x60#8 1 8186).RunsOutAfter ([⟨0, 2⟩, ⟨0, 1⟩] ++ [] ++ [⟨3, 3⟩]) 8 ∧
    (nearEnd 0 0 0x80#8 1 8186).RunsOutAfter ([⟨0, 2⟩, ⟨0, 1⟩] ++ [] ++ [⟨4, 3⟩]) 1 ∧
    (nearEnd 0 0 0xA0#8 1 8186).RunsOutAfter ([⟨0, 2⟩, ⟨0, 1⟩] ++ [] ++ [⟨5, 3⟩]) 1 ∧
    (nearEnd 0 0 0xC0#8 1 8186).RunsOutAfter ([⟨0, 2⟩, ⟨0, 1⟩] ++ [] ++ [⟨6, 3⟩]) 2 ∧
    (nearEnd 0 0 0xE0#8 1 8186).RunsOutAfter ([⟨0, 2⟩, ⟨0, 1⟩] ++ [] ++ [⟨7, 3⟩]) 4 :=
  ⟨by unfold State.legalBlock; decide, runsOutAfter_of (by decide), runsOutAfter_of (by decide),
    runsOutAfter_of (by decide), runsOutAfter_of (by decide), runsOutAfter_of (by decide),
    runsOutAfter_of (by decide), runsOutAfter_of (by decide), runsOutAfter_of (by decide)⟩

/-- The last cursor that fits, and the next one. -/
theorem witness_P7decUnpacksSevenBits :
    (loaded [] [] 1 8185).legalBlock 64 ∧ (loaded [] [] 1 8185).cur.toNat + 7 * 1 ≤ 8192 ∧
    8192 < (loaded [] [] 1 8186).cur.toNat + 7 * 1 := by unfold State.legalBlock; decide +kernel

/-- Each selector; the code table on two and the markup table on a tie. -/
theorem witness_TxtencWritesItsStream :
    let sel := fun (ad : Bool) (x : List Byte) =>
      if ad = false then 0
      else if 2 ≤ x.countP (fun v => markupSet.contains v) ∧
        x.countP (fun v => codeSet.contains v) ≤ x.countP (fun v => markupSet.contains v) then 1
      else if 2 ≤ x.countP (fun v => codeSet.contains v) then 2 else 0
    (loaded (asc "<(>)") [] 4 0).legalBlock 512 ∧ (loaded (asc "<(>)") [] 4 0).block = asc "<(>)" ∧
    sel true (asc "<(>)") = 1 ∧ sel true (asc "f(x)") = 2 ∧ sel true (asc "the") = 0 ∧
    sel false (asc "<(>)") = 0 ∧ textTable 1 = some tableT1 ∧ (loaded (asc "<(>)") [] 4 0).limit = 0#13 ∧
    0 + fieldsWidth (⟨1, 2⟩ :: ⟨1, 1⟩ :: (asc "<(>)").flatMap (textCode tableT1 true)) ≤ 8192 ∧
    (true = true ↔ ∀ v ∈ asc "<(>)", v.toNat < 128) ∧ (false = true ↔ ∀ v ∈ bytes [0x80], v.toNat < 128) := by
  unfold State.legalBlock; decide +kernel

/-- A rank and an escape in table 0; a reserved code after none; selector 3. -/
theorem witness_TxtdecReadsItsStream :
    (let s := loaded [] (bytes [0xC4, 0xF2]) 2 0
     let fs : List Field := [⟨0, 2⟩, ⟨1, 1⟩] ++ ([rankCode 0] ++ [⟨3, 3⟩, ⟨0x79, 7⟩])
     s.legalBlock 512 ∧ textTable 0 = some tableT0 ∧ (0x79#8).toNat < 2 ^ 7 ∧
     s.cur.toNat + fieldsWidth fs ≤ 8192 ∧ StreamHolds s.str s.cur.toNat fs) ∧
    (let s := loaded [] (bytes [0x3C, 0x03]) 1 0
     s.legalBlock 512 ∧ s.cur.toNat + 3 + 7 ≤ 8192 ∧
     StreamHolds s.str s.cur.toNat ([⟨0, 2⟩, ⟨1, 1⟩] ++ [] ++ [⟨7 + 8 * 12, 7⟩])) ∧
    readField (loaded [] (bytes [3]) 1 0).str 0 2 = 3 := by
  refine ⟨⟨?_, rfl, by decide +kernel, by decide +kernel, ?_⟩, ⟨?_, by decide +kernel, ?_⟩, by decide +kernel⟩
  · unfold State.legalBlock; decide +kernel
  · exact streamHolds_of_holds (by decide)
  · unfold State.legalBlock; decide +kernel
  · exact streamHolds_of_holds (by decide)

/-- The token list of a block with all three kinds of tokens; the shortest Lmax. -/
theorem witness_MatchPolicyGivesOneTokenList : 2 ≤ 2 ∧
    FollowsPolicy (firstRank (asc "aaaa")) 2 (asc "aaaa") 0 [.newUnique, .repeatRank 0, .string 2 0] := by
  refine ⟨le_rfl, by decide +kernel, by decide +kernel, by decide +kernel, by decide +kernel, ?_, by decide +kernel, ?_⟩
  · intro q h; have := h.1; omega
  · refine ⟨by decide +kernel, ⟨by decide +kernel, by decide +kernel, by decide +kernel, by decide +kernel⟩, ?_, by decide +kernel, by decide +kernel, by decide +kernel,
      by decide +kernel, .inl rfl, rfl⟩
    intro q h1 h2; have := h2.1; omega

/-- Thirty-two uniques at the last cursor. -/
theorem witness_StrencWritesItsStream :
    let s := loaded (bytes (List.range 32)) [] 32 (8192 - 293)
    s.legalBlock 64 ∧ 32 = distinct s.block ∧
    FollowsPolicy (firstRank s.block) 9 s.block 0 (List.replicate 32 .newUnique) ∧
    293 = 5 + 8 * 32 + tokensBits 3 0 0 (List.replicate 32 .newUnique) ∧ s.limit = 0#13 ∧
    s.cur.toNat + 293 ≤ 8192 := by
  refine ⟨by unfold State.legalBlock; decide +kernel, by decide +kernel, ?_, by decide +kernel, rfl, by decide +kernel⟩
  exact follows_of_nodup _ _ (by decide) 32 0 (by decide)

/-- No cap; and a block of 130 distinct bytes, which stops at the 129th. -/
theorem witness_XstrencWritesItsStream :
    (let s := loaded (asc "a") [] 1 0
     s.legalBlock 512 ∧ 1 = distinct s.block ∧ 1 ≤ 128 ∧ 1 = s.n.toNat ∧
     FollowsPolicy (firstRank s.block) 17 (s.block.take 1) 0 [.newUnique] ∧
     16 = 8 + 7 * 1 + tokensBits 4 0 0 [.newUnique] ∧ s.cur.toNat + 16 ≤ 8192) ∧
    (let x := (List.range 130).map (BitVec.ofNat 8)
     let s := { State.reset with n := 130#10, blk := (List.range 130).map fun a => (a, BitVec.ofNat 8 a) }
     s.legalBlock 512 ∧ s.block = x ∧ 130 = distinct x ∧ 128 < s.n.toNat ∧ distinct (x.take 128) = 128 ∧
     byteAt x 128 ∉ x.take 128 ∧ FollowsPolicy (firstRank x) 17 (x.take 128) 0 (List.replicate 128 .newUnique) ∧
     (∀ v ∈ x.take 128, v.toNat < 128) ∧ 1032 = 8 + 7 * 128 + tokensBits 4 0 0 (List.replicate 128 .newUnique) ∧
     s.cur.toNat + 1032 ≤ 8192) := by
  have hn : ((List.range 130).map (BitVec.ofNat 8)).Nodup := by decide +kernel
  have ht : (((List.range 130).map (BitVec.ofNat 8)).take 128).Nodup := hn.sublist (List.take_sublist _ _)
  refine ⟨⟨by unfold State.legalBlock; decide +kernel, by decide +kernel, by decide +kernel, by decide +kernel, ?_, by decide +kernel, by decide +kernel⟩,
    by unfold State.legalBlock; decide +kernel, by decide +kernel, ?_, by decide +kernel, ?_, by decide +kernel, ?_, by decide +kernel, by decide +kernel,
    by decide +kernel⟩
  · exact follows_of_nodup _ _ (by decide) 1 0 (by decide)
  · rw [distinct, List.Nodup.dedup hn]; rfl
  · rw [distinct, List.Nodup.dedup ht]; rfl
  · exact follows_of_nodup _ _ ht 128 0 (by decide)

/-- R713's overlapping example, and the extended stream of R756's first row, 7-bit and 8-bit. -/
theorem witness_StringDecodersReadTheirStreams :
    (let s := loaded [] (bytes [0x20, 0x4C, 0x26]) 8 0
     let toks : List Token := [.newUnique, .repeatRank 0, .string 6 0]
     s.legalBlock 64 ∧ ValidTokens 1 s.n.toNat 3 0 0 toks ∧ s.cur.toNat + (5 + 8 + tokensBits 3 0 0 toks) ≤ 8192 ∧
     StreamHolds s.str s.cur.toNat (⟨0, 5⟩ :: byteFields 8 (asc "a") ++ tokensFields 3 0 0 toks)) ∧
    (let s := loaded [] (bytes [0x80, 0x61, 0x00]) 1 0
     s.legalBlock 512 ∧ ValidTokens 1 s.n.toNat 4 0 0 [.newUnique] ∧ (∀ v ∈ asc "a", v.toNat < 128) ∧
     s.cur.toNat + (8 + 8 + 1) ≤ 8192 ∧
     StreamHolds s.str s.cur.toNat
       (⟨0, 7⟩ :: ⟨1, 1⟩ :: byteFields 7 (asc "a") ++ tokensFields 4 0 0 [.newUnique])) ∧
    (let s := loaded [] (bytes [0x00, 0xFF, 0x00]) 1 0
     s.legalBlock 512 ∧ StreamHolds s.str s.cur.toNat
       (⟨0, 7⟩ :: ⟨0, 1⟩ :: byteFields 8 (bytes [0xFF]) ++ tokensFields 4 0 0 [.newUnique])) := by
  unfold State.legalBlock
  refine ⟨⟨by decide +kernel, ?_, by decide +kernel, streamHolds_of_holds (by decide)⟩,
    ⟨by decide +kernel, ?_, by decide +kernel, by decide +kernel, streamHolds_of_holds (by decide)⟩, by decide +kernel, streamHolds_of_holds (by decide)⟩
  · exact ⟨by decide +kernel, by decide +kernel, by decide +kernel, by decide +kernel, by decide +kernel, by decide +kernel, by decide +kernel, by decide +kernel, rfl, rfl⟩
  · exact ⟨by decide +kernel, by decide +kernel, rfl, rfl⟩

/-- A row of R714 for each check: IDX ≥ u at u = 0, P ≥ i, i + L > N, no value left, a value never used. -/
theorem witness_StringDecodersRejectBadTokens :
    RejectedTokens 1 1 3 0 0 [.repeatRank 0] ∧
    RejectedTokens 1 3 3 0 0 [.newUnique, .string 2 1] ∧
    RejectedTokens 1 4 3 0 0 [.newUnique, .repeatRank 0, .string 3 0] ∧
    RejectedTokens 1 2 3 0 0 [.newUnique, .newUnique] ∧
    RejectedTokens 2 2 3 0 0 [.newUnique, .repeatRank 0] ∧
    (loaded [] (bytes [0x20, 0x2C]) 1 0).legalBlock 64 ∧
    StreamHolds (loaded [] (bytes [0x20, 0x2C]) 1 0).str 0
      (⟨0, 5⟩ :: byteFields 8 (asc "a") ++ tokensFields 3 0 0 [.repeatRank 0]) ∧
    RejectedTokens 1 1 4 0 0 [.repeatRank 0] ∧
    StreamHolds (loaded [] (bytes [0x80, 0xE1, 0x00]) 1 0).str 0
      (⟨0, 7⟩ :: ⟨1, 1⟩ :: byteFields 7 (asc "a") ++ tokensFields 4 0 0 [.repeatRank 0]) := by
  refine ⟨?_, ?_, ?_, ?_, ?_, by unfold State.legalBlock; decide +kernel, streamHolds_of_holds (by decide), ?_,
    streamHolds_of_holds (by decide)⟩
  all_goals simp [RejectedTokens, idxw, posw, clog2, bitlen]

/-- A bounded stream cut at each kind of field: UM1, a header value, both leading bits, IDX, LM2 and P. -/
theorem witness_StringDecodersRejectBadTokens_range :
    (nearEnd 0 0 0 1 8188).legalBlock 64 ∧ (nearEnd 0 0 0 1 8188).RunsOutAfter [] 5 ∧
    (nearEnd 0 0 0 1 8187).RunsOutAfter (⟨1 - 1, 5⟩ :: byteFields 8 []) 8 ∧
    ∀ c ∈ ([(8179, 0x00, [], 1), (8178, 0x80, [⟨1, 1⟩], 1), (8177, 0x40, [⟨1, 1⟩, ⟨0, 1⟩], idxw 0),
        (8177, 0xC0, [⟨1, 1⟩, ⟨1, 1⟩], 3), (8174, 0x18, [⟨1, 1⟩, ⟨1, 1⟩, ⟨0, 3⟩], posw 0)] :
        List (Nat × Nat × List Field × Nat)),
      OpenTokens 1 1 3 c.2.2.1 c.2.2.2 0 0 [] ∧
      (nearEnd 0 0 (BitVec.ofNat 8 c.2.1) 1 c.1).RunsOutAfter
        (⟨1 - 1, 5⟩ :: byteFields 8 [0#8] ++ tokensFields 3 0 0 [] ++ c.2.2.1) c.2.2.2 := by
  refine ⟨by unfold State.legalBlock; decide, runsOutAfter_of (by decide), runsOutAfter_of (by decide), ?_⟩
  simp only [List.forall_mem_cons]
  exact ⟨⟨by simp [OpenTokens], runsOutAfter_of (by decide)⟩, ⟨by simp [OpenTokens], runsOutAfter_of (by decide)⟩,
    ⟨by simp [OpenTokens], runsOutAfter_of (by decide)⟩, ⟨by simp [OpenTokens], runsOutAfter_of (by decide)⟩,
    ⟨by simp [OpenTokens], runsOutAfter_of (by decide)⟩, by simp⟩

/-- The extended header cut at UM1, P7 and a header value, and a first token that is not there. -/
theorem witness_StringDecodersRejectBadTokens_xrange :
    (nearEnd 0 0 0 1 8186).legalBlock 512 ∧ (nearEnd 0 0 0 1 8186).RunsOutAfter [] 7 ∧
    (nearEnd 0 0 0 1 8185).RunsOutAfter [⟨1 - 1, 7⟩] 1 ∧
    (nearEnd 0 0 0 1 8184).RunsOutAfter (⟨1 - 1, 7⟩ :: ⟨false.toNat, 1⟩ :: byteFields 8 []) 8 ∧
    OpenTokens 1 1 4 [] 1 0 0 [] ∧
    (nearEnd 0 0 0xFF#8 1 8176).RunsOutAfter
      (⟨1 - 1, 7⟩ :: ⟨false.toNat, 1⟩ :: byteFields 8 [0xFF#8] ++ tokensFields 4 0 0 [] ++ []) 1 :=
  ⟨by unfold State.legalBlock; decide, runsOutAfter_of (by decide), runsOutAfter_of (by decide),
    runsOutAfter_of (by decide), ⟨by decide, .inl ⟨rfl, rfl⟩⟩, runsOutAfter_of (by decide)⟩

/-- A round trip's hypotheses for each coder: the encoder succeeds and its stream is still there. -/
theorem witness_RoundTrips : ∀ p ∈ [(Instr.fwenc, 64), (.svenc, 64), (.p7enc, 64), (.txtenc true, 512)] ++
      [(.txtenc false, 512), (.strenc, 64), (.xstrenc, 512)],
    let s := loaded (asc "aba") [] 3 0
    let t := encoded p.1 (asc "aba")
    let u := { t with cur := s.cur }
    t.succeededNow ∧ u.cur = s.cur ∧ u.n = s.n ∧ u.n = t.consumed ∧ u.legalBlock p.2 := by
  unfold State.succeededNow State.legalBlock; decide +kernel

/-- The stream an encoder wrote, read again from its start, is unchanged. -/
theorem witness_RoundTrips_stream (i : Instr) (x : List Byte) (p : Nat) :
    strBit { encoded i x with cur := 0#14 }.str p = strBit (encoded i x).str p := rfl

/-- The state after reset, and its first step, meet the invariants' hypotheses. -/
theorem witness_StepsKeepInvariants : State.reset.MemoriesWf ∧ State.reset.sym.Consistent ∧
    State.reset.ResultsLegal ∧ step State.reset = .next State.reset :=
  ⟨⟨rfl, rfl, rfl, rfl⟩, SymTab.consistent_zero,
    ⟨by decide +kernel, by decide +kernel, by decide +kernel, by decide +kernel, by decide +kernel, by decide +kernel⟩, rfl⟩

/-- The offsets at the edges of each clause. -/
theorem witness_IdleReadsReturnTheMappedWord :
    (∃ s : State, s.running = none ∧ s.inbox = [.read 0x3FFC#14]) ∧ (0x001#14).toNat % 4 ≠ 0 ∧
    (0x000#14, 0x54444301#32) ∈ registerWords State.reset ∧ (0x040#14, 0#32) ∈ registerWords State.reset ∧
    (0x1000#14).toNat = 0x1000 + 4 * 0 ∧ (0x11FC#14).toNat = 0x1000 + 4 * 127 ∧
    (0x2000#14).toNat = 0x2000 + 4 * 0 ∧ (0x23FC#14).toNat = 0x2000 + 4 * 255 ∧
    ∀ k ∈ ([0x044, 0xFFC, 0x1200, 0x1FFC, 0x2400, 0x3FFC] : List Nat), (BitVec.ofNat 14 k).toNat = k ∧
      k % 4 = 0 ∧ ((0x44 ≤ k ∧ k < 0x1000) ∨ (0x1200 ≤ k ∧ k < 0x2000) ∨ 0x2400 ≤ k) :=
  ⟨⟨{ State.reset with inbox := [.read 0x3FFC#14] }, rfl, rfl⟩, by decide +kernel⟩

/-- The same edges for writes; the named registers' offsets are single values. -/
theorem witness_IdleWritesStoreOrStart :
    (∃ s : State, s.running = none ∧ s.inbox = [wr 0x00C#14 0x16#32]) ∧
    ((0x013#14).toNat % 4 ≠ 0 ∨ 0xF#4 ≠ 0xF#4) ∧ ((0x010#14).toNat % 4 ≠ 0 ∨ 0x7#4 ≠ 0xF#4) ∧
    (1#32).getLsbD 1 = false ∧
    ∀ k ∈ ([0x020, 0xFFC, 0x1200, 0x1FFC, 0x2400, 0x3FFC] : List Nat), (BitVec.ofNat 14 k).toNat = k ∧
      k % 4 = 0 ∧ ((0x020 ≤ k ∧ k < 0x1000) ∨ (0x1200 ≤ k ∧ k < 0x2000) ∨ 0x2400 ≤ k) :=
  ⟨⟨{ State.reset with inbox := [wr 0x00C#14 0x16#32] }, rfl, rfl⟩, by decide +kernel⟩

/-- A busy core with one access before its completion; the offsets at the edges of the dropped and the
unspecified ranges. -/
theorem witness_BusyAccessesDropStoreOrDraw :
    (∃ s : State, s.running = some ⟨0#32, 1⟩ ∧ s.inbox = [wr 0x11FC#14 0#32] ∧ 1 ≤ 1) ∧
    (∃ s : State, s.running = some ⟨0#32, 1⟩ ∧ s.inbox = [.read 0x040#14]) ∧
    (∃ s : State, s.running = some ⟨0#32, 1⟩ ∧ s.inbox = [.read 0x041#14] ∧ (0x041#14).toNat % 4 ≠ 0) ∧
    (∃ s : State, s.running = some ⟨0#32, 1⟩ ∧ s.inbox = [.write 0x010#14 0x7#4 0#32] ∧ 0x7#4 ≠ 0xF#4) ∧
    ∀ k ∈ ([0x1000, 0x11FC, 0x2000, 0x23FC, 0x010, 0x040] : List Nat), (BitVec.ofNat 14 k).toNat = k ∧
      k % 4 = 0 ∧ ((0x1000 ≤ k ∧ k < 0x1200) ∨ (0x2000 ≤ k ∧ k < 0x2400) ∨ (0x010 ≤ k ∧ k ≤ 0x040)) :=
  ⟨⟨{ State.reset.startCommand 0#32 1 with inbox := [wr 0x11FC#14 0#32] }, rfl, rfl, le_rfl⟩,
    ⟨{ State.reset.startCommand 0#32 1 with inbox := [.read 0x040#14] }, rfl, rfl⟩,
    ⟨{ State.reset.startCommand 0#32 1 with inbox := [.read 0x041#14] }, rfl, rfl, by decide⟩,
    ⟨{ State.reset.startCommand 0#32 1 with inbox := [.write 0x010#14 0x7#4 0#32] }, rfl, rfl, by decide⟩,
    by decide +kernel⟩

theorem witness_NothingOfARunningCommandIsSeen :
    (State.reset.startCommand 0#32 1).running = some ⟨0#32, 1⟩ ∧
    ∃ t, step (State.reset.startCommand 0#32 1) = .next t := ⟨rfl, _, rfl⟩

/-- Idle; a busy decoder; a busy encoder that would succeed; a busy command that is neither; and a
busy word that does not decode. -/
theorem witness_SoftResetClearsAllButTheMemories :
    (3#32).getLsbD 1 = true ∧
    (∃ s : State, s.commandToRun = none ∧ s.running = none ∧ s.inbox = [wr 0x004#14 3#32]) ∧
    (∀ w : Word, let s := { (loaded (asc "a") [] 1 0).startCommand w 1 with inbox := [wr 0x004#14 3#32] }
      s.commandToRun = none ∧ s.running = some ⟨w, 1⟩ ∧ s.inbox = [wr 0x004#14 3#32]) ∧
    (after .svenc ((loaded (asc "a") [] 1 0).startCommand 0x12#32 1)).succeededNow ∧
    decode 0x13#32 = .ok .svdec ∧ decode 0x12#32 = .ok .svenc ∧ decode 0x08#32 = .ok .symrst ∧
    decode 0x1C#32 = .error (.unknownOpcode 0x1C#8) ∧ ¬(after .svenc State.reset).succeededNow := by
  unfold State.succeededNow
  exact ⟨by decide, ⟨{ State.reset with inbox := [wr 0x004#14 3#32] }, rfl, rfl, rfl⟩,
    fun w => ⟨rfl, rfl, rfl⟩, by decide +kernel⟩

/-- Each of the four writes. -/
theorem witness_InterruptFollowsDoneAndEnable :
    (∃ s : State, s.running = none ∧ s.inbox = [wr 0x008#14 2#32]) ∧ (2#32).getLsbD 1 = true ∧
    (0#32).getLsbD 0 = false := ⟨⟨{ State.reset with inbox := [wr 0x008#14 2#32] }, rfl, rfl⟩, by decide +kernel⟩

end Sys2Proof.Tests
end

section
/-! SUPPORT. The fixed-width round trip (42_fixed_width.md R507): what any coder's round trip needs, that a
table's UNIQ inverts its RANK, and what FWENC and FWDEC do when they succeed. -/

namespace Sys2Proof.Machine

/-! ### What a round trip needs of a coder -/

/-- An encoder that reached its shared end and succeeded wrote all its fields and committed (R409, R800). -/
theorem emit_of_succeededNow {s t : State} {c : Coded} (hw : fieldsWidth c.fields = c.total)
    (h : complete s (emit s c) = .next t) (ht : t.succeededNow) :
    s.cur.toNat + c.total ≤ 8192 ∧
      t = (s.commitCoded c (putAll s.str s.cur.toNat c.fields) (s.cur.toNat + c.total)).succeeded
        c.capped := by
  obtain ⟨herr, hna⟩ := ht
  obtain ⟨-, -, he⟩ | ⟨-, -, he⟩ | ⟨-, hroom, he⟩ := emit_cases s c hw <;>
    rw [he] at h <;> cases h
  · simp at hna
  · simp at herr
  · exact ⟨hroom, rfl⟩

/-- What a successful encoder leaves for its decoder `dec`: the fields of `c`, each in its width, written
and committed; from any stream that holds them `dec` reads the first k bytes of the block and ends behind
the last field. -/
structure Encodes (dec : Memory → Nat → Nat → Except CmdError (List Byte × Nat)) (k : Nat)
    (s t : State) (c : Coded) : Prop where
  width : fieldsWidth c.fields = c.total
  fit : FieldsFit c.fields
  written : complete s (emit s c) = .next t
  length : k ≤ s.n.toNat
  decodes : s.cur.toNat + c.total ≤ 8192 → ∀ m, StreamHolds m s.cur.toNat c.fields →
    dec m k s.cur.toNat = .ok (s.block.take k, s.cur.toNat + c.total)

/-- A round trip from its two halves: what the decoder's command is, and what the encoder left. -/
theorem roundTrips_of_encodes {e d : Instr} {maxn : Nat} {n : State → State → BitVec 10}
    {dec : Memory → Nat → Nat → Except CmdError (List Byte × Nat)}
    (hdec : ∀ u : State, u.legalBlock maxn →
      exec d u = complete u (deliver u (dec u.str u.n.toNat u.cur.toNat)))
    (henc : ∀ s t : State, exec e s = .next t → t.succeededNow → ∃ c, Encodes dec (n s t).toNat s t c) :
    RoundTrips e d maxn n := by
  intro s t u hst ht hcur hn hlegal hbits
  obtain ⟨c, henc⟩ := henc s t hst ht
  obtain ⟨hroom, rfl⟩ := emit_of_succeededNow henc.width henc.written ht
  have htotal : (BitVec.ofNat 14 c.total).toNat = c.total := Nat.mod_eq_of_lt (by omega)
  have hholds : StreamHolds u.str s.cur.toNat c.fields := by
    refine streamHolds_congr c.fields (fun q hq hq' => ?_) (streamHolds_putAll _ henc.fit s.str _)
    rw [henc.width, ← htotal] at hq'
    exact (hbits q hq hq').symm
  have hexec := hdec u hlegal
  rw [hn, hcur, henc.decodes hroom _ hholds] at hexec
  refine ⟨_, hexec, ⟨rfl, rfl⟩, rfl, ?_, ?_, fun i hi => ?_⟩
  · simp only [State.endCommand_cur, State.commitDecoded_cur, State.succeeded_bitlen,
      State.commitCoded_bitlen, htotal]
    exact Nat.mod_eq_of_lt (by omega)
  · simp [hcur]
  · refine (Memory.read_writeBytes_inside _ _ _ _ _ ?_).trans ?_
    · simpa using ⟨hi, hi.trans_le henc.length⟩
    · rw [List.getElem_take, State.getElem_block]

/-! ### A table that ranks a block inverts its ranks (R19, R451) -/

theorem distinct_le_of_subset {x y : List Byte} (h : x ⊆ y) : distinct x ≤ distinct y := by
  rw [distinct_eq_card, distinct_eq_card]
  exact Finset.card_le_card fun v hv => by simpa using h (by simpa using hv)

/-- The rank of a value of the block is below U, and UNIQ at that rank is the value. -/
theorem RanksBlock.uniqAt_rankAt {t : SymTab} {x : List Byte} (h : RanksBlock t x) {v : Byte}
    (hv : v ∈ x) : (t.rankAt v).toNat < t.u.toNat ∧ t.uniqAt (t.rankAt v) = v := by
  have hp : x.idxOf v < x.length := List.idxOf_lt_length_iff.2 hv
  have hget : x[x.idxOf v] = v := List.getElem_idxOf hp
  have hnew : x[x.idxOf v] ∉ x.take (x.idxOf v) := by
    rw [hget, List.mem_take_iff_idxOf_lt hv]
    exact lt_irrefl _
  have hrank := h.rank _ hp hnew
  have huniq := h.uniq _ hp hnew
  have hlt : distinct (x.take (x.idxOf v)) < distinct x := by
    have hsnoc := distinct_snoc (x.take (x.idxOf v)) x[x.idxOf v]
    rw [if_neg hnew, List.take_concat_get' _ _ hp] at hsnoc
    have := distinct_le_of_subset (List.take_subset (x.idxOf v + 1) x)
    omega
  rw [hget] at hrank huniq
  refine ⟨by rw [hrank, h.u]; exact hlt, ?_⟩
  rw [← hrank, BitVec.ofNat_toNat, BitVec.setWidth_eq] at huniq
  exact huniq

theorem SymTab.getD_uniques (t : SymTab) {k : Nat} {r : Byte} (h : r.toNat < k) :
    (t.uniques k).getD r.toNat 0#8 = t.uniqAt r := by
  simp [SymTab.uniques, h]

/-- Looking every byte's rank up among the uniques gives the block back. -/
theorem RanksBlock.map_uniques_rankAt {t : SymTab} {x : List Byte} (h : RanksBlock t x) :
    (x.map fun v => (t.rankAt v).toNat).map (fun r => (t.uniques t.u.toNat).getD r 0#8) = x := by
  rw [List.map_map]
  refine (List.map_congr_left fun v hv => ?_).trans (List.map_id x)
  obtain ⟨hlt, huniq⟩ := h.uniqAt_rankAt hv
  exact (t.getD_uniques hlt).trans huniq

/-! ### The fixed-width stream (R500, R501) -/

/-- Ranks below U fit FWWidth(U). -/
theorem le_two_pow_fwWidth {u : Nat} (h : u ≤ 16) : u ≤ 2 ^ fwWidth u := by
  unfold fwWidth
  split_ifs <;> omega

theorem fieldsFit_fwStream {vals : List Byte} {ranks : List Nat} (hv : vals.length ≤ 16)
    (hr : ∀ r ∈ ranks, r < vals.length) : FieldsFit (fwStream vals ranks) := by
  simp only [FieldsFit, fwStream, List.cons_append, List.forall_mem_cons, List.forall_mem_append,
    List.forall_mem_map]
  exact ⟨by omega, fun v _ => v.isLt, fun r hr' => (hr r hr').trans_le (le_two_pow_fwWidth hv)⟩

/-! ### FWDEC on a stream it accepts (R506) -/

/-- The rank loop maps ranks below U through the header's values. -/
theorem fwSymbols_of_holds {m : Memory} {vals : List Byte} {w p : Nat} (ranks : List Nat)
    (hr : ∀ r ∈ ranks, r < vals.length) (h : StreamHolds m p (ranks.map fun r => ⟨r, w⟩))
    (hp : p + w * ranks.length ≤ 8192) :
    fwSymbols m vals w ranks.length p =
      .ok (ranks.map fun r => vals.getD r 0#8, p + w * ranks.length) := by
  induction ranks generalizing p with
  | nil => rfl
  | cons r ranks ih =>
    rw [List.forall_mem_cons] at hr
    obtain ⟨hlt, hr⟩ := hr
    simp only [List.length_cons, Nat.mul_succ] at hp ⊢
    have hget : getBits m p w = .ok (r, p + w) := getBits_of_holds h (show p + w ≤ 8192 by omega)
    have hrest := ih (p := p + w) hr h.2 (by omega)
    rw [fwSymbols, hget]
    simp only [ge_iff_le, if_neg (Nat.not_le.2 hlt), hrest, List.map_cons]
    rw [Nat.add_assoc, Nat.add_comm w]

/-- The header, then the ranks. -/
theorem fwDecode_of_holds {m : Memory} {p : Nat} (vals : List Byte) (ranks : List Nat)
    (hv : 1 ≤ vals.length) (hr : ∀ r ∈ ranks, r < vals.length)
    (h : StreamHolds m p (fwStream vals ranks)) (hp : p + fieldsWidth (fwStream vals ranks) ≤ 8192) :
    fwDecode m ranks.length p =
      .ok (ranks.map fun r => vals.getD r 0#8, p + fieldsWidth (fwStream vals ranks)) := by
  rw [fieldsWidth_fwStream] at hp ⊢
  have hu : vals.length - 1 + 1 = vals.length := by omega
  have hhead : getBits m p 4 = .ok (vals.length - 1, p + 4) :=
    getBits_of_holds h (show p + 4 ≤ 8192 by omega)
  obtain ⟨hvals, hranks⟩ := (streamHolds_append m _ _ (p + 4)).1 h.2
  rw [fieldsWidth_map] at hranks
  have hmany : getMany m 8 vals.length (p + 4) =
      .ok (vals.map BitVec.toNat, p + 4 + 8 * vals.length) := by
    have := getMany_of_holds (m := m) (w := 8) (p := p + 4) (vals.map BitVec.toNat)
      (by rw [List.map_map]; exact hvals) (by rw [List.length_map]; omega)
    rwa [List.length_map] at this
  have hback : (vals.map BitVec.toNat).map (BitVec.ofNat 8) = vals := by
    rw [List.map_map]
    exact (List.map_congr_left fun v _ => by simp).trans (List.map_id vals)
  simp only [fwDecode, hhead, hu, hmany, hback]
  rw [fwSymbols_of_holds ranks hr hranks (by omega)]
  simp only [Nat.add_assoc]

theorem exec_fwdec_of_legal {u : State} (h : u.legalBlock 64) :
    exec .fwdec u = complete u (deliver u (fwDecode u.str u.n.toNat u.cur.toNat)) :=
  congrArg (complete u) (if_pos ((u.blockOk_iff 64).2 h))

/-! ### FWENC when it succeeds (R502, R503) -/

/-- FWENC succeeds only on a legal block with U at most 16, and then by its shared end. -/
theorem fwenc_of_succeededNow {s t : State} (h : exec .fwenc s = .next t) (ht : t.succeededNow) :
    s.legalBlock 64 ∧ (symRebuild s.block).u.toNat ≤ 16 ∧
      complete s (emit s (fwCoded s (symRebuild s.block))) = .next t := by
  change complete s (fwencBody s) = .next t at h
  obtain ⟨herr, hna⟩ := ht
  unfold fwencBody at h
  by_cases hb : s.blockOk maxnSmall = true
  · rw [if_pos hb] at h
    by_cases hu : (symRebuild s.block).u.toNat > 16
    · simp only [if_pos hu] at h
      cases h
      simp at hna
    · simp only [if_neg hu] at h
      exact ⟨(s.blockOk_iff 64).1 hb, Nat.not_lt.1 hu, h⟩
  · rw [if_neg hb] at h
    cases h
    simp at herr

theorem encodes_fwenc {s t : State} (h : exec .fwenc s = .next t) (ht : t.succeededNow) :
    Encodes fwDecode s.n.toNat s t (fwCoded s (symRebuild s.block)) := by
  obtain ⟨⟨hn, hmax, -⟩, hu, hwritten⟩ := fwenc_of_succeededNow h ht
  have hranks : RanksBlock (symRebuild s.block) s.block := ranksBlock_block s (by omega)
  generalize symRebuild s.block = tab at *
  have hlt : ∀ r ∈ s.block.map fun v => (tab.rankAt v).toNat, r < (tab.uniques tab.u.toNat).length := by
    simpa using fun v hv => (hranks.uniqAt_rankAt hv).1
  have hpos : 1 ≤ (tab.uniques tab.u.toNat).length := by
    rw [SymTab.length_uniques, hranks.u]
    exact distinct_pos (List.ne_nil_of_length_pos (by rwa [State.length_block]))
  refine ⟨fwCoded_width s tab, fieldsFit_fwStream (by simpa using hu) hlt, hwritten, le_rfl,
    fun hroom m hholds => ?_⟩
  rw [← fwCoded_width] at hroom ⊢
  have hdec := fwDecode_of_holds _ _ hpos hlt hholds hroom
  rw [List.length_map, State.length_block, hranks.map_uniques_rankAt] at hdec
  rw [← s.length_block, List.take_length, s.length_block]
  exact hdec

/-- Settles O43: FWDEC reads back the header and the ranks FWENC wrote, and UNIQ inverts RANK. -/
theorem fixedWidthRoundTrip : Obligations.FixedWidthRoundTrip :=
  roundTrips_of_encodes (fun _ => exec_fwdec_of_legal) fun _ _ h ht => ⟨_, encodes_fwenc h ht⟩

end Sys2Proof.Machine
end

section
/-! SUPPORT. The single-value coder (43_single_value.md): its round trip R557 and the bound of R554. SVDEC
reads back what SVENC wrote, and V has the largest count of the block. -/

namespace Sys2Proof.Machine

/-! ### The single-value stream (R550) -/

@[simp] theorem svSymbols_cons_self (v : Byte) (xs : List Byte) :
    svSymbols v (v :: xs) = ⟨0, 1⟩ :: svSymbols v xs := if_pos rfl

theorem svSymbols_cons_of_ne {v x : Byte} (h : x ≠ v) (xs : List Byte) :
    svSymbols v (x :: xs) = ⟨1, 1⟩ :: ⟨x.toNat, 8⟩ :: svSymbols v xs := if_neg h

theorem fieldsFit_svSymbols (v : Byte) (x : List Byte) : FieldsFit (svSymbols v x) := by
  induction x with
  | nil => simp [FieldsFit, svSymbols]
  | cons a x ih =>
    by_cases ha : a = v
    · rw [ha, svSymbols_cons_self]
      exact List.forall_mem_cons.2 ⟨by decide, ih⟩
    · rw [svSymbols_cons_of_ne ha]
      exact List.forall_mem_cons.2 ⟨by decide, List.forall_mem_cons.2 ⟨a.isLt, ih⟩⟩

theorem fieldsFit_svStream (v : Byte) (x : List Byte) : FieldsFit (svStream v x) :=
  List.forall_mem_cons.2 ⟨v.isLt, fieldsFit_svSymbols v x⟩

/-! ### SVDEC on the stream of a block (R555) -/

/-- The flag loop takes a flag of 0 as V and the literal after a flag of 1 as the byte. -/
theorem svFlags_of_holds {m : Memory} {v : Byte} (x : List Byte) {p : Nat}
    (h : StreamHolds m p (svSymbols v x)) (hp : p + fieldsWidth (svSymbols v x) ≤ 8192) :
    svFlags m v x.length p = .ok (x, p + fieldsWidth (svSymbols v x)) := by
  induction x generalizing p with
  | nil => rfl
  | cons a x ih =>
    by_cases ha : a = v
    · subst ha
      simp only [svSymbols_cons_self, fieldsWidth_cons, ← Nat.add_assoc] at h hp ⊢
      have hflag : getBits m p 1 = .ok (0, p + 1) := getBits_of_holds h (show p + 1 ≤ 8192 by omega)
      simp [svFlags, hflag, ih h.2 hp]
    · simp only [svSymbols_cons_of_ne ha, fieldsWidth_cons, ← Nat.add_assoc] at h hp ⊢
      have hflag : getBits m p 1 = .ok (1, p + 1) := getBits_of_holds h (show p + 1 ≤ 8192 by omega)
      have hlit : getBits m (p + 1) 8 = .ok (a.toNat, p + 1 + 8) :=
        getBits_of_holds h.2 (show p + 1 + 8 ≤ 8192 by omega)
      simp [svFlags, hflag, hlit, ih h.2.2 hp]

/-- V, then the flags. -/
theorem svDecode_of_holds {m : Memory} {p : Nat} (v : Byte) (x : List Byte)
    (h : StreamHolds m p (svStream v x)) (hp : p + fieldsWidth (svStream v x) ≤ 8192) :
    svDecode m x.length p = .ok (x, p + fieldsWidth (svStream v x)) := by
  simp only [svStream, fieldsWidth_cons, ← Nat.add_assoc] at h hp ⊢
  have hv : getBits m p 8 = .ok (v.toNat, p + 8) := getBits_of_holds h (show p + 8 ≤ 8192 by omega)
  simp [svDecode, hv, svFlags_of_holds x h.2 hp]

theorem exec_svdec_of_legal {u : State} (h : u.legalBlock 64) :
    exec .svdec u = complete u (deliver u (svDecode u.str u.n.toNat u.cur.toNat)) :=
  congrArg (complete u) (if_pos ((u.blockOk_iff 64).2 h))

/-! ### SVENC when it succeeds (R553) -/

/-- SVENC succeeds only on a legal block, and then by its shared end. -/
theorem svenc_of_succeededNow {s t : State} (h : exec .svenc s = .next t) (ht : t.succeededNow) :
    s.legalBlock 64 ∧ complete s (emit s (svCoded s (symRebuild s.block))) = .next t := by
  change complete s (svencBody s) = .next t at h
  obtain ⟨herr, -⟩ := ht
  unfold svencBody at h
  by_cases hb : s.blockOk maxnSmall = true
  · rw [if_pos hb] at h
    exact ⟨(s.blockOk_iff 64).1 hb, h⟩
  · rw [if_neg hb] at h
    cases h
    simp at herr

theorem encodes_svenc {s t : State} (h : exec .svenc s = .next t) (ht : t.succeededNow) :
    Encodes svDecode s.n.toNat s t (svCoded s (symRebuild s.block)) := by
  obtain ⟨⟨-, hmax, -⟩, hwritten⟩ := svenc_of_succeededNow h ht
  have hwidth := svCoded_width s _ (ranksBlock_block s (by omega))
  refine ⟨hwidth, fieldsFit_svStream _ _, hwritten, le_rfl, fun hroom m hholds => ?_⟩
  rw [← hwidth] at hroom ⊢
  rw [← s.length_block, List.take_length]
  exact svDecode_of_holds _ _ hholds hroom

/-- Settles O44: SVDEC reads back V and, flag by flag, the bytes SVENC wrote. -/
theorem singleValueRoundTrip : Obligations.SingleValueRoundTrip :=
  roundTrips_of_encodes (fun _ => exec_svdec_of_legal) fun _ _ h ht => ⟨_, encodes_svenc h ht⟩

/-! ### V has the largest count (R551) -/

/-- The search never gives up a count it has met. -/
theorem occAt_le_dominantFrom (t : SymTab) (vs : List Byte) (best : Byte) :
    ∀ w ∈ best :: vs, (t.occAt w).toNat ≤ (t.occAt (dominantFrom t best vs)).toNat := by
  induction vs generalizing best with
  | nil => simp [dominantFrom]
  | cons v vs ih =>
    rw [dominantFrom]
    split_ifs with hv
    · have hmax := List.forall_mem_cons.1 (ih v)
      exact List.forall_mem_cons.2 ⟨hv.le.trans hmax.1, ih v⟩
    · have hmax := List.forall_mem_cons.1 (ih best)
      exact List.forall_mem_cons.2
        ⟨hmax.1, List.forall_mem_cons.2 ⟨(Nat.not_lt.1 hv).trans hmax.1, hmax.2⟩⟩

/-- A value of the block is among the uniques. -/
theorem RanksBlock.mem_uniques {t : SymTab} {x : List Byte} (h : RanksBlock t x) {v : Byte}
    (hv : v ∈ x) : v ∈ t.uniques t.u.toNat := by
  obtain ⟨hlt, huniq⟩ := h.uniqAt_rankAt hv
  exact List.mem_map.2 ⟨(t.rankAt v).toNat, List.mem_range.2 hlt, by simpa using huniq⟩

theorem RanksBlock.count_le_dominant {t : SymTab} {x : List Byte} (h : RanksBlock t x) (v : Byte) :
    x.count v ≤ (t.occAt (dominant t)).toNat := by
  by_cases hv : v ∈ x
  · rw [← h.occ]
    exact occAt_le_dominantFrom t _ _ v (List.mem_cons_of_mem _ (h.mem_uniques hv))
  · simp [List.count_eq_zero.2 hv]

/-- No other choice of V would give a shorter stream than R553's. -/
theorem bitlen_le_of_svenc {s t : State} (h : exec .svenc s = .next t) (ht : t.succeededNow) (v : Byte) :
    t.bitlen.toNat ≤ 8 + s.n.toNat + 8 * (s.n.toNat - s.block.count v) := by
  obtain ⟨⟨-, hmax, -⟩, hwritten⟩ := svenc_of_succeededNow h ht
  have hranks := ranksBlock_block s (by omega)
  obtain ⟨-, rfl⟩ := emit_of_succeededNow (svCoded_width s _ hranks) hwritten ht
  have hcount := hranks.count_le_dominant v
  calc (BitVec.ofNat 14 (svCoded s (symRebuild s.block)).total).toNat
      ≤ (svCoded s (symRebuild s.block)).total := Nat.mod_le _ _
    _ ≤ _ := by simp only [svCoded]; omega

/-- Settles O32: 48 positions of 64 leave at most 16 literals, 8 + 64 + 8·16 bits. -/
theorem svencDominanceIsSmall : Obligations.SvencDominanceIsSmall := by
  rintro s t hn ⟨v, hv⟩ h ht
  have hlen := bitlen_le_of_svenc h ht v
  have hn64 : s.n.toNat = 64 := by rw [hn]; rfl
  omega

end Sys2Proof.Machine
end

section
/-! SUPPORT. The 7-bit round trip (44_seven_bit.md R606): ORACC tells which blocks P7ENC takes, and P7DEC
reads their bytes back. -/

namespace Sys2Proof.Machine

/-! ### Bit 7 of ORACC (R601) -/

/-- A bit of an OR over bytes is set when it was set before or some byte sets it. -/
theorem getLsbD_foldl_or (x : List Byte) (a : Byte) (k : Nat) :
    (x.foldl (fun a v => a ||| v) a).getLsbD k = (a.getLsbD k || x.any fun v => v.getLsbD k) := by
  induction x generalizing a with
  | nil => simp
  | cons v x ih => simp [ih, Bool.or_assoc]

theorem getLsbD_seven_eq_false_iff (v : Byte) : v.getLsbD 7 = false ↔ v.toNat < 128 := by
  rw [BitVec.getLsbD, Nat.testBit_eq_decide_div_mod_eq, decide_eq_false_iff_not]
  omega

/-- R601's test: ORACC[7] is 0 exactly when every byte is below 0x80. -/
theorem RanksBlock.oracc_seven {t : SymTab} {x : List Byte} (h : RanksBlock t x) :
    t.oracc.getLsbD 7 = false ↔ ∀ v ∈ x, v.toNat < 128 := by
  rw [h.oracc, getLsbD_foldl_or, BitVec.getLsbD_zero, Bool.false_or]
  simp only [List.any_eq_false, Bool.not_eq_true, getLsbD_seven_eq_false_iff]

/-! ### The 7-bit stream (R600) -/

theorem fieldsFit_p7Stream (x : List Byte) : FieldsFit (p7Stream x) :=
  List.forall_mem_map.2 fun v _ => Nat.mod_lt v.toNat (show 0 < 128 by decide)

/-! ### P7DEC on the stream of a block (R605) -/

/-- Seven bits hold all of a byte below 0x80. -/
theorem map_ofNat_mod_of_lt {x : List Byte} (hx : ∀ v ∈ x, v.toNat < 128) :
    (x.map fun v => v.toNat % 128).map (BitVec.ofNat 8) = x := by
  rw [List.map_map]
  refine (List.map_congr_left fun v hv => ?_).trans (List.map_id x)
  simp [Nat.mod_eq_of_lt (hx v hv)]

theorem p7Decode_of_holds {m : Memory} {p : Nat} {x : List Byte} (hx : ∀ v ∈ x, v.toNat < 128)
    (h : StreamHolds m p (p7Stream x)) (hp : p + 7 * x.length ≤ 8192) :
    p7Decode m x.length p = .ok (x, p + 7 * x.length) := by
  have hmany := getMany_of_holds (m := m) (w := 7) (p := p) (x.map fun v => v.toNat % 128)
    (by rw [List.map_map]; exact h) (by rwa [List.length_map])
  rw [List.length_map] at hmany
  simp only [p7Decode, hmany, map_ofNat_mod_of_lt hx]

theorem exec_p7dec_of_legal {u : State} (h : u.legalBlock 64) :
    exec .p7dec u = complete u (deliver u (p7Decode u.str u.n.toNat u.cur.toNat)) :=
  congrArg (complete u) (if_pos ((u.blockOk_iff 64).2 h))

/-! ### What a success rules out (R800, R802) -/

/-- A command behind R802's block check that succeeds had a legal block. -/
theorem legalBlock_of_succeededNow {s t : State} {b : Body} {maxn : Nat}
    (h : complete s (if s.blockOk maxn then b else .raise .len) = .next t) (ht : t.succeededNow) :
    s.legalBlock maxn ∧ complete s b = .next t := by
  obtain ⟨herr, -⟩ := ht
  split_ifs at h with hb
  · exact ⟨(s.blockOk_iff maxn).1 hb, h⟩
  · cases h
    simp at herr

/-- A command that succeeds did not decline. -/
theorem not_declined_of_succeededNow {s t : State} {b : Body} {p : Prop} [Decidable p]
    (h : complete s (if p then .notApplicable else b) = .next t) (ht : t.succeededNow) :
    ¬p ∧ complete s b = .next t := by
  obtain ⟨-, hna⟩ := ht
  split_ifs at h with hp
  · cases h
    simp at hna
  · exact ⟨hp, h⟩

/-! ### P7ENC when it succeeds (R601, R602) -/

/-- P7ENC succeeds only on a legal block of bytes below 0x80, and then by its shared end. -/
theorem p7enc_of_succeededNow {s t : State} (h : exec .p7enc s = .next t) (ht : t.succeededNow) :
    s.legalBlock 64 ∧ (∀ v ∈ s.block, v.toNat < 128) ∧
      complete s (emit s (p7Coded s (symRebuild s.block))) = .next t := by
  change complete s (p7encBody s) = .next t at h
  obtain ⟨hlegal, h⟩ := legalBlock_of_succeededNow (maxn := 64) h ht
  obtain ⟨hor, h⟩ := not_declined_of_succeededNow h ht
  have ⟨_, hmax, _⟩ := hlegal
  have hranks := ranksBlock_block s (by omega)
  exact ⟨hlegal, hranks.oracc_seven.1 (Bool.eq_false_of_not_eq_true hor), h⟩

theorem encodes_p7enc {s t : State} (h : exec .p7enc s = .next t) (ht : t.succeededNow) :
    Encodes p7Decode s.n.toNat s t (p7Coded s (symRebuild s.block)) := by
  obtain ⟨-, hlow, hwritten⟩ := p7enc_of_succeededNow h ht
  refine ⟨p7Coded_width s _, fieldsFit_p7Stream _, hwritten, le_rfl, fun hroom m hholds => ?_⟩
  simp only [p7Coded, ← s.length_block, List.take_length] at hroom hholds ⊢
  exact p7Decode_of_holds hlow hholds hroom

/-- Settles O45: a byte below 0x80 is its low seven bits, which P7ENC wrote and P7DEC reads back. -/
theorem sevenBitRoundTrip : Obligations.SevenBitRoundTrip :=
  roundTrips_of_encodes (fun _ => exec_p7dec_of_legal) fun _ _ h ht => ⟨_, encodes_p7enc h ht⟩

end Sys2Proof.Machine
end

section
/-! SUPPORT. The text round trip (45_text.md R669): a rank's code is its group and its extra bits (R662), and
TXTDEC reads back the table, L7 and the codes TXTENC wrote. -/

namespace Sys2Proof.Machine

/-! ### A field is its low bits, then its high bits (R402, R404) -/

theorem readField_add (m : Memory) (a b p : Nat) :
    readField m p (a + b) = readField m p a + 2 ^ a * readField m (p + a) b := by
  induction a generalizing p with
  | zero => simp [readField]
  | succ a ih =>
    rw [Nat.add_right_comm, readField, readField, ih, pow_succ', Nat.add_assoc p 1 a, Nat.add_comm 1 a]
    ring

/-- A stream that holds a field holds its low a bits and its other b bits as two fields. -/
theorem streamHolds_split {m : Memory} {a b p v : Nat} {fs : List Field}
    (h : StreamHolds m p (⟨v, a + b⟩ :: fs)) :
    StreamHolds m p (⟨v % 2 ^ a, a⟩ :: ⟨v / 2 ^ a, b⟩ :: fs) := by
  obtain ⟨rfl, hfs⟩ : readField m p (a + b) = v ∧ StreamHolds m (p + (a + b)) fs := h
  have hlow : readField m p a < 2 ^ a := readField_lt a m p
  rw [← Nat.add_assoc] at hfs
  refine ⟨?_, ?_, hfs⟩
  · rw [readField_add, Nat.add_mul_mod_self_left, Nat.mod_eq_of_lt hlow]
  · rw [readField_add, Nat.add_mul_div_left _ _ (Nat.two_pow_pos a), Nat.div_eq_of_lt hlow, Nat.zero_add]

/-! ### Tables and codes (R655, R656, R662) -/

theorem getElem?_of_rankIn {table : List Byte} {v : Byte} {r : Nat} (h : rankIn table v = some r) :
    table[r]? = some v := by
  induction table generalizing r with
  | nil => cases h
  | cons x xs ih =>
    rw [rankIn] at h
    split_ifs at h with hx
    · cases h
      simpa using hx
    · obtain ⟨q, hq, rfl⟩ := Option.map_eq_some_iff.1 h
      simpa using ih hq

theorem lt_three_and_length_of_textTable {sel : Nat} {table : List Byte} (h : textTable sel = some table) :
    sel < 3 ∧ table.length = 23 := by
  unfold textTable at h
  split at h <;> cases h <;> decide

/-- R660 never selects the reserved table. -/
theorem textTable_textSelect (ad : Bool) (x : List Byte) :
    textTable (textSelect ad x) = some (encoderTable (textSelect ad x)) := by
  simp only [textSelect]
  split_ifs <;> rfl

/-- R662: the low three bits of a rank's code are a group other than the escape, the code's other bits are
the group's extra bits, and together they name the rank. -/
theorem rankCode_group : ∀ r < 23,
    (rankCode r).width = 3 + extraBits ((rankCode r).value % 2 ^ 3) ∧
      (rankCode r).value % 2 ^ 3 ≠ 3 ∧
      groupRank ((rankCode r).value % 2 ^ 3) ((rankCode r).value / 2 ^ 3) = r ∧
      (rankCode r).value < 2 ^ (rankCode r).width := by
  decide

/-- A rank in a table of R655 is one of the 23 that have a code. -/
theorem rankIn_lt {table : List Byte} {v : Byte} {r : Nat} (ht : table.length = 23)
    (h : rankIn table v = some r) : r < 23 := by
  obtain ⟨hlt, -⟩ := List.getElem?_eq_some_iff.1 (getElem?_of_rankIn h)
  rwa [← ht]

theorem textCode_of_rank {table : List Byte} {v : Byte} {r : Nat} (h : rankIn table v = some r)
    (l7 : Bool) : textCode table l7 v = [rankCode r] := by
  rw [textCode, h]

theorem textCode_of_absent {table : List Byte} {v : Byte} (h : rankIn table v = none) (l7 : Bool) :
    textCode table l7 v = [⟨3, 3⟩, ⟨v.toNat, literalWidth l7⟩] := by
  rw [textCode, h]

/-! ### Every field of the text stream fits (R661) -/

theorem toNat_lt_two_pow_literalWidth {l7 : Bool} {v : Byte} (h : l7 = true → v.toNat < 128) :
    v.toNat < 2 ^ literalWidth l7 := by
  cases l7 with
  | false => exact v.isLt
  | true => exact h rfl

theorem fieldsFit_textCode {table : List Byte} {l7 : Bool} {v : Byte} (ht : table.length = 23)
    (h : l7 = true → v.toNat < 128) : FieldsFit (textCode table l7 v) := by
  cases hr : rankIn table v with
  | some r =>
    obtain ⟨-, -, -, hfit⟩ := rankCode_group r (rankIn_lt ht hr)
    rw [textCode_of_rank hr]
    exact List.forall_mem_singleton.2 hfit
  | none =>
    rw [textCode_of_absent hr]
    exact List.forall_mem_cons.2
      ⟨by decide, List.forall_mem_singleton.2 (toNat_lt_two_pow_literalWidth h)⟩

theorem fieldsFit_textStream {sel : Nat} {table : List Byte} {l7 : Bool} {x : List Byte}
    (hsel : textTable sel = some table) (hx : l7 = true → ∀ v ∈ x, v.toNat < 128) :
    FieldsFit (textStream sel table l7 x) := by
  obtain ⟨hlt, ht⟩ := lt_three_and_length_of_textTable hsel
  refine List.forall_mem_cons.2 ⟨show sel < 2 ^ 2 by omega, List.forall_mem_cons.2 ⟨l7.toNat_lt, ?_⟩⟩
  intro f hf
  obtain ⟨v, hv, hfv⟩ := List.mem_flatMap.1 hf
  exact fieldsFit_textCode ht (fun h7 => hx h7 v hv) f hfv

/-! ### TXTDEC on the stream of a block (R667) -/

/-- The code of a table value: its group, then its extra bits, name its rank. -/
theorem textSymbol_of_rankCode {m : Memory} {table : List Byte} {l7 : Bool} {v : Byte} {p r : Nat}
    (ht : table.length = 23) (hr : rankIn table v = some r) (h : StreamHolds m p [rankCode r])
    (hp : p + (rankCode r).width ≤ 8192) :
    textSymbol m table l7 p = .ok (v, p + (rankCode r).width) := by
  obtain ⟨hwidth, hescape, hrank, -⟩ := rankCode_group r (rankIn_lt ht hr)
  generalize rankCode r = c at *
  obtain ⟨c, w⟩ := c
  dsimp only at *
  subst hwidth
  have hsplit := streamHolds_split h
  have hgroup : getBits m p 3 = .ok (c % 2 ^ 3, p + 3) :=
    getBits_of_holds hsplit (show p + 3 ≤ 8192 by omega)
  have hextra : getBits m (p + 3) (extraBits (c % 2 ^ 3)) =
      .ok (c / 2 ^ 3, p + 3 + extraBits (c % 2 ^ 3)) :=
    getBits_of_holds hsplit.2 (show p + 3 + extraBits (c % 2 ^ 3) ≤ 8192 by omega)
  simp only [textSymbol, hgroup, if_neg hescape, hextra, hrank, getElem?_of_rankIn hr, Nat.add_assoc]

/-- The escape, then the literal. -/
theorem textSymbol_of_literal {m : Memory} (table : List Byte) {l7 : Bool} {v : Byte} {p : Nat}
    (h : StreamHolds m p [⟨3, 3⟩, ⟨v.toNat, literalWidth l7⟩]) (hp : p + (3 + literalWidth l7) ≤ 8192) :
    textSymbol m table l7 p = .ok (v, p + (3 + literalWidth l7)) := by
  have hescape : getBits m p 3 = .ok (3, p + 3) := getBits_of_holds h (show p + 3 ≤ 8192 by omega)
  have hlit : getBits m (p + 3) (literalWidth l7) = .ok (v.toNat, p + 3 + literalWidth l7) :=
    getBits_of_holds h.2 (show p + 3 + literalWidth l7 ≤ 8192 by omega)
  simp [textSymbol, hescape, hlit, Nat.add_assoc]

theorem textSymbol_of_holds {m : Memory} {table : List Byte} {l7 : Bool} {v : Byte} {p : Nat}
    (ht : table.length = 23) (h : StreamHolds m p (textCode table l7 v))
    (hp : p + fieldsWidth (textCode table l7 v) ≤ 8192) :
    textSymbol m table l7 p = .ok (v, p + fieldsWidth (textCode table l7 v)) := by
  cases hr : rankIn table v with
  | some r =>
    rw [textCode_of_rank hr] at h hp ⊢
    exact textSymbol_of_rankCode ht hr h hp
  | none =>
    rw [textCode_of_absent hr] at h hp ⊢
    exact textSymbol_of_literal table h hp

theorem textSymbols_of_holds {m : Memory} {table : List Byte} {l7 : Bool} (ht : table.length = 23)
    (x : List Byte) {p : Nat} (h : StreamHolds m p (x.flatMap (textCode table l7)))
    (hp : p + fieldsWidth (x.flatMap (textCode table l7)) ≤ 8192) :
    textSymbols m table l7 x.length p = .ok (x, p + fieldsWidth (x.flatMap (textCode table l7))) := by
  induction x generalizing p with
  | nil => rfl
  | cons v x ih =>
    rw [List.flatMap_cons, streamHolds_append] at h
    obtain ⟨hcode, hrest⟩ := h
    rw [List.flatMap_cons, fieldsWidth_append, ← Nat.add_assoc] at hp ⊢
    simp only [List.length_cons, textSymbols, textSymbol_of_holds ht hcode (by omega), ih hrest hp]

/-- SEL, L7, then the codes. -/
theorem textDecode_of_holds {m : Memory} {sel p : Nat} {table : List Byte} {l7 : Bool} (x : List Byte)
    (hsel : textTable sel = some table) (h : StreamHolds m p (textStream sel table l7 x))
    (hp : p + fieldsWidth (textStream sel table l7 x) ≤ 8192) :
    textDecode m x.length p = .ok (x, p + fieldsWidth (textStream sel table l7 x)) := by
  obtain ⟨-, ht⟩ := lt_three_and_length_of_textTable hsel
  simp only [textStream, fieldsWidth_cons, ← Nat.add_assoc] at h hp ⊢
  have hhead : getBits m p 2 = .ok (sel, p + 2) := getBits_of_holds h (show p + 2 ≤ 8192 by omega)
  have hl7 : getBits m (p + 2) 1 = .ok (l7.toNat, p + 2 + 1) :=
    getBits_of_holds h.2 (show p + 2 + 1 ≤ 8192 by omega)
  have hflag : decide (l7.toNat = 1) = l7 := by cases l7 <;> rfl
  simp only [textDecode, hhead, hsel, hl7, hflag]
  exact textSymbols_of_holds ht x h.2.2 hp

theorem exec_txtdec_of_legal {u : State} (h : u.legalBlock 512) :
    exec .txtdec u = complete u (deliver u (textDecode u.str u.n.toNat u.cur.toNat)) :=
  congrArg (complete u) (if_pos ((u.blockOk_iff 512).2 h))

/-! ### TXTENC when it succeeds (R664) -/

/-- L7 is 1 only when every byte of the block is below 0x80. -/
theorem encodes_txtenc {ad : Bool} {s t : State} (h : exec (.txtenc ad) s = .next t)
    (ht : t.succeededNow) :
    Encodes textDecode s.n.toNat s t (textCoded ad s (symRebuild s.block)) := by
  change complete s (txtencBody ad s) = .next t at h
  obtain ⟨⟨-, hmax, -⟩, hwritten⟩ := legalBlock_of_succeededNow (maxn := 512) h ht
  have hranks : RanksBlock (symRebuild s.block) s.block := ranksBlock_block s hmax
  have hsel := textTable_textSelect ad s.block
  have hwidth := textCoded_width ad s (symRebuild s.block)
  refine ⟨hwidth, fieldsFit_textStream hsel fun h7 => ?_, hwritten, le_rfl, fun hroom m hholds => ?_⟩
  · exact hranks.oracc_seven.1 (by simpa using h7)
  · rw [← hwidth] at hroom ⊢
    rw [← s.length_block, List.take_length]
    exact textDecode_of_holds s.block hsel hholds hroom

/-- Settles O46: SEL in the stream names the table, and code by code TXTDEC reads back the ranks and
literals TXTENC wrote. -/
theorem textRoundTrip : Obligations.TextRoundTrip := fun _ =>
  roundTrips_of_encodes (fun _ => exec_txtdec_of_legal) fun _ _ h ht => ⟨_, encodes_txtenc h ht⟩

end Sys2Proof.Machine
end

section
/-! SUPPORT. E_LEN exactly for an illegal block (60_exceptions.md R802, R803): what each stream operation
raises, and that every command is R802's block check, where it has a block, before a body that never raises
E_LEN. -/

namespace Sys2Proof.Machine

/-! ### The cursor primitives raise E_RANGE only (R402 to R404, R804) -/

theorem eq_range_of_putBits {m : Memory} {p v n : Nat} {e : CmdError} (h : putBits m p v n = .error e) :
    e = .range := by
  revert h
  fun_cases putBits m p v n with
  | case1 | case3 => nofun
  | case2 => rintro ⟨⟩; rfl

theorem eq_range_of_getBits {m : Memory} {p n : Nat} {e : CmdError} (h : getBits m p n = .error e) :
    e = .range := by
  revert h
  fun_cases getBits m p n with
  | case1 | case3 => nofun
  | case2 => rintro ⟨⟩; rfl

theorem eq_range_of_peekBits {m : Memory} {p n : Nat} {e : CmdError} (h : peekBits m p n = .error e) :
    e = .range := by
  revert h
  fun_cases peekBits m p n with
  | case1 => rintro ⟨⟩; exact eq_range_of_getBits ‹_›
  | case2 => nofun

theorem eq_range_of_putFields {fs : List Field} {m : Memory} {p : Nat} {e : CmdError}
    (h : putFields m p fs = .error e) : e = .range := by
  fun_induction putFields m p fs with
  | case1 => cases h
  | case2 m p f fs e' hput => cases h; exact eq_range_of_putBits hput
  | case3 m p f fs m' p' hput ih => exact ih h

theorem eq_range_of_getMany {m : Memory} {w n p : Nat} {e : CmdError}
    (h : getMany m w n p = .error e) : e = .range := by
  fun_induction getMany m w n p with
  | case1 => cases h
  | case2 p n e' hget => cases h; exact eq_range_of_getBits hget
  | case3 p n v p' hget e' hrest ih => cases h; exact ih hrest
  | case4 => cases h

/-! ### The decoders raise E_RANGE or E_DECODE only (R804 (c), R805) -/

theorem range_or_decode_of_fwSymbols {m : Memory} {vals : List Byte} {w n p : Nat} {e : CmdError}
    (h : fwSymbols m vals w n p = .error e) : e = .range ∨ e = .decode := by
  fun_induction fwSymbols m vals w n p with
  | case1 => cases h
  | case2 p n e' hget => cases h; exact .inl (eq_range_of_getBits hget)
  | case3 => cases h; exact .inr rfl
  | case4 p n rk p' hget hlt e' hrest ih => cases h; exact ih hrest
  | case5 => cases h

theorem range_or_decode_of_fwDecode {m : Memory} {n p : Nat} {e : CmdError}
    (h : fwDecode m n p = .error e) : e = .range ∨ e = .decode := by
  revert h
  fun_cases fwDecode m n p with
  | case1 => rintro ⟨⟩; exact .inl (eq_range_of_getBits ‹_›)
  | case2 => rintro ⟨⟩; exact .inl (eq_range_of_getMany ‹_›)
  | case3 => exact range_or_decode_of_fwSymbols

theorem eq_range_of_svFlags {m : Memory} {v : Byte} {n p : Nat} {e : CmdError}
    (h : svFlags m v n p = .error e) : e = .range := by
  fun_induction svFlags m v n p with
  | case1 => cases h
  | case2 p n e' hget => cases h; exact eq_range_of_getBits hget
  | case3 p n f p' hget e' hlit =>
    cases h
    split_ifs at hlit
    exact eq_range_of_getBits hlit
  | case4 p n f p' hget x p'' hlit e' hrest ih => cases h; exact ih hrest
  | case5 => cases h

theorem eq_range_of_svDecode {m : Memory} {n p : Nat} {e : CmdError}
    (h : svDecode m n p = .error e) : e = .range := by
  revert h
  fun_cases svDecode m n p with
  | case1 => rintro ⟨⟩; exact eq_range_of_getBits ‹_›
  | case2 => exact eq_range_of_svFlags

theorem eq_range_of_p7Decode {m : Memory} {n p : Nat} {e : CmdError}
    (h : p7Decode m n p = .error e) : e = .range := by
  revert h
  fun_cases p7Decode m n p with
  | case1 => rintro ⟨⟩; exact eq_range_of_getMany ‹_›
  | case2 => nofun

theorem range_or_decode_of_textSymbol {m : Memory} {table : List Byte} {l7 : Bool} {p : Nat} {e : CmdError}
    (h : textSymbol m table l7 p = .error e) : e = .range ∨ e = .decode := by
  revert h
  fun_cases textSymbol m table l7 p with
  | case1 | case2 | case4 => rintro ⟨⟩; exact .inl (eq_range_of_getBits ‹_›)
  | case5 => rintro ⟨⟩; exact .inr rfl
  | case3 | case6 => nofun

theorem range_or_decode_of_textSymbols {m : Memory} {table : List Byte} {l7 : Bool} {n p : Nat}
    {e : CmdError} (h : textSymbols m table l7 n p = .error e) : e = .range ∨ e = .decode := by
  fun_induction textSymbols m table l7 n p with
  | case1 => cases h
  | case2 p n e' hsym => cases h; exact range_or_decode_of_textSymbol hsym
  | case3 p n v p' hsym e' hrest ih => cases h; exact ih hrest
  | case4 => cases h

theorem range_or_decode_of_textDecode {m : Memory} {n p : Nat} {e : CmdError}
    (h : textDecode m n p = .error e) : e = .range ∨ e = .decode := by
  revert h
  fun_cases textDecode m n p with
  | case1 | case3 => rintro ⟨⟩; exact .inl (eq_range_of_getBits ‹_›)
  | case2 => rintro ⟨⟩; exact .inr rfl
  | case4 => exact range_or_decode_of_textSymbols

theorem range_or_decode_of_readToken {m : Memory} {lw uniq n u i p : Nat} {e : CmdError}
    (h : readToken m lw uniq n u i p = .error e) : e = .range ∨ e = .decode := by
  revert h
  fun_cases readToken m lw uniq n u i p with
  | case1 | case4 | case5 | case8 | case9 => rintro ⟨⟩; exact .inl (eq_range_of_getBits ‹_›)
  | case2 | case6 | case10 => rintro ⟨⟩; exact .inr rfl
  | case3 | case7 | case11 => nofun

theorem range_or_decode_of_strTokens {m : Memory} {vals out : List Byte} {lw n fuel u p : Nat}
    {e : CmdError} (h : strTokens m vals lw n fuel u out p = .error e) : e = .range ∨ e = .decode := by
  fun_induction strTokens m vals lw n fuel u out p with
  | case1 => cases h; exact .inr rfl
  | case2 => cases h
  | case3 u out p fuel hlt e' htok => cases h; exact range_or_decode_of_readToken htok
  | case4 u out p fuel hlt tok p' htok ih => exact ih h
  | case5 => cases h; exact .inr rfl
  | case6 => cases h

theorem range_or_decode_of_strDecode {m : Memory} {n p : Nat} {e : CmdError}
    (h : strDecode m n p = .error e) : e = .range ∨ e = .decode := by
  revert h
  fun_cases strDecode m n p with
  | case1 => rintro ⟨⟩; exact .inl (eq_range_of_getBits ‹_›)
  | case2 => rintro ⟨⟩; exact .inl (eq_range_of_getMany ‹_›)
  | case3 => exact range_or_decode_of_strTokens

theorem range_or_decode_of_xstrDecode {m : Memory} {n p : Nat} {e : CmdError}
    (h : xstrDecode m n p = .error e) : e = .range ∨ e = .decode := by
  revert h
  fun_cases xstrDecode m n p with
  | case1 | case2 => rintro ⟨⟩; exact .inl (eq_range_of_getBits ‹_›)
  | case3 => rintro ⟨⟩; exact .inl (eq_range_of_getMany ‹_›)
  | case4 => exact range_or_decode_of_strTokens

/-! ### Behind the block check no body raises E_LEN (R802, R810) -/

theorem eq_range_of_emit {s : State} {c : Coded} {e : CmdError} (h : emit s c = .raise e) :
    e = .range := by
  revert h
  fun_cases emit s c with
  | case1 | case4 => nofun
  | case2 => rintro ⟨⟩; rfl
  | case3 => rintro ⟨⟩; exact eq_range_of_putFields ‹_›

theorem emit_ne_raise_len (s : State) (c : Coded) : emit s c ≠ .raise .len :=
  fun h => nomatch eq_range_of_emit h

theorem ite_notApplicable_ne_raise_len {p : Prop} [Decidable p] {b : Body} (h : b ≠ .raise .len) :
    (if p then .notApplicable else b) ≠ .raise .len := by
  split_ifs
  · nofun
  · exact h

theorem deliver_ne_raise_len {s : State} {r : Except CmdError (List Byte × Nat)}
    (h : ∀ e, r = .error e → e = .range ∨ e = .decode) : deliver s r ≠ .raise .len := by
  obtain ⟨e, hr, hd⟩ | ⟨out, p, -, hd⟩ := deliver_cases s r
  · rw [hd]
    obtain rfl | rfl := h e hr <;> nofun
  · rw [hd]
    nofun

/-- R802's block check before a body: none for a command that has no block. -/
def State.checkBlock (s : State) (b : Body) : Option Nat → Body
  | none => b
  | some maxn => if s.blockOk maxn then b else .raise .len

theorem State.checkBlock_of_illegal {s : State} {maxn : Nat} (h : ¬s.legalBlock maxn) (b : Body) :
    s.checkBlock b (some maxn) = .raise .len :=
  if_neg (mt (s.blockOk_iff maxn).1 h)

/-- The check is the only thing that raises E_LEN. -/
theorem State.illegal_of_checkBlock {s : State} {b : Body} (hb : b ≠ .raise .len) {mb : Option Nat}
    (h : s.checkBlock b mb = .raise .len) : ∃ maxn, mb = some maxn ∧ ¬s.legalBlock maxn := by
  cases mb with
  | none => exact absurd h hb
  | some maxn => exact ⟨maxn, rfl, fun hl => hb ((if_pos ((s.blockOk_iff maxn).2 hl)).symm.trans h)⟩

/-- Every command is its block check with R803's MAXN, then a body that does not raise E_LEN. -/
theorem exec_eq_checkBlock (i : Instr) (s : State) :
    ∃ b, exec i s = complete s (s.checkBlock b i.maxBlock) ∧ b ≠ .raise .len := by
  cases i with
  | nop | symrst | symscan | rdrank | rduniq | rdocc => exact ⟨.commit _ _, rfl, nofun⟩
  | putbits | getbits | peekbits =>
    refine ⟨_, rfl, fun h => ?_⟩
    split at h
    next => cases h
    next =>
      split at h
      next e hr => cases h; grind [eq_range_of_putBits, eq_range_of_getBits, eq_range_of_peekBits]
      next => cases h
  | svenc | txtenc | xstrenc => exact ⟨_, rfl, emit_ne_raise_len _ _⟩
  | fwenc | p7enc | strenc => exact ⟨_, rfl, ite_notApplicable_ne_raise_len (emit_ne_raise_len _ _)⟩
  | fwdec => exact ⟨_, rfl, deliver_ne_raise_len fun _ => range_or_decode_of_fwDecode⟩
  | svdec => exact ⟨_, rfl, deliver_ne_raise_len fun _ h => .inl (eq_range_of_svDecode h)⟩
  | p7dec => exact ⟨_, rfl, deliver_ne_raise_len fun _ h => .inl (eq_range_of_p7Decode h)⟩
  | txtdec => exact ⟨_, rfl, deliver_ne_raise_len fun _ => range_or_decode_of_textDecode⟩
  | strdec => exact ⟨_, rfl, deliver_ne_raise_len fun _ => range_or_decode_of_strDecode⟩
  | xstrdec => exact ⟨_, rfl, deliver_ne_raise_len fun _ => range_or_decode_of_xstrDecode⟩

/-- A command's ERR is what its body raised (R800). -/
theorem eq_raise_of_complete {s t : State} {b : Body} {e : CmdError} (h : complete s b = .next t)
    (he : t.status.err = some e) : b = .raise e := by
  obtain ⟨u, cap, -, rfl⟩ | ⟨e', rfl, rfl⟩ | ⟨-, rfl⟩ := complete_cases h
  · cases he
  · cases he; rfl
  · cases he

/-- Settles O11: R802's check comes first in the commands that have a block, and nothing else raises
E_LEN. -/
theorem illegalBlockRaisesLen : Obligations.IllegalBlockRaisesLen := by
  intro i s
  obtain ⟨b, hexec, hb⟩ := exec_eq_checkBlock i s
  refine ⟨fun maxn hmax hillegal => ?_, fun t ht herr => ?_⟩
  · rw [hexec, hmax, State.checkBlock_of_illegal hillegal, complete_raise]
  · exact State.illegal_of_checkBlock hb (eq_raise_of_complete (hexec.symm.trans ht) herr)

end Sys2Proof.Machine
end

section
/-! SUPPORT. The encoding (30_encoding.md R300 to R304): an operand field in its place in a word, what
`decode` accepts row by row of the opcode map, and that decoding and encoding are inverse. -/

namespace Sys2Proof

/-! ### A field in its place (R301) -/

/-- The bits k .. k+n-1 of a word. -/
def fieldMask (n k : Nat) : Word := (BitVec.allOnes n).setWidth 32 <<< k

theorem getLsbD_fieldMask (n k i : Nat) :
    (fieldMask n k).getLsbD i = (decide (i < 32) && decide (k ≤ i) && decide (i < k + n)) := by
  simp only [fieldMask, BitVec.getLsbD_shiftLeft, BitVec.getLsbD_setWidth, BitVec.getLsbD_allOnes]
  grind

theorem getLsbD_placed {n : Nat} (x : BitVec n) (k i : Nat) :
    ((x.setWidth 32 <<< k : Word)).getLsbD i =
      (decide (i < 32) && decide (k ≤ i) && x.getLsbD (i - k)) := by
  simp only [BitVec.getLsbD_shiftLeft, BitVec.getLsbD_setWidth]
  grind

/-- A field in its place is read back from there. -/
theorem extractLsb'_placed {n : Nat} (x : BitVec n) {k : Nat} (h : k + n ≤ 32) :
    ((x.setWidth 32 <<< k : Word)).extractLsb' k n = x := by
  refine BitVec.eq_of_getLsbD_eq fun i hi => ?_
  rw [BitVec.getLsbD_extractLsb', getLsbD_placed]
  simp [hi, show k + i < 32 by omega]

/-- A field leaves the places outside its own 0. -/
theorem extractLsb'_placed_apart {n : Nat} (x : BitVec n) {k j m : Nat} (h : j + m ≤ k ∨ k + n ≤ j) :
    ((x.setWidth 32 <<< k : Word)).extractLsb' j m = 0#m := by
  refine BitVec.eq_of_getLsbD_eq fun i hi => ?_
  rw [BitVec.getLsbD_extractLsb', getLsbD_placed, BitVec.getLsbD_zero]
  rcases h with h | h
  · simp [show ¬k ≤ j + i by omega]
  · simp [BitVec.getLsbD_of_ge x (j + i - k) (by omega)]

/-- A field has no bit in a mask that is clear in its place. -/
theorem placed_and_eq_zero {n : Nat} (x : BitVec n) {k : Nat} {mask : Word}
    (h : fieldMask n k &&& mask = 0#32) : (x.setWidth 32 <<< k) &&& mask = 0#32 := by
  refine BitVec.eq_of_getLsbD_eq fun i hi => ?_
  have hbit := congrArg (BitVec.getLsbD · i) h
  simp only [BitVec.getLsbD_and, getLsbD_fieldMask, getLsbD_placed, BitVec.getLsbD_zero] at hbit ⊢
  by_cases hx : i < k + n
  · grind
  · simp [BitVec.getLsbD_of_ge x (i - k) (by omega)]

/-- A word's field, put back in its place, is the word cut to that place. -/
theorem placed_extractLsb' (w : Word) (n k : Nat) :
    ((w.extractLsb' k n).setWidth 32 <<< k : Word) = w &&& fieldMask n k := by
  refine BitVec.eq_of_getLsbD_eq fun i hi => ?_
  rw [getLsbD_placed, BitVec.getLsbD_extractLsb', BitVec.getLsbD_and, getLsbD_fieldMask]
  by_cases hk : k ≤ i
  · rw [Nat.add_sub_cancel' hk]
    grind
  · simp [hk]

/-- A word without the bits of a mask is the word cut to the other bits. -/
theorem and_not_of_and_eq_zero {w mask : Word} (h : w &&& mask = 0#32) : w &&& ~~~mask = w := by
  refine BitVec.eq_of_getLsbD_eq fun i hi => ?_
  have hbit := congrArg (BitVec.getLsbD · i) h
  simp only [BitVec.getLsbD_and, BitVec.getLsbD_not, BitVec.getLsbD_zero] at hbit ⊢
  grind

/-! ### What decodes (R303, R304) -/

theorem decode_of_row {w : Word} {r : OpRow} (hrow : opRow (opcodeField w) = some r)
    (hres : w &&& r.format.reservedMask = 0#32) : decode w = .ok (r.build w) := by
  simp only [decode, hrow, hres, if_true]

/-- Every row of the map is the row of its opcode: no opcode stands twice. -/
theorem opRow_of_mem : ∀ r ∈ opRows, opRow r.opcode = some r := by
  simp [opRows, opRow]

/-- A word decodes to what some row of the map makes of it, when it has the row's opcode and none of the
bits that the row's format reserves. -/
theorem decode_eq_ok_iff {w : Word} {i : Instr} :
    decode w = .ok i ↔ ∃ r ∈ opRows, opcodeField w = r.opcode ∧ w &&& r.format.reservedMask = 0#32 ∧
      r.build w = i := by
  constructor
  · intro h
    unfold decode at h
    split at h
    next => cases h
    next r hrow =>
      split_ifs at h with hres
      cases h
      have hop := List.find?_some hrow
      exact ⟨r, List.mem_of_find?_eq_some hrow, (beq_iff_eq.1 hop).symm, hres, rfl⟩
  · rintro ⟨r, hr, hop, hres, rfl⟩
    exact decode_of_row (hop ▸ opRow_of_mem r hr) hres

/-! ### Decoding an encoded command -/

theorem opcodeField_encode (i : Instr) : opcodeField (encode i) = i.opcode := by
  apply Laws.OpcodeByte.opcodeField_encode_of
  cases i with
  | putbits val nb =>
    rw [Instr.operandBits, BitVec.extractLsb'_or, extractLsb'_placed_apart _ (by omega),
      extractLsb'_placed_apart _ (by omega)]
    rfl
  | getbits | peekbits | symscan | rdrank | rduniq | rdocc | txtenc =>
    exact extractLsb'_placed_apart _ (by omega)
  | _ => rfl

/-- Reading an operand field of an encoded command passes its opcode by. -/
theorem extractLsb'_encode (i : Instr) {k n : Nat} (hk : 8 ≤ k) :
    (encode i).extractLsb' k n = i.operandBits.extractLsb' k n := by
  have hop : (i.opcode.setWidth 32 : Word).extractLsb' k n = 0#n := by
    simpa using extractLsb'_placed_apart i.opcode (k := 0) (j := k) (m := n) (by omega)
  rw [encode, BitVec.extractLsb'_or, hop, BitVec.zero_or]

/-- An encoded command has no bit in a mask that its operands and the opcode's place keep clear of. -/
theorem encode_and_eq_zero {i : Instr} {mask : Word} (hop : fieldMask 8 0 &&& mask = 0#32)
    (h : i.operandBits &&& mask = 0#32) : encode i &&& mask = 0#32 := by
  have hlow : i.opcode.setWidth 32 &&& mask = 0#32 := by simpa using placed_and_eq_zero i.opcode hop
  rw [encode, BitVec.and_comm, BitVec.and_or_distrib_left, BitVec.and_comm mask, BitVec.and_comm mask,
    hlow, h, BitVec.zero_or]

theorem decode_encode_of_row {i : Instr} {r : OpRow} (hrow : opRow i.opcode = some r)
    (hop : fieldMask 8 0 &&& r.format.reservedMask = 0#32)
    (hres : i.operandBits &&& r.format.reservedMask = 0#32) (hbuild : r.build (encode i) = i) :
    decode (encode i) = .ok i := by
  rw [decode_of_row (by rw [opcodeField_encode, hrow]) (encode_and_eq_zero hop hres), hbuild]

theorem nbField_encode {i : Instr} {nb : BitVec 4} (h : i.operandBits = nb.setWidth 32 <<< 8) :
    nbField (encode i) = nb := by
  rw [nbField, extractLsb'_encode _ (by omega), h, extractLsb'_placed _ (by omega)]

theorem idxField_encode {i : Instr} {idx : BitVec 8} (h : i.operandBits = idx.setWidth 32 <<< 8) :
    idxField (encode i) = idx := by
  rw [idxField, extractLsb'_encode _ (by omega), h, extractLsb'_placed _ (by omega)]

theorem nbField_encode_putbits (val : BitVec 9) (nb : BitVec 4) :
    nbField (encode (.putbits val nb)) = nb := by
  rw [nbField, extractLsb'_encode _ (by omega), Instr.operandBits, BitVec.extractLsb'_or,
    extractLsb'_placed _ (by omega), extractLsb'_placed_apart _ (by omega), BitVec.or_zero]

theorem valField_encode_putbits (val : BitVec 9) (nb : BitVec 4) :
    valField (encode (.putbits val nb)) = val := by
  rw [valField, extractLsb'_encode _ (by omega), Instr.operandBits, BitVec.extractLsb'_or,
    extractLsb'_placed _ (by omega), extractLsb'_placed_apart _ (by omega), BitVec.zero_or]

theorem limField_encode_symscan (lim : BitVec 10) : limField (encode (.symscan lim)) = lim := by
  rw [limField, extractLsb'_encode _ (by omega), Instr.operandBits, extractLsb'_placed _ (by omega)]

theorem adField_encode_txtenc (ad : Bool) : adField (encode (.txtenc ad)) = ad := by
  cases ad <;> rfl

/-- Settles O1, row by row: the operands keep clear of the reserved bits and are read back in place. -/
theorem decodeOfEncodeIsTheCommand : Obligations.DecodeOfEncodeIsTheCommand := by
  intro i
  cases i with
  | putbits val nb =>
    refine decode_encode_of_row rfl (by decide) ?_ ?_
    · rw [Instr.operandBits, BitVec.and_comm, BitVec.and_or_distrib_left, BitVec.and_comm,
        placed_and_eq_zero nb (by decide), BitVec.zero_or, BitVec.and_comm,
        placed_and_eq_zero val (by decide)]
    · exact congrArg₂ Instr.putbits (valField_encode_putbits val nb) (nbField_encode_putbits val nb)
  | getbits nb =>
    exact decode_encode_of_row rfl (by decide) (placed_and_eq_zero nb (by decide))
      (congrArg Instr.getbits (nbField_encode rfl))
  | peekbits nb =>
    exact decode_encode_of_row rfl (by decide) (placed_and_eq_zero nb (by decide))
      (congrArg Instr.peekbits (nbField_encode rfl))
  | symscan lim =>
    exact decode_encode_of_row rfl (by decide) (placed_and_eq_zero lim (by decide))
      (congrArg Instr.symscan (limField_encode_symscan lim))
  | rdrank idx =>
    exact decode_encode_of_row rfl (by decide) (placed_and_eq_zero idx (by decide))
      (congrArg Instr.rdrank (idxField_encode rfl))
  | rduniq idx =>
    exact decode_encode_of_row rfl (by decide) (placed_and_eq_zero idx (by decide))
      (congrArg Instr.rduniq (idxField_encode rfl))
  | rdocc idx =>
    exact decode_encode_of_row rfl (by decide) (placed_and_eq_zero idx (by decide))
      (congrArg Instr.rdocc (idxField_encode rfl))
  | txtenc ad =>
    exact decode_encode_of_row rfl (by decide) (placed_and_eq_zero (BitVec.ofBool ad) (by decide))
      (congrArg Instr.txtenc (adField_encode_txtenc ad))
  | _ => exact decode_encode_of_row rfl (by decide) (BitVec.zero_and ..) rfl

/-! ### Encoding a decoded command -/

/-- Encoding what a row makes of a word with its opcode and no reserved bit gives the word back. -/
def OpRow.EncodesBack (r : OpRow) : Prop :=
  ∀ w : Word, opcodeField w = r.opcode → w &&& r.format.reservedMask = 0#32 → encode (r.build w) = w

/-- The opcode, the fields read from a word and the bits its format reserves make up the whole word. -/
theorem OpRow.encodesBack_of_fields {r : OpRow} (places : Word)
    (hop : ∀ w, (r.build w).opcode = r.opcode) (hargs : ∀ w, (r.build w).operandBits = w &&& places)
    (hcover : fieldMask 8 0 ||| places = ~~~r.format.reservedMask) : r.EncodesBack := by
  intro w hw hres
  have hlow : (r.opcode.setWidth 32 : Word) = w &&& fieldMask 8 0 := by
    simpa [opcodeField, ← hw] using placed_extractLsb' w 8 0
  rw [encode, hop, hlow, hargs, ← BitVec.and_or_distrib_left, hcover, and_not_of_and_eq_zero hres]

theorem encodesBack_z {op : BitVec 8} {i : Instr} (hop : i.opcode = op) (h : i.operandBits = 0#32) :
    OpRow.EncodesBack ⟨op, .z, fun _ => i⟩ :=
  OpRow.encodesBack_of_fields 0#32 (fun _ => hop) (fun _ => h.trans BitVec.and_zero.symm)
    (show fieldMask 8 0 ||| 0#32 = ~~~Format.z.reservedMask by decide)

theorem encodesBack_g {op : BitVec 8} {build : BitVec 4 → Instr} (hop : ∀ nb, (build nb).opcode = op)
    (h : ∀ nb, (build nb).operandBits = nb.setWidth 32 <<< 8) :
    OpRow.EncodesBack ⟨op, .g, fun w => build (nbField w)⟩ :=
  OpRow.encodesBack_of_fields (fieldMask 4 8) (fun _ => hop _)
    (fun w => (h _).trans (placed_extractLsb' w 4 8))
    (show fieldMask 8 0 ||| fieldMask 4 8 = ~~~Format.g.reservedMask by decide)

theorem encodesBack_t {op : BitVec 8} {build : BitVec 8 → Instr} (hop : ∀ x, (build x).opcode = op)
    (h : ∀ x, (build x).operandBits = x.setWidth 32 <<< 8) :
    OpRow.EncodesBack ⟨op, .t, fun w => build (idxField w)⟩ :=
  OpRow.encodesBack_of_fields (fieldMask 8 8) (fun _ => hop _)
    (fun w => (h _).trans (placed_extractLsb' w 8 8))
    (show fieldMask 8 0 ||| fieldMask 8 8 = ~~~Format.t.reservedMask by decide)

theorem encodesBack_putbits :
    OpRow.EncodesBack ⟨0x01#8, .p, fun w => .putbits (valField w) (nbField w)⟩ :=
  OpRow.encodesBack_of_fields (fieldMask 4 8 ||| fieldMask 9 16) (fun _ => rfl)
    (fun w => by
      rw [Instr.operandBits, BitVec.and_or_distrib_left, ← placed_extractLsb', ← placed_extractLsb',
        nbField, valField])
    (by decide)

theorem encodesBack_symscan : OpRow.EncodesBack ⟨0x09#8, .s, fun w => .symscan (limField w)⟩ :=
  OpRow.encodesBack_of_fields (fieldMask 10 16) (fun _ => rfl) (fun w => placed_extractLsb' w 10 16)
    (by decide)

theorem ofBool_adField (w : Word) : BitVec.ofBool (adField w) = w.extractLsb' 8 1 :=
  BitVec.eq_of_getLsbD_eq fun i hi => by
    obtain rfl : i = 0 := by omega
    simp [adField]

theorem encodesBack_txtenc : OpRow.EncodesBack ⟨0x16#8, .a, fun w => .txtenc (adField w)⟩ :=
  OpRow.encodesBack_of_fields (fieldMask 1 8) (fun _ => rfl)
    (fun w => by rw [Instr.operandBits, ofBool_adField, placed_extractLsb']) (by decide)

/-- Row by row of R303. -/
theorem encodesBack_of_mem : ∀ r ∈ opRows, r.EncodesBack := by
  simp only [opRows, List.forall_mem_cons]
  exact ⟨encodesBack_z rfl rfl, encodesBack_putbits, encodesBack_g (fun _ => rfl) fun _ => rfl,
    encodesBack_g (fun _ => rfl) fun _ => rfl, encodesBack_z rfl rfl, encodesBack_symscan,
    encodesBack_t (fun _ => rfl) fun _ => rfl, encodesBack_t (fun _ => rfl) fun _ => rfl,
    encodesBack_t (fun _ => rfl) fun _ => rfl, encodesBack_z rfl rfl, encodesBack_z rfl rfl,
    encodesBack_z rfl rfl, encodesBack_z rfl rfl, encodesBack_z rfl rfl, encodesBack_z rfl rfl,
    encodesBack_txtenc, encodesBack_z rfl rfl, encodesBack_z rfl rfl, encodesBack_z rfl rfl,
    encodesBack_z rfl rfl, encodesBack_z rfl rfl, List.forall_mem_nil _⟩

/-- Settles O2: the fields that a row reads and the bits it reserves make up the whole word. -/
theorem encodeOfDecodeIsTheWord : Obligations.EncodeOfDecodeIsTheWord := by
  intro w i h
  obtain ⟨r, hr, hop, hres, rfl⟩ := decode_eq_ok_iff.1 h
  exact encodesBack_of_mem r hr w hop hres

/-! ### The opcode map's match and mask (R303) -/

theorem and_eq_setWidth_iff {w mask : Word} {op : BitVec 8} (hmask : fieldMask 8 0 &&& mask = 0#32) :
    w &&& (mask ||| fieldMask 8 0) = op.setWidth 32 ↔ opcodeField w = op ∧ w &&& mask = 0#32 := by
  have hcut : ((opcodeField w).setWidth 32 : Word) = w &&& fieldMask 8 0 := by
    simpa [opcodeField] using placed_extractLsb' w 8 0
  have hop : op.setWidth 32 &&& mask = 0#32 := by simpa using placed_and_eq_zero op hmask
  constructor
  · intro h
    have hres : w &&& mask = 0#32 := by
      calc w &&& mask = w &&& (mask ||| fieldMask 8 0) &&& mask := by
            rw [BitVec.and_assoc]
            congr 1
            exact BitVec.eq_of_getLsbD_eq fun i hi => by simp; grind
        _ = 0#32 := by rw [h, hop]
    refine ⟨?_, hres⟩
    rw [BitVec.and_or_distrib_left, hres, BitVec.zero_or, ← hcut] at h
    simpa using congrArg (BitVec.setWidth 8) h
  · rintro ⟨rfl, hres⟩
    rw [BitVec.and_or_distrib_left, hres, BitVec.zero_or, hcut]

end Sys2Proof

namespace Sys2Proof.Machine

/-- R303's match and mask columns are the opcodes with the reserved bits of their formats. -/
theorem mapRows_eq : mapRows = opRows.map fun r =>
    (r.opcode.setWidth 32, r.format.reservedMask ||| fieldMask 8 0) := by decide

theorem reservedMask_apart : ∀ f : Format, fieldMask 8 0 &&& f.reservedMask = 0#32 := by
  rintro ⟨⟩ <;> decide

theorem toNat_nbField (w : Word) : (nbField w).toNat = w.toNat / 256 % 16 := by
  simp [nbField, BitVec.extractLsb'_toNat, Nat.shiftRight_eq_div_pow]

theorem legalWidth_iff (nb : BitVec 4) : legalWidth nb = true ↔ 1 ≤ nb.toNat ∧ nb.toNat ≤ 9 := by
  simp [legalWidth]

/-- The rows with a width NB are those whose match is 1, 2 or 3. -/
theorem wellFormed_build_iff (w : Word) : ∀ r ∈ opRows, (r.build w).wellFormed = true ↔
    (r.opcode.setWidth 32 = 1#32 ∨ r.opcode.setWidth 32 = 2#32 ∨ r.opcode.setWidth 32 = 3#32 →
      1 ≤ w.toNat / 256 % 16 ∧ w.toNat / 256 % 16 ≤ 9) := by
  rw [← toNat_nbField, ← legalWidth_iff]
  simp [opRows, Instr.wellFormed]

/-- Settles O4: selecting a row by match and mask is having its opcode and no reserved bit. -/
theorem legalWordsAreThoseOfTheOpcodeMap : Obligations.LegalWordsAreThoseOfTheOpcodeMap := by
  intro w
  simp only [legalWord, mapRows_eq, List.mem_map, exists_exists_and_eq_and, decode_eq_ok_iff]
  constructor
  · rintro ⟨_, ⟨r, hr, hop, hres, rfl⟩, hwf⟩
    exact ⟨r, hr, (and_eq_setWidth_iff (reservedMask_apart _)).2 ⟨hop, hres⟩,
      (wellFormed_build_iff w r hr).1 hwf⟩
  · rintro ⟨r, hr, hsel, hnb⟩
    obtain ⟨hop, hres⟩ := (and_eq_setWidth_iff (reservedMask_apart _)).1 hsel
    exact ⟨_, ⟨r, hr, hop, hres, rfl⟩, (wellFormed_build_iff w r hr).2 hnb⟩

/-- Settles O3: each word's opcode has a row, and its fields are read in place. -/
theorem syntaxWordsDecode : Obligations.SyntaxWordsDecode := by
  unfold Obligations.SyntaxWordsDecode
  decide

end Sys2Proof.Machine
end

section
/-! SUPPORT. The match policy of the string coders (46_string.md R700 to R705): the widths of token operands,
that R705 chooses exactly one token at every position, and what its tokens say of the block. -/

namespace Sys2Proof.Machine

/-! ### Operand widths (R701, R702) -/

theorem bitlen_le_iff {v b : Nat} : bitlen v ≤ b ↔ v < 2 ^ b := by
  unfold bitlen
  split_ifs with hv
  · simp [hv]
  · exact Nat.succ_le_iff.trans (Nat.log2_lt hv)

/-- idxw(u) is the fewest bits, at least 1, that hold every rank below u. -/
theorem idxw_le_iff {u b : Nat} (hb : 1 ≤ b) : idxw u ≤ b ↔ u ≤ 2 ^ b := by
  have := Nat.two_pow_pos b
  rw [idxw, clog2, max_le_iff, bitlen_le_iff]
  omega

theorem one_le_idxw (u : Nat) : 1 ≤ idxw u := le_max_left _ _

theorem le_two_pow_idxw (u : Nat) : u ≤ 2 ^ idxw u := (idxw_le_iff (one_le_idxw u)).1 le_rfl

/-! ### Bytes of a block by position -/

theorem byteAt_eq_getElem {x : List Byte} {i : Nat} (h : i < x.length) : byteAt x i = x[i] := by
  simp [byteAt, h]

theorem byteAt_take {x : List Byte} {i k : Nat} (h : i < k) : byteAt (x.take k) i = byteAt x i := by
  simp [byteAt, List.getD_eq_getElem?_getD, List.getElem?_take_of_lt h]

theorem byteAt_mem {x : List Byte} {i : Nat} (h : i < x.length) : byteAt x i ∈ x := by
  rw [byteAt_eq_getElem h]
  exact List.getElem_mem h

theorem byteAt_mem_take {x : List Byte} {i k : Nat} (h : i < k) (hx : i < x.length) :
    byteAt x i ∈ x.take k := by
  rw [← byteAt_take h]
  exact byteAt_mem (by rw [List.length_take]; omega)

theorem take_succ_eq_snoc {x : List Byte} {i : Nat} (h : i < x.length) :
    x.take (i + 1) = x.take i ++ [byteAt x i] := by
  rw [byteAt_eq_getElem h, List.take_append_getElem]

/-! ### The one token of R705 -/

/-- The token that R705 takes at position i of x, the first case that applies. -/
def PolicyToken (rank : Byte → Nat) (lmax : Nat) (x : List Byte) (i : Nat) : Token → Prop
  | .newUnique => i < x.length ∧ byteAt x i ∉ x.take i
  | .repeatRank idx =>
    i < x.length ∧ byteAt x i ∈ x.take i ∧ (∀ q, ¬PairAt x i q) ∧ idx = rank (byteAt x i)
  | .string len pos =>
    byteAt x i ∈ x.take i ∧ PairAt x i pos ∧ (∀ q, pos < q → ¬PairAt x i q) ∧
      2 ≤ len ∧ len ≤ lmax ∧ i + len ≤ x.length ∧ (∀ k < len, byteAt x (pos + k) = byteAt x (i + k)) ∧
      (len = lmax ∨ i + len = x.length ∨ byteAt x (pos + len) ≠ byteAt x (i + len))

@[simp] theorem followsPolicy_nil (rank : Byte → Nat) (lmax : Nat) (x : List Byte) (i : Nat) :
    FollowsPolicy rank lmax x i [] ↔ i = x.length := Iff.rfl

theorem followsPolicy_cons {rank : Byte → Nat} {lmax : Nat} {x : List Byte} {i : Nat} {tok : Token}
    {toks : List Token} : FollowsPolicy rank lmax x i (tok :: toks) ↔
      PolicyToken rank lmax x i tok ∧ FollowsPolicy rank lmax x (i + tok.covers) toks := by
  cases tok <;> simp [FollowsPolicy, PolicyToken, Token.covers, and_assoc]

/-- A token covers at least one byte, and none past the end. -/
theorem PolicyToken.covers_pos {rank : Byte → Nat} {lmax : Nat} {x : List Byte} {i : Nat} {tok : Token}
    (h : PolicyToken rank lmax x i tok) : 1 ≤ tok.covers ∧ i + tok.covers ≤ x.length := by
  cases tok with
  | newUnique => exact ⟨le_rfl, h.1⟩
  | repeatRank idx => exact ⟨le_rfl, h.1⟩
  | string len pos =>
    obtain ⟨-, -, -, h2, -, hend, -⟩ := h
    exact ⟨by simp only [Token.covers]; omega, hend⟩

/-- Two lengths that both stop where the copy must are the same. -/
theorem PolicyToken.len_le {rank : Byte → Nat} {lmax : Nat} {x : List Byte} {i len len' pos : Nat}
    (h : PolicyToken rank lmax x i (.string len pos)) (h' : PolicyToken rank lmax x i (.string len' pos)) :
    len' ≤ len := by
  obtain ⟨-, -, -, -, -, -, -, hstop⟩ := h
  obtain ⟨-, -, -, -, hmax, hend, hcopy, -⟩ := h'
  by_contra hlt
  rcases hstop with h1 | h1 | h1
  · omega
  · omega
  · exact h1 (hcopy len (by omega))

theorem PolicyToken.unique {rank : Byte → Nat} {lmax : Nat} {x : List Byte} {i : Nat} {tok tok' : Token}
    (h : PolicyToken rank lmax x i tok) (h' : PolicyToken rank lmax x i tok') : tok = tok' := by
  cases tok with
  | newUnique =>
    cases tok' with
    | newUnique => rfl
    | repeatRank idx => exact absurd h'.2.1 h.2
    | string len pos => exact absurd h'.1 h.2
  | repeatRank idx =>
    cases tok' with
    | newUnique => exact absurd h.2.1 h'.2
    | repeatRank idx' =>
      obtain ⟨-, -, -, rfl⟩ := h
      obtain ⟨-, -, -, rfl⟩ := h'
      rfl
    | string len pos => exact absurd h'.2.1 (h.2.2.1 pos)
  | string len pos =>
    cases tok' with
    | newUnique => exact absurd h.1 h'.2
    | repeatRank idx => exact absurd h.2.1 (h'.2.2.1 pos)
    | string len' pos' =>
      have hpos : pos = pos' := by
        rcases Nat.lt_trichotomy pos pos' with hlt | heq | hgt
        · exact absurd h'.2.1 (h.2.2.1 pos' hlt)
        · exact heq
        · exact absurd h.2.1 (h'.2.2.1 pos hgt)
      subst hpos
      rw [Nat.le_antisymm (h'.len_le h) (h.len_le h')]

/-- At most one token list follows the policy. -/
theorem FollowsPolicy.unique {rank : Byte → Nat} {lmax : Nat} {x : List Byte} {i : Nat}
    {toks toks' : List Token} (h : FollowsPolicy rank lmax x i toks)
    (h' : FollowsPolicy rank lmax x i toks') : toks' = toks := by
  induction toks generalizing i toks' with
  | nil =>
    cases toks' with
    | nil => rfl
    | cons tok' toks' =>
      have hpos := (followsPolicy_cons.1 h').1.covers_pos
      rw [followsPolicy_nil] at h
      omega
  | cons tok toks ih =>
    obtain ⟨htok, hrest⟩ := followsPolicy_cons.1 h
    cases toks' with
    | nil =>
      have hpos := htok.covers_pos
      rw [followsPolicy_nil] at h'
      omega
    | cons tok' toks' =>
      obtain ⟨htok', hrest'⟩ := followsPolicy_cons.1 h'
      obtain rfl := htok.unique htok'
      rw [ih hrest hrest']

/-! ### The encoder's choice follows R705 -/

/-- The search answers the most recent pair below k, if there is one. -/
theorem lastPair_cases (x : List Byte) (i k : Nat) :
    (lastPair x i k = none ∧
      ∀ q < k, ¬(byteAt x q = byteAt x i ∧ byteAt x (q + 1) = byteAt x (i + 1))) ∨
    ∃ p < k, lastPair x i k = some p ∧ (byteAt x p = byteAt x i ∧ byteAt x (p + 1) = byteAt x (i + 1)) ∧
      ∀ q, p < q → q < k → ¬(byteAt x q = byteAt x i ∧ byteAt x (q + 1) = byteAt x (i + 1)) := by
  induction k with
  | zero => exact .inl ⟨rfl, by omega⟩
  | succ k ih =>
    rw [lastPair]
    split_ifs with hk
    · exact .inr ⟨k, by omega, rfl, hk, by omega⟩
    · rcases ih with ⟨hnone, hall⟩ | ⟨p, hp, hsome, hpair, hall⟩
      · refine .inl ⟨hnone, fun q hq => ?_⟩
        obtain hq | rfl := Nat.lt_succ_iff_lt_or_eq.1 hq
        · exact hall q hq
        · exact hk
      · refine .inr ⟨p, by omega, hsome, hpair, fun q hpq hq => ?_⟩
        obtain hq | rfl := Nat.lt_succ_iff_lt_or_eq.1 hq
        · exact hall q hpq hq
        · exact hk

/-- The extension grows a match while room, the end of x and the bytes allow. -/
theorem extendMatch_spec (x : List Byte) (i p room len : Nat) (hlen : i + len ≤ x.length) :
    len ≤ extendMatch x i p room len ∧ extendMatch x i p room len ≤ len + room ∧
      i + extendMatch x i p room len ≤ x.length ∧
      (∀ k, len ≤ k → k < extendMatch x i p room len → byteAt x (p + k) = byteAt x (i + k)) ∧
      (extendMatch x i p room len = len + room ∨ i + extendMatch x i p room len = x.length ∨
        byteAt x (p + extendMatch x i p room len) ≠ byteAt x (i + extendMatch x i p room len)) := by
  induction room generalizing len with
  | zero => exact ⟨le_rfl, le_rfl, hlen, fun k h1 h2 => absurd h2 (Nat.not_lt.2 h1), .inl rfl⟩
  | succ room ih =>
    rw [extendMatch]
    split_ifs with hgo
    · obtain ⟨hlo, hhi, hend, hcopy, hstop⟩ := ih (len + 1) (by omega)
      refine ⟨by omega, by omega, hend, fun k hk hk' => ?_, hstop.imp_left fun h => by omega⟩
      obtain hk | rfl := Nat.lt_or_eq_of_le hk
      · exact hcopy k hk hk'
      · exact hgo.2
    · refine ⟨le_rfl, by omega, hlen, fun k h1 h2 => absurd h2 (Nat.not_lt.2 h1), .inr ?_⟩
      by_cases hx : i + len < x.length
      · exact .inr fun he => hgo ⟨hx, he⟩
      · exact .inl (by omega)

theorem policyToken_chooseToken {rank : Byte → Nat} {lmax : Nat} {x : List Byte} {i : Nat}
    (hmax : 2 ≤ lmax) (hi : i < x.length) : PolicyToken rank lmax x i (chooseToken rank lmax x i) := by
  unfold chooseToken
  split_ifs with hmem hnext
  · rcases lastPair_cases x i (i - 1) with ⟨hnone, hall⟩ | ⟨p, hp, hsome, hpair, hall⟩
    · rw [hnone]
      exact ⟨hi, hmem, fun q hq => hall q (by have := hq.1; omega) hq.2.2, rfl⟩
    · obtain ⟨hlo, hhi, hend, hcopy, hstop⟩ := extendMatch_spec x i p (lmax - 2) 2 (by omega)
      rw [hsome]
      refine ⟨hmem, ⟨by omega, hnext, hpair⟩, fun q hpq hq => hall q hpq (by have := hq.1; omega) hq.2.2,
        hlo, by omega, hend, fun k hk => ?_, hstop.imp_left fun h => by omega⟩
      match k with
      | 0 => exact hpair.1
      | 1 => exact hpair.2
      | k + 2 => exact hcopy (k + 2) (by omega) hk
  · exact ⟨hi, hmem, fun q hq => hnext hq.2.1, rfl⟩
  · exact ⟨hi, hmem⟩

/-- The encoder's loop follows the policy to the end of the block. -/
theorem followsPolicy_tokensFrom {rank : Byte → Nat} {lmax : Nat} {x : List Byte} (hmax : 2 ≤ lmax)
    (fuel : Nat) {i : Nat} (hi : i ≤ x.length) (hfuel : x.length ≤ i + fuel) :
    FollowsPolicy rank lmax x i (tokensFrom rank lmax x fuel i) := by
  induction fuel generalizing i with
  | zero => exact Nat.le_antisymm hi hfuel
  | succ fuel ih =>
    rw [tokensFrom]
    split_ifs with hlt
    · have htok : PolicyToken rank lmax x i (chooseToken rank lmax x i) := policyToken_chooseToken hmax hlt
      have hpos := htok.covers_pos
      exact followsPolicy_cons.2 ⟨htok, ih hpos.2 (by omega)⟩
    · exact Nat.le_antisymm hi (Nat.not_lt.1 hlt)

theorem followsPolicy_tokenize (rank : Byte → Nat) {lmax : Nat} (x : List Byte) (hmax : 2 ≤ lmax) :
    FollowsPolicy rank lmax x 0 (tokenize rank lmax x) :=
  followsPolicy_tokensFrom hmax x.length (Nat.zero_le _) (by omega)

/-- Settles O38: the encoder's own loop is the token list, and R705's cases exclude each other. -/
theorem matchPolicyGivesOneTokenList : Obligations.MatchPolicyGivesOneTokenList :=
  fun rank _ x hmax => ⟨_, followsPolicy_tokenize rank x hmax,
    fun _ h => (followsPolicy_tokenize rank x hmax).unique h⟩

/-- The policy asks for the ranks of block values only. -/
theorem FollowsPolicy.congr_rank {rank rank' : Byte → Nat} {lmax : Nat} {x : List Byte}
    (hr : ∀ v ∈ x, rank v = rank' v) {i : Nat} {toks : List Token}
    (h : FollowsPolicy rank lmax x i toks) : FollowsPolicy rank' lmax x i toks := by
  induction toks generalizing i with
  | nil => exact h
  | cons tok toks ih =>
    obtain ⟨htok, hrest⟩ := followsPolicy_cons.1 h
    refine followsPolicy_cons.2 ⟨?_, ih hrest⟩
    cases tok with
    | newUnique => exact htok
    | string len pos => exact htok
    | repeatRank idx =>
      obtain ⟨hlt, hmem, hpair, rfl⟩ := htok
      exact ⟨hlt, hmem, hpair, hr _ (byteAt_mem hlt)⟩

/-! ### Ranks by first occurrence (R19) -/

theorem distinct_take_succ {x : List Byte} {i : Nat} (hi : i < x.length) :
    distinct (x.take (i + 1)) = distinct (x.take i) + if byteAt x i ∈ x.take i then 0 else 1 := by
  rw [take_succ_eq_snoc hi, distinct_snoc]

theorem distinct_take_mono (x : List Byte) {i j : Nat} (h : i ≤ j) :
    distinct (x.take i) ≤ distinct (x.take j) :=
  distinct_le_of_subset (List.take_subset_take_left x h)

/-- The first position of a value that is new at position i is i. -/
theorem idxOf_of_new {x : List Byte} {i : Nat} (hi : i < x.length) (h : byteAt x i ∉ x.take i) :
    x.idxOf (byteAt x i) = i := by
  have hmem := byteAt_mem hi
  have hlt : byteAt x i ∈ x.take (i + 1) := byteAt_mem_take (by omega) hi
  rw [List.mem_take_iff_idxOf_lt hmem] at h hlt
  omega

/-- A value is new at its first position. -/
theorem byteAt_idxOf {x : List Byte} {v : Byte} (h : v ∈ x) :
    x.idxOf v < x.length ∧ byteAt x (x.idxOf v) = v ∧ v ∉ x.take (x.idxOf v) := by
  have hlt : x.idxOf v < x.length := List.idxOf_lt_length_iff.2 h
  refine ⟨hlt, by rw [byteAt_eq_getElem hlt, List.getElem_idxOf hlt], ?_⟩
  rw [List.mem_take_iff_idxOf_lt h]
  exact lt_irrefl _

/-- A value that is new at position i has the next rank there. -/
theorem firstRank_of_new {x : List Byte} {i : Nat} (hi : i < x.length) (h : byteAt x i ∉ x.take i) :
    firstRank x (byteAt x i) = distinct (x.take i) := by
  rw [firstRank, idxOf_of_new hi h]

/-- A value met before position i has a rank below the number of values met there. -/
theorem firstRank_lt {x : List Byte} {v : Byte} {i : Nat} (h : v ∈ x.take i) :
    firstRank x v < distinct (x.take i) := by
  have hmem := List.mem_of_mem_take h
  obtain ⟨hlt, hget, hnew⟩ := byteAt_idxOf hmem
  have hidx : x.idxOf v < i := (List.mem_take_iff_idxOf_lt hmem).1 h
  have hstep := distinct_take_succ hlt
  rw [hget, if_neg hnew] at hstep
  have := distinct_take_mono x (show x.idxOf v + 1 ≤ i from hidx)
  rw [firstRank]
  omega

/-- Before a position, a value's first rank is its rank in the whole block. -/
theorem firstRank_take {x : List Byte} {v : Byte} {k : Nat} (h : v ∈ x.take k) :
    firstRank (x.take k) v = firstRank x v := by
  have hmem := List.mem_of_mem_take h
  obtain ⟨hlt, hget, hnew⟩ := byteAt_idxOf hmem
  have hidx : x.idxOf v < k := (List.mem_take_iff_idxOf_lt hmem).1 h
  have hnew' : byteAt (x.take k) (x.idxOf v) ∉ (x.take k).take (x.idxOf v) := by
    rwa [byteAt_take hidx, hget, List.take_take, min_eq_left hidx.le]
  have hrank := firstRank_of_new (by rw [List.length_take]; omega) hnew'
  rwa [byteAt_take hidx, hget, List.take_take, min_eq_left hidx.le] at hrank

/-- Every rank below U is some value's: a new one where so many values have been met. -/
theorem exists_new_of_lt_distinct {x : List Byte} {r : Nat} (h : r < distinct x) :
    ∃ p < x.length, byteAt x p ∉ x.take p ∧ distinct (x.take p) = r := by
  have hstep : ∀ k ≤ x.length, r < distinct (x.take k) →
      ∃ p < x.length, byteAt x p ∉ x.take p ∧ distinct (x.take p) = r := by
    intro k
    induction k with
    | zero => intro _ hr; simp [distinct] at hr
    | succ k ih =>
      intro hk hr
      by_cases hlt : r < distinct (x.take k)
      · exact ih (by omega) hlt
      · have hsucc := distinct_take_succ (x := x) (i := k) (by omega)
        split_ifs at hsucc with hmem
        · omega
        · exact ⟨k, by omega, hmem, by omega⟩
  exact hstep x.length le_rfl (by rwa [List.take_length])

/-! ### A ranked table's entries (R451) -/

/-- RANK is the rank by first occurrence. -/
theorem RanksBlock.rankAt_eq_firstRank {t : SymTab} {x : List Byte} (h : RanksBlock t x) {v : Byte}
    (hv : v ∈ x) : (t.rankAt v).toNat = firstRank x v := by
  obtain ⟨hlt, hget, hnew⟩ := byteAt_idxOf hv
  rw [byteAt_eq_getElem hlt] at hget
  have := h.rank _ hlt (by rwa [hget])
  rwa [hget] at this

/-- UNIQ names, at the rank of a new value, that value. -/
theorem RanksBlock.uniqAt_of_new {t : SymTab} {x : List Byte} (h : RanksBlock t x) {p : Nat}
    (hp : p < x.length) (hnew : byteAt x p ∉ x.take p) :
    t.uniqAt (BitVec.ofNat 8 (distinct (x.take p))) = byteAt x p := by
  rw [byteAt_eq_getElem hp] at hnew ⊢
  exact h.uniq p hp hnew

/-- Looking a block value's rank up among the uniques up to it gives the value back. -/
theorem RanksBlock.getD_uniques_firstRank {t : SymTab} {x : List Byte} (h : RanksBlock t x) {v : Byte}
    {k : Nat} (hv : v ∈ x) (hk : firstRank x v < k) : (t.uniques k).getD (firstRank x v) 0#8 = v := by
  rw [← h.rankAt_eq_firstRank hv] at hk ⊢
  exact (t.getD_uniques hk).trans (h.uniqAt_rankAt hv).2

/-- The uniques of the ranks met before position k are the values met there. -/
theorem RanksBlock.mem_uniques_take {t : SymTab} {x : List Byte} (h : RanksBlock t x) {v : Byte} (k : Nat) :
    v ∈ t.uniques (distinct (x.take k)) ↔ v ∈ x.take k := by
  constructor
  · intro hv
    obtain ⟨r, hr, rfl⟩ := List.mem_map.1 hv
    obtain ⟨p, hp, hnew, rfl⟩ := exists_new_of_lt_distinct (List.mem_range.1 hr)
    rw [List.length_take] at hp
    rw [byteAt_take (by omega), List.take_take, min_eq_left (by omega)] at hnew
    rw [List.take_take, min_eq_left (by omega), h.uniqAt_of_new (by omega) hnew]
    exact byteAt_mem_take (by omega) (by omega)
  · intro hv
    have hrank := h.rankAt_eq_firstRank (List.mem_of_mem_take hv)
    refine List.mem_map.2 ⟨firstRank x v, List.mem_range.2 (firstRank_lt hv), ?_⟩
    rw [← hrank, BitVec.ofNat_toNat, BitVec.setWidth_eq, (h.uniqAt_rankAt (List.mem_of_mem_take hv)).2]

end Sys2Proof.Machine
end

section
/-! SUPPORT. The token decoder of the string coders (46_string.md R708, R713): what it does with tokens that
pass their checks, with the first that fails one, and where the stream runs out; and that the tokens of the
match policy stand for the block. -/

namespace Sys2Proof.Machine

/-! ### Tokens that pass their checks (R708) -/

/-- The checks of R708 for a token at position i < n of a block, u of `uniq` uniques introduced. -/
def TokenPasses (uniq n lw u i : Nat) : Token → Prop
  | .newUnique => i < n ∧ u < uniq
  | .repeatRank idx => i < n ∧ idx < u
  | .string len pos => pos < i ∧ 2 ≤ len ∧ len < 2 + 2 ^ lw ∧ i + len ≤ n

/-- A token whose fields can be read at position i < n and that fails its check (R708). -/
def TokenFails (uniq n lw u i : Nat) : Token → Prop
  | .newUnique => i < n ∧ uniq ≤ u
  | .repeatRank idx => i < n ∧ u ≤ idx
  | .string len pos => i < n ∧ 2 ≤ len ∧ len < 2 + 2 ^ lw ∧ (i ≤ pos ∨ n < i + len)

theorem validTokens_cons {uniq n lw u i : Nat} {tok : Token} {toks : List Token} :
    ValidTokens uniq n lw u i (tok :: toks) ↔
      TokenPasses uniq n lw u i tok ∧ ValidTokens uniq n lw (tok.uniquesAfter u) (i + tok.covers) toks := by
  cases tok <;> simp [ValidTokens, TokenPasses, Token.covers, Token.uniquesAfter, and_assoc]

theorem openTokens_cons {uniq n lw w u i : Nat} {part : List Field} {tok : Token} {toks : List Token} :
    OpenTokens uniq n lw part w u i (tok :: toks) ↔ TokenPasses uniq n lw u i tok ∧
      OpenTokens uniq n lw part w (tok.uniquesAfter u) (i + tok.covers) toks := by
  cases tok <;> simp [OpenTokens, TokenPasses, Token.covers, Token.uniquesAfter, and_assoc]

theorem RejectedTokens.cons {uniq n lw u i : Nat} {tok : Token} {toks : List Token}
    (h : RejectedTokens uniq n lw u i (tok :: toks)) :
    TokenFails uniq n lw u i tok ∧ toks = [] ∨ TokenPasses uniq n lw u i tok ∧
      RejectedTokens uniq n lw (tok.uniquesAfter u) (i + tok.covers) toks := by
  cases tok with
  | newUnique =>
    obtain ⟨hi, ⟨hu, hnil⟩ | ⟨hu, hrest⟩⟩ := h
    · exact .inl ⟨⟨hi, hu⟩, hnil⟩
    · exact .inr ⟨⟨hi, hu⟩, hrest⟩
  | repeatRank idx =>
    obtain ⟨hi, -, ⟨hu, hnil⟩ | ⟨hu, hrest⟩⟩ := h
    · exact .inl ⟨⟨hi, hu⟩, hnil⟩
    · exact .inr ⟨⟨hi, hu⟩, hrest⟩
  | string len pos =>
    obtain ⟨hi, h2, hlen, -, ⟨hbad, hnil⟩ | ⟨hpos, hend, hrest⟩⟩ := h
    · exact .inl ⟨⟨hi, h2, hlen, hbad⟩, hnil⟩
    · exact .inr ⟨⟨hpos, h2, hlen, hend⟩, hrest⟩

/-- A passing token starts inside the block, covers at least one byte, and ends inside it. -/
theorem TokenPasses.bounds {uniq n lw u i : Nat} {tok : Token} (h : TokenPasses uniq n lw u i tok) :
    i < n ∧ 1 ≤ tok.covers ∧ i + tok.covers ≤ n := by
  cases tok with
  | newUnique | repeatRank =>
    obtain ⟨hi, -⟩ := h
    exact ⟨hi, le_rfl, hi⟩
  | string len pos =>
    obtain ⟨hpos, h2, -, hend⟩ := h
    simp only [Token.covers]
    omega

theorem TokenFails.lt {uniq n lw u i : Nat} {tok : Token} (h : TokenFails uniq n lw u i tok) : i < n := by
  cases tok with
  | newUnique | repeatRank | string => exact h.1

theorem TokenPasses.uniquesAfter_le {uniq n lw u i : Nat} {tok : Token}
    (h : TokenPasses uniq n lw u i tok) (hu : u ≤ uniq) : tok.uniquesAfter u ≤ uniq := by
  cases tok with
  | newUnique => exact h.2
  | repeatRank | string => exact hu

/-! ### One token from a stream (R700, R713) -/

@[simp] theorem fieldsWidth_fields (lw u i : Nat) (tok : Token) :
    fieldsWidth (tok.fields lw u i) = tok.bits lw u i := by
  cases tok <;> simp [Token.fields, Token.bits] <;> omega

/-- The decoder's answer to a token whose fields the stream holds: the check of R708. -/
theorem readToken_newUnique {m : Memory} {lw uniq n u i p : Nat}
    (h : StreamHolds m p (Token.newUnique.fields lw u i)) (hp : p + Token.newUnique.bits lw u i ≤ 8192) :
    readToken m lw uniq n u i p = if u ≥ uniq then .error .decode else .ok (.newUnique, p + 1) := by
  have hlead : getBits m p 1 = .ok (0, p + 1) := getBits_of_holds h hp
  simp [readToken, hlead]

theorem readToken_repeatRank {m : Memory} {lw uniq n u i p idx : Nat}
    (h : StreamHolds m p ((Token.repeatRank idx).fields lw u i))
    (hp : p + (Token.repeatRank idx).bits lw u i ≤ 8192) :
    readToken m lw uniq n u i p =
      if idx ≥ u then .error .decode else .ok (.repeatRank idx, p + (2 + idxw u)) := by
  simp only [Token.bits] at hp
  have hlead : getBits m p 1 = .ok (1, p + 1) := getBits_of_holds h (show p + 1 ≤ 8192 by omega)
  have hnext : getBits m (p + 1) 1 = .ok (0, p + 1 + 1) :=
    getBits_of_holds h.2 (show p + 1 + 1 ≤ 8192 by omega)
  have hidx : getBits m (p + 1 + 1) (idxw u) = .ok (idx, p + 1 + 1 + idxw u) :=
    getBits_of_holds h.2.2 (show p + 1 + 1 + idxw u ≤ 8192 by omega)
  simp [readToken, hlead, hnext, hidx, Nat.add_assoc]

theorem readToken_string {m : Memory} {lw uniq n u i p len pos : Nat} (hlen : 2 ≤ len)
    (h : StreamHolds m p ((Token.string len pos).fields lw u i))
    (hp : p + (Token.string len pos).bits lw u i ≤ 8192) :
    readToken m lw uniq n u i p =
      if pos ≥ i ∨ i + len > n then .error .decode
      else .ok (.string len pos, p + (2 + lw + posw i)) := by
  simp only [Token.bits] at hp
  have hlead : getBits m p 1 = .ok (1, p + 1) := getBits_of_holds h (show p + 1 ≤ 8192 by omega)
  have hnext : getBits m (p + 1) 1 = .ok (1, p + 1 + 1) :=
    getBits_of_holds h.2 (show p + 1 + 1 ≤ 8192 by omega)
  have hlm2 : getBits m (p + 1 + 1) lw = .ok (len - 2, p + 1 + 1 + lw) :=
    getBits_of_holds h.2.2 (show p + 1 + 1 + lw ≤ 8192 by omega)
  have hpos : getBits m (p + 1 + 1 + lw) (posw i) = .ok (pos, p + 1 + 1 + lw + posw i) :=
    getBits_of_holds h.2.2.2 (show p + 1 + 1 + lw + posw i ≤ 8192 by omega)
  rw [show p + (2 + lw + posw i) = p + 1 + 1 + lw + posw i by omega]
  simp [readToken, hlead, hnext, hlm2, hpos, Nat.sub_add_cancel hlen]

theorem readToken_of_passes {m : Memory} {lw uniq n u i p : Nat} {tok : Token}
    (htok : TokenPasses uniq n lw u i tok) (h : StreamHolds m p (tok.fields lw u i))
    (hp : p + tok.bits lw u i ≤ 8192) :
    readToken m lw uniq n u i p = .ok (tok, p + tok.bits lw u i) := by
  cases tok with
  | newUnique => exact (readToken_newUnique h hp).trans (if_neg (Nat.not_le.2 htok.2))
  | repeatRank idx => exact (readToken_repeatRank h hp).trans (if_neg (Nat.not_le.2 htok.2))
  | string len pos =>
    obtain ⟨hpos, h2, -, hend⟩ := htok
    exact (readToken_string h2 h hp).trans (if_neg (by omega))

theorem readToken_of_fails {m : Memory} {lw uniq n u i p : Nat} {tok : Token}
    (htok : TokenFails uniq n lw u i tok) (h : StreamHolds m p (tok.fields lw u i))
    (hp : p + tok.bits lw u i ≤ 8192) : readToken m lw uniq n u i p = .error .decode := by
  cases tok with
  | newUnique => exact (readToken_newUnique h hp).trans (if_pos htok.2)
  | repeatRank idx => exact (readToken_repeatRank h hp).trans (if_pos htok.2)
  | string len pos =>
    obtain ⟨-, h2, -, hbad⟩ := htok
    exact (readToken_string h2 h hp).trans (if_pos hbad)

/-- The stream runs out inside a token: behind the fields `part` the next one passes bit 8192. -/
theorem readToken_of_open {m : Memory} {lw uniq n u i p w : Nat} {part : List Field}
    (h : OpenTokens uniq n lw part w u i []) (hpart : StreamHolds m p part)
    (hp : p + fieldsWidth part ≤ 8192) (hout : 8192 < p + fieldsWidth part + w) :
    readToken m lw uniq n u i p = .error .range := by
  obtain ⟨-, ⟨rfl, rfl⟩ | ⟨rfl, rfl⟩ | ⟨rfl, rfl⟩ | ⟨rfl, rfl⟩ | ⟨lm2, rfl, rfl⟩⟩ := h <;>
    simp only [fieldsWidth_cons, fieldsWidth_nil, Nat.add_zero] at hp hout
  · rw [readToken, getBits_range (by omega) hout]
  · have hlead : getBits m p 1 = .ok (1, p + 1) := getBits_of_holds hpart hp
    simp [readToken, hlead, getBits_range (m := m) (cur := p + 1) (n := 1) (by omega) hout]
  · have hlead : getBits m p 1 = .ok (1, p + 1) := getBits_of_holds hpart (show p + 1 ≤ 8192 by omega)
    have hnext : getBits m (p + 1) 1 = .ok (0, p + 1 + 1) :=
      getBits_of_holds hpart.2 (show p + 1 + 1 ≤ 8192 by omega)
    simp [readToken, hlead, hnext,
      getBits_range (m := m) (cur := p + 1 + 1) (n := idxw u) (one_le_idxw u) (by omega)]
  · have hlead : getBits m p 1 = .ok (1, p + 1) := getBits_of_holds hpart (show p + 1 ≤ 8192 by omega)
    have hnext : getBits m (p + 1) 1 = .ok (1, p + 1 + 1) :=
      getBits_of_holds hpart.2 (show p + 1 + 1 ≤ 8192 by omega)
    simp [readToken, hlead, hnext,
      getBits_range (m := m) (cur := p + 1 + 1) (n := w) (by omega) (by omega)]
  · have hlead : getBits m p 1 = .ok (1, p + 1) := getBits_of_holds hpart (show p + 1 ≤ 8192 by omega)
    have hnext : getBits m (p + 1) 1 = .ok (1, p + 1 + 1) :=
      getBits_of_holds hpart.2 (show p + 1 + 1 ≤ 8192 by omega)
    have hlm2 : getBits m (p + 1 + 1) lw = .ok (lm2, p + 1 + 1 + lw) :=
      getBits_of_holds hpart.2.2 (show p + 1 + 1 + lw ≤ 8192 by omega)
    simp [readToken, hlead, hnext, hlm2,
      getBits_range (m := m) (cur := p + 1 + 1 + lw) (n := posw i) (by omega) (by omega)]

/-! ### What tokens produce (R700) -/

theorem copyBytes_succ (out : List Byte) (p len : Nat) :
    copyBytes out p (len + 1) = copyBytes (out ++ [byteAt out p]) (p + 1) len := rfl

@[simp] theorem length_copyBytes (out : List Byte) (p len : Nat) :
    (copyBytes out p len).length = out.length + len := by
  induction len generalizing out p with
  | zero => rfl
  | succ len ih => rw [copyBytes_succ, ih, List.length_append, List.length_singleton]; omega

theorem isPrefix_copyBytes (out : List Byte) (p len : Nat) : out <+: copyBytes out p len := by
  induction len generalizing out p with
  | zero => exact List.prefix_rfl
  | succ len ih => exact (List.prefix_append out _).trans (ih _ _)

/-- R713: the copy reads its own output, byte k of it out of position p + k. -/
theorem getElem?_copyBytes {out : List Byte} {p : Nat} (hp : p < out.length) {len k : Nat} (hk : k < len) :
    (copyBytes out p len)[out.length + k]? = (copyBytes out p len)[p + k]? := by
  induction len generalizing out p k with
  | zero => omega
  | succ len ih =>
    rw [copyBytes_succ]
    have hgrown := isPrefix_copyBytes (out ++ [byteAt out p]) (p + 1) len
    cases k with
    | zero =>
      have hat := List.prefix_iff_getElem?.1 hgrown
      rw [Nat.add_zero out.length, Nat.add_zero p, hat out.length (by simp), hat p (by simp; omega),
        List.getElem_concat_length rfl, List.getElem_append_left hp, byteAt_eq_getElem hp]
    | succ k =>
      have := ih (out := out ++ [byteAt out p]) (p := p + 1) (k := k)
        (by rw [List.length_append, List.length_singleton]; omega) (by omega)
      rwa [List.length_append, List.length_singleton, Nat.add_right_comm, Nat.add_assoc p 1,
        Nat.add_comm 1 k] at this

/-- What a token list appends to the output, u uniques introduced. -/
def produced (vals : List Byte) : Nat → List Byte → List Token → List Byte
  | _, out, [] => out
  | u, out, tok :: toks => produced vals (tok.uniquesAfter u) (tok.apply vals out u) toks

@[simp] theorem length_apply (vals out : List Byte) (u : Nat) (tok : Token) :
    (tok.apply vals out u).length = out.length + tok.covers := by
  cases tok <;> simp [Token.apply, Token.covers]

theorem isPrefix_apply (vals out : List Byte) (u : Nat) (tok : Token) : out <+: tok.apply vals out u := by
  cases tok with
  | newUnique | repeatRank => exact List.prefix_append _ _
  | string len pos => exact isPrefix_copyBytes _ _ _

theorem isPrefix_produced (vals : List Byte) (u : Nat) (out : List Byte) (toks : List Token) :
    out <+: produced vals u out toks := by
  induction toks generalizing u out with
  | nil => exact List.prefix_rfl
  | cons tok toks ih => exact (isPrefix_apply vals out u tok).trans (ih _ _)

/-- R700's effect column holds of what passing tokens produce. -/
theorem tokensProduce_produced {vals : List Byte} {n lw u : Nat} {out : List Byte} {toks : List Token}
    (hu : u ≤ vals.length) (h : ValidTokens vals.length n lw u out.length toks) :
    TokensProduce vals (produced vals u out toks) u out.length toks := by
  induction toks generalizing u out with
  | nil => rfl
  | cons tok toks ih =>
    obtain ⟨htok, hrest⟩ := validTokens_cons.1 h
    have hih := ih (htok.uniquesAfter_le hu) (out := tok.apply vals out u) (by rwa [length_apply])
    have hgrown := isPrefix_produced vals (tok.uniquesAfter u) (tok.apply vals out u) toks
    rw [produced]
    generalize produced vals (tok.uniquesAfter u) (tok.apply vals out u) toks = final at *
    have hlen := hgrown.length_le
    have hat : ∀ j < out.length + tok.covers, final[j]? = (tok.apply vals out u)[j]? := fun j hj => by
      rw [← length_apply vals out u tok] at hj
      exact (List.prefix_iff_getElem?.1 hgrown j hj).trans (List.getElem?_eq_getElem hj).symm
    rw [length_apply] at hih hlen
    cases tok with
    | newUnique =>
      refine ⟨hlen, (hat _ (Nat.lt_succ_self _)).trans ?_, hih⟩
      simp [Token.apply, htok.2]
    | repeatRank idx =>
      refine ⟨hlen, (hat _ (Nat.lt_succ_self _)).trans ?_, hih⟩
      simp [Token.apply, htok.2.trans_le hu]
    | string len pos =>
      refine ⟨hlen, fun k hk => ?_, hih⟩
      rw [hat _ (Nat.add_lt_add_left hk _), hat _ (Nat.add_lt_add htok.1 hk)]
      exact getElem?_copyBytes htok.1 hk

/-! ### The token loop (R713) -/

theorem strTokens_turn {m : Memory} {vals out : List Byte} {lw n fuel u p p' : Nat} {tok : Token}
    (hlt : out.length < n) (h : readToken m lw vals.length n u out.length p = .ok (tok, p')) :
    strTokens m vals lw n (fuel + 1) u out p =
      strTokens m vals lw n fuel (tok.uniquesAfter u) (tok.apply vals out u) p' := by
  simp only [strTokens, if_pos hlt, h]

theorem strTokens_error {m : Memory} {vals out : List Byte} {lw n fuel u p : Nat} {e : CmdError}
    (hlt : out.length < n) (h : readToken m lw vals.length n u out.length p = .error e) :
    strTokens m vals lw n (fuel + 1) u out p = .error e := by
  simp only [strTokens, if_pos hlt, h]

/-- At i = n all header values must have been used. -/
theorem strTokens_end {m : Memory} {vals out : List Byte} {lw n fuel u p : Nat} (hn : out.length = n) :
    strTokens m vals lw n fuel u out p = if u ≠ vals.length then .error .decode else .ok (out, p) := by
  cases fuel with
  | zero => rfl
  | succ fuel => rw [strTokens, if_neg (by omega)]

/-- Passing tokens that reach the end of the block with all header values used are decoded. -/
theorem strTokens_of_valid {m : Memory} {vals : List Byte} {lw n : Nat} (toks : List Token) {fuel u p : Nat}
    {out : List Byte} (h : ValidTokens vals.length n lw u out.length toks)
    (hholds : StreamHolds m p (tokensFields lw u out.length toks))
    (hp : p + tokensBits lw u out.length toks ≤ 8192) (hfuel : n ≤ out.length + fuel) :
    strTokens m vals lw n fuel u out p =
      .ok (produced vals u out toks, p + tokensBits lw u out.length toks) := by
  induction toks generalizing fuel u out p with
  | nil =>
    obtain ⟨hn, hu⟩ := h
    exact (strTokens_end hn).trans (if_neg (not_not.2 hu))
  | cons tok toks ih =>
    obtain ⟨htok, hrest⟩ := validTokens_cons.1 h
    obtain ⟨hlt, hcov, -⟩ := htok.bounds
    obtain ⟨hfirst, hrests⟩ := (streamHolds_append m _ _ p).1 hholds
    rw [fieldsWidth_fields] at hrests
    rw [tokensBits] at hp ⊢
    obtain ⟨fuel, rfl⟩ : ∃ k, fuel = k + 1 := ⟨fuel - 1, by omega⟩
    rw [strTokens_turn hlt (readToken_of_passes htok hfirst (by omega)), produced, ← Nat.add_assoc]
    rw [← length_apply vals out u tok] at hrest hrests hp ⊢
    exact ih hrest hrests (by omega) (by rw [length_apply]; omega)

/-- The first token that fails its check, or a header value left unused, is E_DECODE. -/
theorem strTokens_of_rejected {m : Memory} {vals : List Byte} {lw n : Nat} (toks : List Token)
    {fuel u p : Nat} {out : List Byte} (h : RejectedTokens vals.length n lw u out.length toks)
    (hholds : StreamHolds m p (tokensFields lw u out.length toks))
    (hp : p + tokensBits lw u out.length toks ≤ 8192) (hfuel : n ≤ out.length + fuel) :
    strTokens m vals lw n fuel u out p = .error .decode := by
  induction toks generalizing fuel u out p with
  | nil =>
    obtain ⟨hn, hu⟩ := h
    exact (strTokens_end hn).trans (if_pos hu)
  | cons tok toks ih =>
    obtain ⟨hfirst, hrests⟩ := (streamHolds_append m _ _ p).1 hholds
    rw [fieldsWidth_fields] at hrests
    rw [tokensBits] at hp
    obtain ⟨hbad, -⟩ | ⟨htok, hrest⟩ := h.cons
    · have hlt := hbad.lt
      obtain ⟨fuel, rfl⟩ : ∃ k, fuel = k + 1 := ⟨fuel - 1, by omega⟩
      exact strTokens_error hlt (readToken_of_fails hbad hfirst (by omega))
    · obtain ⟨hlt, hcov, -⟩ := htok.bounds
      obtain ⟨fuel, rfl⟩ : ∃ k, fuel = k + 1 := ⟨fuel - 1, by omega⟩
      rw [strTokens_turn hlt (readToken_of_passes htok hfirst (by omega))]
      rw [← length_apply vals out u tok] at hrest hrests hp
      exact ih hrest hrests (by omega) (by rw [length_apply]; omega)

/-- The stream runs out inside the token behind passing tokens: E_RANGE. -/
theorem strTokens_of_open {m : Memory} {vals : List Byte} {lw n w : Nat} {part : List Field}
    (toks : List Token) {fuel u p : Nat} {out : List Byte}
    (h : OpenTokens vals.length n lw part w u out.length toks)
    (hholds : StreamHolds m p (tokensFields lw u out.length toks ++ part))
    (hp : p + tokensBits lw u out.length toks + fieldsWidth part ≤ 8192)
    (hout : 8192 < p + tokensBits lw u out.length toks + fieldsWidth part + w)
    (hfuel : n ≤ out.length + fuel) :
    strTokens m vals lw n fuel u out p = .error .range := by
  induction toks generalizing fuel u out p with
  | nil =>
    have hlt : out.length < n := h.1
    obtain ⟨fuel, rfl⟩ : ∃ k, fuel = k + 1 := ⟨fuel - 1, by omega⟩
    exact strTokens_error hlt (readToken_of_open h hholds hp hout)
  | cons tok toks ih =>
    obtain ⟨htok, hrest⟩ := openTokens_cons.1 h
    obtain ⟨hlt, hcov, -⟩ := htok.bounds
    rw [tokensFields, List.append_assoc, streamHolds_append, fieldsWidth_fields] at hholds
    obtain ⟨hfirst, hrests⟩ := hholds
    rw [tokensBits, ← Nat.add_assoc] at hp hout
    obtain ⟨fuel, rfl⟩ : ∃ k, fuel = k + 1 := ⟨fuel - 1, by omega⟩
    rw [strTokens_turn hlt (readToken_of_passes htok hfirst (by omega))]
    rw [← length_apply vals out u tok] at hrest hrests hp hout
    exact ih hrest hrests (by omega) (by omega) (by rw [length_apply]; omega)

/-! ### The headers (R703, R751) -/

theorem byteFields_cons (w : Nat) (v : Byte) (vals : List Byte) :
    byteFields w (v :: vals) = ⟨v.toNat, w⟩ :: byteFields w vals := rfl

@[simp] theorem fieldsWidth_byteFields (w : Nat) (vals : List Byte) :
    fieldsWidth (byteFields w vals) = w * vals.length := fieldsWidth_map _ _ _

theorem map_ofNat_toNat (vals : List Byte) : (vals.map BitVec.toNat).map (BitVec.ofNat 8) = vals := by
  rw [List.map_map]
  exact (List.map_congr_left fun v _ => by simp).trans (List.map_id vals)

theorem getMany_of_byteFields {m : Memory} {w p : Nat} {vals : List Byte}
    (h : StreamHolds m p (byteFields w vals)) (hp : p + w * vals.length ≤ 8192) :
    getMany m w vals.length p = .ok (vals.map BitVec.toNat, p + w * vals.length) := by
  have := getMany_of_holds (m := m) (w := w) (p := p) (vals.map BitVec.toNat)
    (by rw [List.map_map]; exact h) (by rwa [List.length_map])
  rwa [List.length_map] at this

/-- Values run out before the n-th. -/
theorem getMany_of_runsOut {m : Memory} {w n p : Nat} (vals : List Byte) (hn : vals.length < n)
    (h : StreamHolds m p (byteFields w vals)) (hp : p + w * vals.length ≤ 8192)
    (hout : 8192 < p + w * vals.length + w) : getMany m w n p = .error .range := by
  obtain ⟨n, rfl⟩ : ∃ k, n = k + 1 := ⟨n - 1, by omega⟩
  induction vals generalizing n p with
  | nil => rw [getMany, getBits_range (by simp at hp hout; omega) (by simpa using hout)]
  | cons v vals ih =>
    simp only [List.length_cons, Nat.mul_succ] at hn hp hout
    obtain ⟨n, rfl⟩ : ∃ k, n = k + 1 := ⟨n - 1, by omega⟩
    simp only [byteFields_cons, streamHolds_cons] at h
    have hrest := ih h.2 (by omega) (by omega) n (by omega)
    rw [getMany, getBits_ok (by omega)]
    simp only [hrest]

/-- Behind the bounded header the tokens are decoded. -/
theorem strDecode_of_header {m : Memory} {n p : Nat} {vals : List Byte} {fs : List Field}
    (hv : 1 ≤ vals.length) (h : StreamHolds m p (⟨vals.length - 1, 5⟩ :: byteFields 8 vals ++ fs))
    (hp : p + 5 + 8 * vals.length ≤ 8192) :
    StreamHolds m (p + 5 + 8 * vals.length) fs ∧
      strDecode m n p = strTokens m vals 3 n n 0 [] (p + 5 + 8 * vals.length) := by
  have hhead : getBits m p 5 = .ok (vals.length - 1, p + 5) :=
    getBits_of_holds h (show p + 5 ≤ 8192 by omega)
  obtain ⟨hvals, hrest⟩ := (streamHolds_append m _ _ (p + 5)).1 h.2
  rw [fieldsWidth_byteFields] at hrest
  refine ⟨hrest, ?_⟩
  simp only [strDecode, hhead, Nat.sub_add_cancel hv, getMany_of_byteFields hvals hp, map_ofNat_toNat]
  rfl

/-- A flag read back from its bit. -/
theorem decide_toNat_eq_one (b : Bool) : decide (b.toNat = 1) = b := by
  cases b with
  | false | true => rfl

theorem headerWidth_eq (p7 : Bool) : headerWidth p7 = if p7 then 7 else 8 := rfl

/-- Behind the extended header the tokens are decoded. -/
theorem xstrDecode_of_header {m : Memory} {n p : Nat} {p7 : Bool} {vals : List Byte} {fs : List Field}
    (hv : 1 ≤ vals.length)
    (h : StreamHolds m p
      (⟨vals.length - 1, 7⟩ :: ⟨p7.toNat, 1⟩ :: byteFields (headerWidth p7) vals ++ fs))
    (hp : p + 8 + headerWidth p7 * vals.length ≤ 8192) :
    StreamHolds m (p + 8 + headerWidth p7 * vals.length) fs ∧
      xstrDecode m n p = strTokens m vals 4 n n 0 [] (p + 8 + headerWidth p7 * vals.length) := by
  have hhead : getBits m p 7 = .ok (vals.length - 1, p + 7) :=
    getBits_of_holds h (show p + 7 ≤ 8192 by omega)
  have hp7 : getBits m (p + 7) 1 = .ok (p7.toNat, p + 8) :=
    getBits_of_holds h.2 (show p + 7 + 1 ≤ 8192 by omega)
  obtain ⟨hvals, hrest⟩ := (streamHolds_append m _ _ (p + 8)).1 h.2.2
  rw [fieldsWidth_byteFields] at hrest
  refine ⟨hrest, ?_⟩
  simp only [xstrDecode, hhead, hp7, decide_toNat_eq_one, Nat.sub_add_cancel hv, getMany_of_byteFields hvals hp,
    map_ofNat_toNat]
  rfl

/-- The bounded decoder runs out in its header. -/
theorem strDecode_of_runsOut {m : Memory} {n p u : Nat} {vals : List Byte} (hu : vals.length < u)
    (h : StreamHolds m p (⟨u - 1, 5⟩ :: byteFields 8 vals)) (hp : p + 5 + 8 * vals.length ≤ 8192)
    (hout : 8192 < p + 5 + 8 * vals.length + 8) : strDecode m n p = .error .range := by
  have hhead : getBits m p 5 = .ok (u - 1, p + 5) := getBits_of_holds h (show p + 5 ≤ 8192 by omega)
  simp only [strDecode, hhead, getMany_of_runsOut (n := u - 1 + 1) vals (by omega) h.2 hp hout]

/-- The extended decoder runs out in its header's values. -/
theorem xstrDecode_of_runsOut {m : Memory} {n p u : Nat} {p7 : Bool} {vals : List Byte}
    (hu : vals.length < u)
    (h : StreamHolds m p (⟨u - 1, 7⟩ :: ⟨p7.toNat, 1⟩ :: byteFields (headerWidth p7) vals))
    (hp : p + 8 + headerWidth p7 * vals.length ≤ 8192)
    (hout : 8192 < p + 8 + headerWidth p7 * vals.length + headerWidth p7) :
    xstrDecode m n p = .error .range := by
  have hhead : getBits m p 7 = .ok (u - 1, p + 7) := getBits_of_holds h (show p + 7 ≤ 8192 by omega)
  have hp7 : getBits m (p + 7) 1 = .ok (p7.toNat, p + 8) :=
    getBits_of_holds h.2 (show p + 7 + 1 ≤ 8192 by omega)
  have hvals : getMany m (headerWidth p7) (u - 1 + 1) (p + 8) = .error .range :=
    getMany_of_runsOut vals (by omega) h.2.2 hp hout
  simp only [xstrDecode, hhead, hp7, decide_toNat_eq_one, hvals]

/-! ### Decoders on a legal block -/

theorem exec_strdec_of_legal {u : State} (h : u.legalBlock 64) :
    exec .strdec u = complete u (deliver u (strDecode u.str u.n.toNat u.cur.toNat)) :=
  congrArg (complete u) (if_pos ((u.blockOk_iff 64).2 h))

theorem exec_xstrdec_of_legal {u : State} (h : u.legalBlock 512) :
    exec .xstrdec u = complete u (deliver u (xstrDecode u.str u.n.toNat u.cur.toNat)) :=
  congrArg (complete u) (if_pos ((u.blockOk_iff 512).2 h))

/-- A decoder that answers an error has no other effect (R800). -/
theorem complete_deliver_error {s : State} {r : Except CmdError (List Byte × Nat)} {e : CmdError}
    (h : r = .error e) : complete s (deliver s r) = .next (s.onlyStatus (some e) false) := by
  rw [h]
  rfl

/-- A decoder that answers its output writes it to the block and moves CUR past the stream (R201, R409). -/
theorem complete_deliver_ok {s : State} {r : Except CmdError (List Byte × Nat)} {out : List Byte}
    {total : Nat} (h : r = .ok (out, s.cur.toNat + total)) :
    complete s (deliver s r) = .next (State.succeeded { s with
        blk := s.blk.writeBytes s.base.toNat out, cur := BitVec.ofNat 14 (s.cur.toNat + total),
        bitlen := BitVec.ofNat 14 total, consumed := s.n } false) := by
  rw [h, deliver, complete_commit, State.commitDecoded, Nat.add_sub_cancel_left]

theorem writesBlock_writeBytes (m : Memory) (base : Nat) (out : List Byte) :
    WritesBlock m (m.writeBytes base out) base out :=
  ⟨fun i h => Memory.read_writeBytes_inside _ _ _ _ i h,
    fun a h => Memory.read_writeBytes_outside _ _ _ _ a (by omega)⟩

theorem length_produced {vals : List Byte} {uniq n lw u : Nat} {out : List Byte} {toks : List Token}
    (h : ValidTokens uniq n lw u out.length toks) : (produced vals u out toks).length = n := by
  induction toks generalizing u out with
  | nil => exact h.1
  | cons tok toks ih => exact ih (by rw [length_apply]; exact (validTokens_cons.1 h).2)

/-- Settles O41: behind the header the loop reads the tokens back and applies R700's effects. -/
theorem stringDecodersReadTheirStreams : Obligations.StringDecodersReadTheirStreams := by
  rintro s vals toks fs hv
  constructor
  · rintro hlegal - hvalid rfl hp hholds
    simp only [List.cons_append, fieldsWidth_cons, fieldsWidth_append, fieldsWidth_byteFields,
      fieldsWidth_tokensFields] at hp
    obtain ⟨htoks, hdec⟩ := strDecode_of_header (n := s.n.toNat) hv hholds (by omega)
    rw [strTokens_of_valid (out := []) toks hvalid htoks (by simp only [List.length_nil]; omega) (by simp)]
      at hdec
    refine ⟨_, produced vals 0 [] toks, (exec_strdec_of_legal hlegal).trans (complete_deliver_ok ?_),
      length_produced (out := []) hvalid, tokensProduce_produced (Nat.zero_le _) hvalid,
      writesBlock_writeBytes _ _ _⟩
    rw [hdec]
    simp [fieldsWidth_tokensFields, Nat.add_assoc]
  · rintro p7 hlegal - - hvalid rfl hp hholds
    simp only [List.cons_append, fieldsWidth_cons, fieldsWidth_append, fieldsWidth_byteFields,
      fieldsWidth_tokensFields, ← headerWidth_eq] at hp
    obtain ⟨htoks, hdec⟩ := xstrDecode_of_header (n := s.n.toNat) hv hholds (by omega)
    rw [strTokens_of_valid (out := []) toks hvalid htoks (by simp only [List.length_nil]; omega) (by simp)]
      at hdec
    refine ⟨_, produced vals 0 [] toks, (exec_xstrdec_of_legal hlegal).trans (complete_deliver_ok ?_),
      length_produced (out := []) hvalid, tokensProduce_produced (Nat.zero_le _) hvalid,
      writesBlock_writeBytes _ _ _⟩
    rw [hdec]
    simp [fieldsWidth_tokensFields, headerWidth_eq]
    omega

/-- Running out behind a field: the fields read are inside STR, and the next one is not. -/
theorem State.RunsOutAfter.fits {s : State} {f : Field} {fs : List Field} {w : Nat}
    (h : s.RunsOutAfter (f :: fs) w) : StreamHolds s.str s.cur.toNat (f :: fs) ∧
      s.cur.toNat + fieldsWidth (f :: fs) ≤ 8192 ∧ 8192 < s.cur.toNat + fieldsWidth (f :: fs) + w :=
  ⟨h.1, h.2.1.resolve_left (List.cons_ne_nil _ _), h.2.2⟩

/-- The field behind the ones read raises E_RANGE. -/
theorem State.RunsOutAfter.getBits {s : State} {fs : List Field} {w : Nat} (h : s.RunsOutAfter fs w)
    (hw : 1 ≤ w) : getBits s.str (s.cur.toNat + fieldsWidth fs) w = .error .range :=
  getBits_range hw h.2.2

/-! ### The obligations on STRDEC and XSTRDEC -/

theorem exec_strdec_rejects {s : State} {vals : List Byte} {toks : List Token} (hv : 1 ≤ vals.length)
    (hlegal : s.legalBlock 64) (h : RejectedTokens vals.length s.n.toNat 3 0 0 toks)
    (hp : s.cur.toNat + fieldsWidth (⟨vals.length - 1, 5⟩ :: byteFields 8 vals ++ tokensFields 3 0 0 toks)
      ≤ 8192)
    (hholds : StreamHolds s.str s.cur.toNat
      (⟨vals.length - 1, 5⟩ :: byteFields 8 vals ++ tokensFields 3 0 0 toks)) :
    exec .strdec s = .next (s.onlyStatus (some .decode) false) := by
  simp only [List.cons_append, fieldsWidth_cons, fieldsWidth_append, fieldsWidth_byteFields,
    fieldsWidth_tokensFields] at hp
  obtain ⟨htoks, hdec⟩ := strDecode_of_header (n := s.n.toNat) hv hholds (by omega)
  rw [strTokens_of_rejected (out := []) toks h htoks (by simp only [List.length_nil]; omega) (by simp)] at hdec
  exact (exec_strdec_of_legal hlegal).trans (complete_deliver_error hdec)

theorem exec_strdec_runsOut {s : State} {vals : List Byte} {toks : List Token} {part : List Field} {w : Nat}
    (hv : 1 ≤ vals.length) (hlegal : s.legalBlock 64)
    (h : OpenTokens vals.length s.n.toNat 3 part w 0 0 toks)
    (hout : s.RunsOutAfter (⟨vals.length - 1, 5⟩ :: byteFields 8 vals ++ tokensFields 3 0 0 toks ++ part) w) :
    exec .strdec s = .next (s.onlyStatus (some .range) false) := by
  rw [List.append_assoc, List.cons_append] at hout
  obtain ⟨hholds, hp, hout⟩ := hout.fits
  simp only [fieldsWidth_cons, fieldsWidth_append, fieldsWidth_byteFields, fieldsWidth_tokensFields]
    at hp hout
  obtain ⟨htoks, hdec⟩ := strDecode_of_header (n := s.n.toNat) hv hholds (by omega)
  rw [strTokens_of_open (out := []) toks h htoks (by simp only [List.length_nil]; omega)
    (by simp only [List.length_nil]; omega) (by simp)] at hdec
  exact (exec_strdec_of_legal hlegal).trans (complete_deliver_error hdec)

theorem exec_xstrdec_rejects {s : State} {p7 : Bool} {vals : List Byte} {toks : List Token}
    (hv : 1 ≤ vals.length) (hlegal : s.legalBlock 512)
    (h : RejectedTokens vals.length s.n.toNat 4 0 0 toks)
    (hp : s.cur.toNat + fieldsWidth (⟨vals.length - 1, 7⟩ :: ⟨p7.toNat, 1⟩
      :: byteFields (headerWidth p7) vals ++ tokensFields 4 0 0 toks) ≤ 8192)
    (hholds : StreamHolds s.str s.cur.toNat (⟨vals.length - 1, 7⟩ :: ⟨p7.toNat, 1⟩
      :: byteFields (headerWidth p7) vals ++ tokensFields 4 0 0 toks)) :
    exec .xstrdec s = .next (s.onlyStatus (some .decode) false) := by
  simp only [List.cons_append, fieldsWidth_cons, fieldsWidth_append, fieldsWidth_byteFields,
    fieldsWidth_tokensFields] at hp
  obtain ⟨htoks, hdec⟩ := xstrDecode_of_header (n := s.n.toNat) hv hholds (by omega)
  rw [strTokens_of_rejected (out := []) toks h htoks (by simp only [List.length_nil]; omega) (by simp)] at hdec
  exact (exec_xstrdec_of_legal hlegal).trans (complete_deliver_error hdec)

theorem exec_xstrdec_runsOut {s : State} {p7 : Bool} {vals : List Byte} {toks : List Token}
    {part : List Field} {w : Nat} (hv : 1 ≤ vals.length) (hlegal : s.legalBlock 512)
    (h : OpenTokens vals.length s.n.toNat 4 part w 0 0 toks)
    (hout : s.RunsOutAfter (⟨vals.length - 1, 7⟩ :: ⟨p7.toNat, 1⟩
      :: byteFields (headerWidth p7) vals ++ tokensFields 4 0 0 toks ++ part) w) :
    exec .xstrdec s = .next (s.onlyStatus (some .range) false) := by
  rw [List.append_assoc, List.cons_append] at hout
  obtain ⟨hholds, hp, hout⟩ := hout.fits
  simp only [List.cons_append, fieldsWidth_cons, fieldsWidth_append, fieldsWidth_byteFields,
    fieldsWidth_tokensFields] at hp hout
  obtain ⟨htoks, hdec⟩ := xstrDecode_of_header (n := s.n.toNat) hv hholds (by omega)
  rw [strTokens_of_open (out := []) toks h htoks (by simp only [List.length_nil]; omega)
    (by simp only [List.length_nil]; omega) (by simp)] at hdec
  exact (exec_xstrdec_of_legal hlegal).trans (complete_deliver_error hdec)

/-- Settles O42: the loop stops at the first token that fails its check or that the stream ends in, and so
does the reading of the header. -/
theorem stringDecodersRejectBadTokens : Obligations.StringDecodersRejectBadTokens := by
  refine ⟨fun s vals toks fs hv => ⟨?_, ?_⟩, fun s hlegal => ⟨?_, ?_, ?_⟩,
    fun s hlegal => ⟨?_, ?_, ?_, ?_⟩⟩
  · rintro hlegal - h rfl hp hholds
    exact exec_strdec_rejects hv hlegal h hp hholds
  · rintro p7 hlegal - h rfl hp hholds
    exact exec_xstrdec_rejects hv hlegal h hp hholds
  · intro hout
    have hhead : getBits s.str s.cur.toNat 5 = .error .range := hout.getBits (by decide)
    refine (exec_strdec_of_legal hlegal).trans (complete_deliver_error ?_)
    rw [strDecode, hhead]
  · intro u vals hu hout
    obtain ⟨hholds, hp, hout⟩ := hout.fits
    simp only [fieldsWidth_cons, fieldsWidth_byteFields, ← Nat.add_assoc] at hp hout
    exact (exec_strdec_of_legal hlegal).trans
      (complete_deliver_error (strDecode_of_runsOut hu hholds hp hout))
  · exact fun vals toks part w hv => exec_strdec_runsOut hv hlegal
  · intro hout
    have hhead : getBits s.str s.cur.toNat 7 = .error .range := hout.getBits (by decide)
    refine (exec_xstrdec_of_legal hlegal).trans (complete_deliver_error ?_)
    rw [xstrDecode, hhead]
  · intro u hout
    obtain ⟨hholds, hp, -⟩ := hout.fits
    have hhead : getBits s.str s.cur.toNat 7 = .ok (u - 1, s.cur.toNat + 7) := getBits_of_holds hholds hp
    have decide_toNat_eq_one : getBits s.str (s.cur.toNat + 7) 1 = .error .range := hout.getBits le_rfl
    refine (exec_xstrdec_of_legal hlegal).trans (complete_deliver_error ?_)
    simp only [xstrDecode, hhead, decide_toNat_eq_one]
  · intro u p7 vals hu hout
    obtain ⟨hholds, hp, hout⟩ := hout.fits
    simp only [fieldsWidth_cons, fieldsWidth_byteFields, ← Nat.add_assoc, ← headerWidth_eq] at hp hout
    exact (exec_xstrdec_of_legal hlegal).trans
      (complete_deliver_error (xstrDecode_of_runsOut hu hholds hp hout))
  · exact fun p7 vals toks part w hv => exec_xstrdec_runsOut hv hlegal

/-! ### The tokens of the policy stand for the block (R705) -/

/-- Bytes copied from before position i bring no new value. -/
theorem take_add_subset {x : List Byte} {i pos len : Nat} (hpos : pos < i) (hend : i + len ≤ x.length)
    (h : ∀ k < len, byteAt x (pos + k) = byteAt x (i + k)) : x.take (i + len) ⊆ x.take i := by
  induction len with
  | zero => exact List.Subset.refl _
  | succ len ih =>
    have ih := ih (by omega) fun k hk => h k (by omega)
    rw [← Nat.add_assoc, take_succ_eq_snoc (by omega), ← h len (by omega)]
    exact List.append_subset.2 ⟨ih, List.cons_subset.2 ⟨ih (byteAt_mem_take (by omega) (by omega)),
      List.nil_subset _⟩⟩

theorem distinct_take_add {x : List Byte} {i pos len : Nat} (hpos : pos < i) (hend : i + len ≤ x.length)
    (h : ∀ k < len, byteAt x (pos + k) = byteAt x (i + k)) :
    distinct (x.take (i + len)) = distinct (x.take i) :=
  Nat.le_antisymm (distinct_le_of_subset (take_add_subset hpos hend h)) (distinct_take_mono x (by omega))

/-- R713's copy continues a block that repeats itself. -/
theorem copyBytes_take {x : List Byte} {i pos len : Nat} (hpos : pos < i) (hend : i + len ≤ x.length)
    (h : ∀ k < len, byteAt x (pos + k) = byteAt x (i + k)) :
    copyBytes (x.take i) pos len = x.take (i + len) := by
  induction len generalizing i pos with
  | zero => rfl
  | succ len ih =>
    have hnext : x.take i ++ [byteAt (x.take i) pos] = x.take (i + 1) := by
      have hfirst : byteAt x pos = byteAt x i := h 0 (by omega)
      rw [byteAt_take hpos, take_succ_eq_snoc (by omega), hfirst]
    rw [copyBytes_succ, hnext, ih (by omega) (by omega) fun k hk => ?_, Nat.add_assoc, Nat.add_comm 1]
    have := h (k + 1) (by omega)
    rwa [← Nat.add_assoc, ← Nat.add_assoc, Nat.add_right_comm, Nat.add_right_comm i] at this

/-- The count of uniques introduced is that of the values met. -/
theorem PolicyToken.uniquesAfter_eq {lmax i : Nat} {rank : Byte → Nat} {x : List Byte} {tok : Token}
    (h : PolicyToken rank lmax x i tok) :
    tok.uniquesAfter (distinct (x.take i)) = distinct (x.take (i + tok.covers)) := by
  cases tok with
  | newUnique =>
    obtain ⟨hi, hnew⟩ := h
    exact (distinct_take_succ hi |>.trans (by rw [if_neg hnew]; rfl)).symm
  | repeatRank idx =>
    obtain ⟨hi, hmem, -⟩ := h
    exact (distinct_take_succ hi |>.trans (by rw [if_pos hmem]; rfl)).symm
  | string len pos =>
    obtain ⟨-, ⟨hpos, -⟩, -, -, -, hend, hcopy, -⟩ := h
    exact (distinct_take_add (by omega) hend hcopy).symm

/-- The token of the policy passes its check. -/
theorem PolicyToken.passes {lmax lw i : Nat} {x : List Byte} {tok : Token} (hmax : lmax < 2 + 2 ^ lw)
    (h : PolicyToken (firstRank x) lmax x i tok) :
    TokenPasses (distinct x) x.length lw (distinct (x.take i)) i tok := by
  cases tok with
  | newUnique =>
    obtain ⟨hi, hnew⟩ := h
    have hstep := distinct_take_succ hi
    rw [if_neg hnew] at hstep
    have hle := distinct_le_of_subset (List.take_subset (i + 1) x)
    exact ⟨hi, by omega⟩
  | repeatRank idx =>
    obtain ⟨hi, hmem, -, rfl⟩ := h
    exact ⟨hi, firstRank_lt hmem⟩
  | string len pos =>
    obtain ⟨-, ⟨hpos, -⟩, -, h2, hle, hend, -⟩ := h
    exact ⟨by omega, h2, by omega, hend⟩

theorem FollowsPolicy.validTokens {lmax lw i : Nat} {x : List Byte} {toks : List Token}
    (hmax : lmax < 2 + 2 ^ lw) (h : FollowsPolicy (firstRank x) lmax x i toks) :
    ValidTokens (distinct x) x.length lw (distinct (x.take i)) i toks := by
  induction toks generalizing i with
  | nil =>
    rw [followsPolicy_nil] at h
    exact ⟨h, by rw [h, List.take_length]⟩
  | cons tok toks ih =>
    obtain ⟨htok, hrest⟩ := followsPolicy_cons.1 h
    exact validTokens_cons.2 ⟨htok.passes hmax, by rw [htok.uniquesAfter_eq]; exact ih hrest⟩

/-- Applying the policy's token to the block up to i gives the block up to the token's end, when the header
lists the values by first rank. -/
theorem PolicyToken.apply_take {lmax i : Nat} {x vals : List Byte} {tok : Token}
    (hvals : ∀ v ∈ x, vals.getD (firstRank x v) 0#8 = v) (h : PolicyToken (firstRank x) lmax x i tok) :
    tok.apply vals (x.take i) (distinct (x.take i)) = x.take (i + tok.covers) := by
  cases tok with
  | newUnique =>
    obtain ⟨hi, hnew⟩ := h
    rw [Token.apply, ← firstRank_of_new hi hnew, hvals _ (byteAt_mem hi), Token.covers, take_succ_eq_snoc hi]
  | repeatRank idx =>
    obtain ⟨hi, -, -, rfl⟩ := h
    rw [Token.apply, hvals _ (byteAt_mem hi), Token.covers, take_succ_eq_snoc hi]
  | string len pos =>
    obtain ⟨-, ⟨hpos, -⟩, -, -, -, hend, hcopy, -⟩ := h
    exact copyBytes_take (by omega) hend hcopy

theorem FollowsPolicy.produced_eq {lmax i : Nat} {x vals : List Byte} {toks : List Token}
    (hvals : ∀ v ∈ x, vals.getD (firstRank x v) 0#8 = v) (h : FollowsPolicy (firstRank x) lmax x i toks) :
    produced vals (distinct (x.take i)) (x.take i) toks = x := by
  induction toks generalizing i with
  | nil =>
    rw [followsPolicy_nil] at h
    rw [produced, h, List.take_length]
  | cons tok toks ih =>
    obtain ⟨htok, hrest⟩ := followsPolicy_cons.1 h
    rw [produced, htok.apply_take hvals, htok.uniquesAfter_eq, ih hrest]

/-! ### The fields of valid tokens fit (R700) -/

theorem TokenPasses.fieldsFit {uniq n lw u i : Nat} {tok : Token} (h : TokenPasses uniq n lw u i tok) :
    FieldsFit (tok.fields lw u i) := by
  cases tok with
  | newUnique => exact List.forall_mem_singleton.2 (by decide)
  | repeatRank idx =>
    have hidx : idx < 2 ^ idxw u := h.2.trans_le (le_two_pow_idxw u)
    simpa [FieldsFit, Token.fields] using hidx
  | string len pos =>
    obtain ⟨hpos, h2, hlen, -⟩ := h
    have hp : pos < 2 ^ posw i := hpos.trans_le (le_two_pow_idxw i)
    have hl : len - 2 < 2 ^ lw := by omega
    simpa [FieldsFit, Token.fields] using ⟨hl, hp⟩

theorem fieldsFit_tokensFields {uniq n lw u i : Nat} {toks : List Token}
    (h : ValidTokens uniq n lw u i toks) : FieldsFit (tokensFields lw u i toks) := by
  induction toks generalizing u i with
  | nil => exact List.forall_mem_nil _
  | cons tok toks ih =>
    obtain ⟨htok, hrest⟩ := validTokens_cons.1 h
    exact List.forall_mem_append.2 ⟨htok.fieldsFit, ih hrest⟩

end Sys2Proof.Machine
end

section
/-! SUPPORT. The string encoders (46_string.md R710, R715, 47_xstring.md R752, R755, R759): what STRENC and
XSTRENC write, and that their decoders read it back. -/

namespace Sys2Proof.Machine

/-! ### From a policy's tokens back to the block -/

/-- The decoder's loop on the tokens of a block, the header listing its values by first rank. -/
theorem strTokens_of_policy {m : Memory} {x vals : List Byte} {lmax lw p : Nat} {toks : List Token}
    (hmax : lmax < 2 + 2 ^ lw) (hlen : vals.length = distinct x)
    (hvals : ∀ v ∈ x, vals.getD (firstRank x v) 0#8 = v) (htoks : FollowsPolicy (firstRank x) lmax x 0 toks)
    (hholds : StreamHolds m p (tokensFields lw 0 0 toks)) (hp : p + tokensBits lw 0 0 toks ≤ 8192) :
    strTokens m vals lw x.length x.length 0 [] p = .ok (x, p + tokensBits lw 0 0 toks) := by
  have hvalid : ValidTokens vals.length x.length lw 0 0 toks := by
    rw [hlen]
    exact htoks.validTokens hmax
  have hback : produced vals 0 [] toks = x := htoks.produced_eq hvals
  have := strTokens_of_valid (fuel := x.length) (out := []) toks hvalid hholds hp (by simp)
  rwa [hback] at this

/-- The tokens of an encoder follow the policy by first ranks. -/
theorem RanksBlock.followsPolicy_tokenize {t : SymTab} {x : List Byte} (h : RanksBlock t x) (c : Nat)
    {lmax : Nat} (hmax : 2 ≤ lmax) :
    FollowsPolicy (firstRank (x.take c)) lmax (x.take c) 0
      (tokenize (fun v => (t.rankAt v).toNat) lmax (x.take c)) :=
  (Machine.followsPolicy_tokenize _ _ hmax).congr_rank fun v hv => by
    rw [firstRank_take hv, h.rankAt_eq_firstRank (List.mem_of_mem_take hv)]

theorem RanksBlock.getD_uniques_take {t : SymTab} {x : List Byte} (h : RanksBlock t x) (c : Nat) :
    ∀ v ∈ x.take c, (t.uniques (distinct (x.take c))).getD (firstRank (x.take c) v) 0#8 = v := fun v hv => by
  rw [firstRank_take hv]
  exact h.getD_uniques_firstRank (List.mem_of_mem_take hv) (firstRank_lt hv)

/-! ### The bounded coder -/

theorem RanksBlock.followsPolicy_strTokensOf {t : SymTab} {x : List Byte} (h : RanksBlock t x) :
    FollowsPolicy (firstRank x) 9 x 0 (strTokensOf t x) := by
  have := h.followsPolicy_tokenize x.length (lmax := 9) (by decide)
  rwa [List.take_length] at this

theorem fieldsFit_byteFields_eight (vals : List Byte) : FieldsFit (byteFields 8 vals) :=
  List.forall_mem_map.2 fun v _ => v.isLt

theorem fieldsFit_strStream {uniq n : Nat} {vals : List Byte} {toks : List Token} (hv : vals.length ≤ 32)
    (h : ValidTokens uniq n 3 0 0 toks) : FieldsFit (strStream vals toks) :=
  List.forall_mem_cons.2 ⟨show vals.length - 1 < 2 ^ 5 by omega,
    List.forall_mem_append.2 ⟨fieldsFit_byteFields_eight vals, fieldsFit_tokensFields h⟩⟩

/-- STRENC succeeds only on a legal block of at most 32 uniques, and then by its shared end. -/
theorem strenc_of_succeededNow {s t : State} (h : exec .strenc s = .next t) (ht : t.succeededNow) :
    s.legalBlock 64 ∧ (symRebuild s.block).u.toNat ≤ 32 ∧
      complete s (emit s (strCoded s (symRebuild s.block))) = .next t := by
  change complete s (strencBody s) = .next t at h
  obtain ⟨hlegal, h⟩ := legalBlock_of_succeededNow (maxn := 64) h ht
  obtain ⟨hu, h⟩ := not_declined_of_succeededNow h ht
  exact ⟨hlegal, Nat.not_lt.1 hu, h⟩

theorem block_ne_nil {s : State} {maxn : Nat} (h : s.legalBlock maxn) : s.block ≠ [] :=
  List.ne_nil_of_length_pos (by rw [State.length_block]; exact h.1)

theorem encodes_strenc {s t : State} (h : exec .strenc s = .next t) (ht : t.succeededNow) :
    Encodes strDecode s.n.toNat s t (strCoded s (symRebuild s.block)) := by
  obtain ⟨hlegal, hu, hwritten⟩ := strenc_of_succeededNow h ht
  have hranks : RanksBlock (symRebuild s.block) s.block :=
    ranksBlock_block s (hlegal.2.1.trans (by decide))
  have hwidth := strCoded_width s (symRebuild s.block)
  generalize symRebuild s.block = tab at *
  have htoks := hranks.followsPolicy_strTokensOf
  have hlen : (tab.uniques tab.u.toNat).length = distinct s.block := by
    rw [SymTab.length_uniques, hranks.u]
  have hvals : ∀ v ∈ s.block, (tab.uniques tab.u.toNat).getD (firstRank s.block v) 0#8 = v := by
    have := hranks.getD_uniques_take s.block.length
    rwa [List.take_length, ← hranks.u] at this
  have hpos := distinct_pos (block_ne_nil hlegal)
  refine ⟨hwidth, fieldsFit_strStream (by simpa using hu) (htoks.validTokens (lw := 3) (by decide)), hwritten,
    le_rfl, fun hroom m hholds => ?_⟩
  rw [← s.length_block, List.take_length]
  simp only [strCoded, boundedLW] at hroom hholds ⊢
  obtain ⟨hrest, hdec⟩ := strDecode_of_header (n := s.block.length) (by omega) hholds
    (by rw [SymTab.length_uniques]; omega)
  rw [SymTab.length_uniques] at hrest hdec
  rw [hdec, strTokens_of_policy (lw := 3) (by decide) hlen hvals htoks hrest (by omega)]
  simp only [Nat.add_assoc]

/-- Settles O47: the header lists the uniques by rank, and token by token the loop rebuilds the block. -/
theorem boundedStringRoundTrip : Obligations.BoundedStringRoundTrip :=
  roundTrips_of_encodes (fun _ => exec_strdec_of_legal) fun _ _ h ht => ⟨_, encodes_strenc h ht⟩

/-! ### The consumed length of the extended coder (R752) -/

/-- C is the position where the 129th unique would come. -/
theorem RanksBlock.consumedLength_eq {t : SymTab} {x : List Byte} (h : RanksBlock t x) {c : Nat}
    (hd : 128 < distinct x) (hc : c < x.length) (hbefore : distinct (x.take c) = 128)
    (hnew : byteAt x c ∉ x.take c) : consumedLength t x = c := by
  have huniq := h.uniqAt_of_new hc hnew
  rw [hbefore] at huniq
  rw [consumedLength, h.u, if_neg (show ¬distinct x ≤ extendedCap from Nat.not_le.2 hd),
    show 128#8 = BitVec.ofNat 8 128 from rfl, huniq,
    idxOf_of_new hc hnew]

/-- R752's two cases. -/
theorem RanksBlock.consumedLength_cases {t : SymTab} {x : List Byte} (h : RanksBlock t x) :
    (distinct x ≤ 128 ∧ consumedLength t x = x.length) ∨
    (128 < distinct x ∧ consumedLength t x < x.length ∧ distinct (x.take (consumedLength t x)) = 128) := by
  by_cases hd : distinct x ≤ 128
  · exact .inl ⟨hd, if_pos (by rwa [h.u])⟩
  · obtain ⟨p, hp, hnew, hbefore⟩ := exists_new_of_lt_distinct (Nat.not_le.1 hd)
    rw [h.consumedLength_eq (Nat.not_le.1 hd) hp hbefore hnew]
    exact .inr ⟨Nat.not_le.1 hd, hp, hbefore⟩

theorem RanksBlock.consumedLength_le {t : SymTab} {x : List Byte} (h : RanksBlock t x) :
    consumedLength t x ≤ x.length := by
  rcases h.consumedLength_cases with ⟨-, hc⟩ | ⟨-, hc, -⟩
  · exact hc.le
  · exact hc.le

/-- R751: the header lists the values of the covered bytes. -/
theorem RanksBlock.headerUniques_eq {t : SymTab} {x : List Byte} (h : RanksBlock t x) :
    headerUniques t = distinct (x.take (consumedLength t x)) := by
  rw [headerUniques, h.u]
  rcases h.consumedLength_cases with ⟨hd, hc⟩ | ⟨hd, -, hc⟩
  · rw [hc, List.take_length]
    exact min_eq_left hd
  · rw [hc]
    exact min_eq_right hd.le

theorem RanksBlock.headerUniques_pos {t : SymTab} {x : List Byte} (h : RanksBlock t x) (hx : x ≠ []) :
    1 ≤ headerUniques t ∧ headerUniques t ≤ 128 := by
  have := distinct_pos hx
  rw [headerUniques, h.u]
  exact ⟨le_min this (by decide), min_le_right _ _⟩

/-! ### The extended coder -/

theorem RanksBlock.followsPolicy_xstrTokensOf {t : SymTab} {x : List Byte} (h : RanksBlock t x) :
    FollowsPolicy (firstRank (x.take (consumedLength t x))) 17 (x.take (consumedLength t x)) 0
      (xstrTokensOf t x) :=
  h.followsPolicy_tokenize _ (by decide)

theorem allBelow80_iff {vals : List Byte} : allBelow80 vals = true ↔ ∀ v ∈ vals, v.toNat < 128 := by
  simp [allBelow80]

theorem fieldsFit_byteFields_headerWidth (vals : List Byte) :
    FieldsFit (byteFields (headerWidth (allBelow80 vals)) vals) :=
  List.forall_mem_map.2 fun v hv =>
    toNat_lt_two_pow_literalWidth (l7 := allBelow80 vals) fun h => allBelow80_iff.1 h v hv

theorem fieldsFit_xstrStream {uniq n : Nat} {vals : List Byte} {toks : List Token} (hv : vals.length ≤ 128)
    (h : ValidTokens uniq n 4 0 0 toks) : FieldsFit (xstrStream vals toks) :=
  List.forall_mem_cons.2 ⟨show vals.length - 1 < 2 ^ 7 by omega,
    List.forall_mem_cons.2 ⟨(allBelow80 vals).toNat_lt,
      List.forall_mem_append.2 ⟨fieldsFit_byteFields_headerWidth vals, fieldsFit_tokensFields h⟩⟩⟩

theorem encodes_xstrenc {s t : State} (h : exec .xstrenc s = .next t) (ht : t.succeededNow) :
    Encodes xstrDecode t.consumed.toNat s t (xstrCoded s (symRebuild s.block)) := by
  change complete s (xstrencBody s) = .next t at h
  obtain ⟨hlegal, hwritten⟩ := legalBlock_of_succeededNow (maxn := 512) h ht
  have hranks : RanksBlock (symRebuild s.block) s.block := ranksBlock_block s hlegal.2.1
  have hwidth := xstrCoded_width s (symRebuild s.block)
  obtain ⟨-, rfl⟩ := emit_of_succeededNow hwidth hwritten ht
  generalize symRebuild s.block = tab at *
  have htoks := hranks.followsPolicy_xstrTokensOf
  have hvals := hranks.getD_uniques_take (consumedLength tab s.block)
  have hpos := hranks.headerUniques_pos (block_ne_nil hlegal)
  have hle := hranks.consumedLength_le
  have hbits : (BitVec.ofNat 10 (consumedLength tab s.block)).toNat = consumedLength tab s.block := by
    have := hlegal.2.1
    rw [State.length_block] at hle
    exact Nat.mod_eq_of_lt (by omega)
  have hlength : (s.block.take (consumedLength tab s.block)).length = consumedLength tab s.block := by
    rw [List.length_take]
    omega
  rw [← hranks.headerUniques_eq] at hvals
  simp only [State.succeeded_consumed, State.commitCoded_consumed, xstrCoded, hbits]
  refine ⟨hwidth, fieldsFit_xstrStream (by simpa using hpos.2) (htoks.validTokens (lw := 4) (by decide)),
    hwritten, by rwa [State.length_block] at hle, fun hroom m hholds => ?_⟩
  dsimp only [extendedLW] at hroom ⊢
  obtain ⟨hrest, hdec⟩ := xstrDecode_of_header (n := consumedLength tab s.block) (by simpa using hpos.1)
    hholds (by rw [SymTab.length_uniques]; omega)
  rw [SymTab.length_uniques] at hrest hdec
  have hloop := strTokens_of_policy (lw := 4) (by decide)
    ((SymTab.length_uniques _ _).trans hranks.headerUniques_eq) hvals htoks hrest (by omega)
  rw [hlength] at hloop
  rw [hdec, hloop]
  simp only [Nat.add_assoc]

/-- Settles O48: XSTRDEC rebuilds the C bytes that the header's values and the tokens cover. -/
theorem extendedStringRoundTrip : Obligations.ExtendedStringRoundTrip :=
  roundTrips_of_encodes (fun _ => exec_xstrdec_of_legal) fun _ _ h ht => ⟨_, encodes_xstrenc h ht⟩

end Sys2Proof.Machine
end

section
/-! SUPPORT. What a command can do (60_exceptions.md R800): the six encoders and the six decoders behind one
shape each, and one inversion lemma for all commands, from which the statements about outcomes, registers and
memories follow case by case. -/

namespace Sys2Proof.Machine

/-! ### The six encoders (R201, R806) -/

/-- An encoder's command with its MAXN (R803), the table on which it declines by content (R806), and what it
computes before it writes. -/
inductive EncoderRule : Instr → Nat → (SymTab → Prop) → (State → SymTab → Coded) → Prop
  | fwenc : EncoderRule .fwenc 64 (fun t => 16 < t.u.toNat) fwCoded
  | svenc : EncoderRule .svenc 64 (fun _ => False) svCoded
  | p7enc : EncoderRule .p7enc 64 (fun t => t.oracc.getLsbD 7 = true) p7Coded
  | txtenc (ad : Bool) : EncoderRule (.txtenc ad) 512 (fun _ => False) (textCoded ad)
  | strenc : EncoderRule .strenc 64 (fun t => 32 < t.u.toNat) strCoded
  | xstrenc : EncoderRule .xstrenc 512 (fun _ => False) xstrCoded

theorem encoderRule_of_isEncoder {i : Instr} (h : i.isEncoder) :
    ∃ maxn declines coded, EncoderRule i maxn declines coded := by
  cases i with
  | fwenc => exact ⟨_, _, _, .fwenc⟩
  | svenc => exact ⟨_, _, _, .svenc⟩
  | p7enc => exact ⟨_, _, _, .p7enc⟩
  | txtenc ad => exact ⟨_, _, _, .txtenc ad⟩
  | strenc => exact ⟨_, _, _, .strenc⟩
  | xstrenc => exact ⟨_, _, _, .xstrenc⟩
  | _ => exact h.elim

section
variable {i : Instr} {maxn : Nat} {declines : SymTab → Prop} {coded : State → SymTab → Coded}

theorem EncoderRule.isEncoder (h : EncoderRule i maxn declines coded) : i.isEncoder := by
  cases h <;> trivial

theorem EncoderRule.maxBlock (h : EncoderRule i maxn declines coded) :
    i.maxBlock = some maxn ∧ maxn ≤ 512 := by
  cases h <;> exact ⟨rfl, by decide⟩

/-- R802 comes first. -/
theorem EncoderRule.exec_of_illegal (h : EncoderRule i maxn declines coded) {s : State}
    (hs : ¬s.legalBlock maxn) : exec i s = .next (s.onlyStatus (some .len) false) :=
  (illegalBlockRaisesLen i s).1 maxn h.maxBlock.1 hs

/-- The decline on content comes next (R806, R810). -/
theorem EncoderRule.exec_of_declines (h : EncoderRule i maxn declines coded) {s : State}
    (hs : s.legalBlock maxn) (hd : declines (symRebuild s.block)) :
    exec i s = .next (s.onlyStatus none true) := by
  cases h with
  | fwenc | p7enc | strenc =>
    exact congrArg (complete s) ((if_pos ((s.blockOk_iff 64).2 hs)).trans (if_pos hd))
  | svenc | txtenc | xstrenc => exact hd.elim

/-- Then the end that all encoders share. -/
theorem EncoderRule.exec_of_takes (h : EncoderRule i maxn declines coded) {s : State}
    (hs : s.legalBlock maxn) (hd : ¬declines (symRebuild s.block)) :
    exec i s = complete s (emit s (coded s (symRebuild s.block))) := by
  cases h with
  | fwenc | p7enc | strenc =>
    exact congrArg (complete s) ((if_pos ((s.blockOk_iff 64).2 hs)).trans (if_neg hd))
  | svenc => exact congrArg (complete s) (if_pos ((s.blockOk_iff 64).2 hs))
  | txtenc | xstrenc => exact congrArg (complete s) (if_pos ((s.blockOk_iff 512).2 hs))

/-- The total is the width of the fields. -/
theorem EncoderRule.width (h : EncoderRule i maxn declines coded) {s : State} (hs : s.legalBlock maxn) :
    fieldsWidth (coded s (symRebuild s.block)).fields = (coded s (symRebuild s.block)).total := by
  cases h with
  | fwenc => exact fwCoded_width s _
  | svenc => exact svCoded_width s _ (ranksBlock_block s (hs.2.1.trans (by decide)))
  | p7enc => exact p7Coded_width s _
  | txtenc ad => exact textCoded_width ad s _
  | strenc => exact strCoded_width s _
  | xstrenc => exact xstrCoded_width s _

/-- What an encoder computes depends on nothing but its block, N and the result registers it passes on. -/
theorem EncoderRule.coded_congr (h : EncoderRule i maxn declines coded) {s s' : State} (t : SymTab)
    (hblock : s'.block = s.block) (hn : s'.n = s.n) (hsv : s'.svval = s.svval)
    (htx : s'.txtsel = s.txtsel) : coded s' t = coded s t := by
  cases h <;> simp only [fwCoded, svCoded, p7Coded, textCoded, strCoded, xstrCoded, hblock, hn, hsv, htx]

theorem EncoderRule.sym_coded (h : EncoderRule i maxn declines coded) (s : State) (t : SymTab) :
    (coded s t).sym = t := by
  cases h <;> rfl

/-- CONSUMED is at most N, and the bit width of N holds it. -/
theorem EncoderRule.consumed_le (h : EncoderRule i maxn declines coded) {s : State}
    (hs : s.legalBlock maxn) : (coded s (symRebuild s.block)).consumed ≤ 512 := by
  have hn := hs.2.1.trans h.maxBlock.2
  cases h with
  | fwenc | svenc | p7enc | txtenc | strenc => exact hn
  | xstrenc =>
    have hc := (ranksBlock_block s hn).consumedLength_le
    rw [State.length_block] at hc
    exact hc.trans hn

/-- CAP is XSTRENC's alone. -/
theorem EncoderRule.capped (h : EncoderRule i maxn declines coded) {s : State} {t : SymTab}
    (hc : (coded s t).capped = true) : i = .xstrenc := by
  cases h with
  | fwenc | svenc | p7enc | txtenc | strenc => cases hc
  | xstrenc => rfl

theorem EncoderRule.svval_coded (h : EncoderRule i maxn declines coded) (s : State) (t : SymTab) :
    (coded s t).svval = s.svval ∨ i = .svenc := by
  cases h with
  | svenc => exact .inr rfl
  | fwenc | p7enc | txtenc | strenc | xstrenc => exact .inl rfl

/-- TXTSEL is kept, or the selector of R660, which is never 3. -/
theorem EncoderRule.txtsel_coded (h : EncoderRule i maxn declines coded) (s : State) (t : SymTab) :
    (coded s t).txtsel = s.txtsel ∨ ∃ ad, i = .txtenc ad ∧ (coded s t).txtsel ≠ 3#2 := by
  cases h with
  | txtenc ad =>
    obtain ⟨hlt, -⟩ := lt_three_and_length_of_textTable (textTable_textSelect ad s.block)
    refine .inr ⟨ad, rfl, fun h3 => ?_⟩
    have := congrArg BitVec.toNat h3
    simp only [textCoded, BitVec.toNat_ofNat] at this
    omega
  | fwenc | svenc | p7enc | strenc | xstrenc => exact .inl rfl

end

/-! ### The six decoders (R201, R805) -/

/-- A decoder's command with its MAXN (R803) and how it decodes. -/
inductive DecoderRule :
    Instr → Nat → (Memory → Nat → Nat → Except CmdError (List Byte × Nat)) → Prop
  | fwdec : DecoderRule .fwdec 64 fwDecode
  | svdec : DecoderRule .svdec 64 svDecode
  | p7dec : DecoderRule .p7dec 64 p7Decode
  | txtdec : DecoderRule .txtdec 512 textDecode
  | strdec : DecoderRule .strdec 64 strDecode
  | xstrdec : DecoderRule .xstrdec 512 xstrDecode

theorem decoderRule_of_isDecoder {i : Instr} (h : i.isDecoder) : ∃ maxn dec, DecoderRule i maxn dec := by
  cases i with
  | fwdec => exact ⟨_, _, .fwdec⟩
  | svdec => exact ⟨_, _, .svdec⟩
  | p7dec => exact ⟨_, _, .p7dec⟩
  | txtdec => exact ⟨_, _, .txtdec⟩
  | strdec => exact ⟨_, _, .strdec⟩
  | xstrdec => exact ⟨_, _, .xstrdec⟩
  | _ => exact h.elim

/-! ### What a decoder's loops answer -/

/-- A decoder that began at p has read forward, and not past bit 8192 unless it began there. -/
def ReadsForward (p p' : Nat) : Prop := p ≤ p' ∧ (p ≤ 8192 → p' ≤ 8192)

theorem ReadsForward.refl (p : Nat) : ReadsForward p p := ⟨le_rfl, id⟩

theorem ReadsForward.trans {p p' p'' : Nat} (h : ReadsForward p p') (h' : ReadsForward p' p'') :
    ReadsForward p p'' := ⟨h.1.trans h'.1, fun hp => h'.2 (h.2 hp)⟩

theorem readsForward_of_getBits {m : Memory} {p n v p' : Nat} (h : getBits m p n = .ok (v, p')) :
    ReadsForward p p' := by
  rcases getBits_cases m p n with ⟨-, -, he⟩ | ⟨hroom, he⟩ <;> rw [he] at h <;> cases h
  exact ⟨by omega, fun hp => by omega⟩

/-- A first field of at least one bit ends inside STR. -/
theorem le_of_getBits {m : Memory} {p n v p' : Nat} (hn : 1 ≤ n) (h : getBits m p n = .ok (v, p')) :
    p ≤ p' ∧ p' ≤ 8192 := by
  rcases getBits_cases m p n with ⟨-, -, he⟩ | ⟨hroom, he⟩ <;> rw [he] at h <;> cases h
  omega

theorem getMany_spec {m : Memory} {w n p p' : Nat} {vs : List Nat} (h : getMany m w n p = .ok (vs, p')) :
    vs.length = n ∧ ReadsForward p p' := by
  fun_induction getMany m w n p generalizing vs p' with
  | case1 => cases h; exact ⟨rfl, .refl _⟩
  | case2 | case3 => cases h
  | case4 p n v p1 hget vs' p2 hrest ih =>
    cases h
    obtain ⟨hlen, hfwd⟩ := ih hrest
    exact ⟨by rw [List.length_cons, hlen], (readsForward_of_getBits hget).trans hfwd⟩

/-- One value or more of at least one bit each end inside STR. -/
theorem le_of_getMany {m : Memory} {w n p p' : Nat} {vs : List Nat} (hw : 1 ≤ w) (hn : 1 ≤ n)
    (h : getMany m w n p = .ok (vs, p')) : p ≤ p' ∧ p' ≤ 8192 := by
  revert h
  fun_cases getMany m w n p with
  | case1 => omega
  | case2 | case3 => nofun
  | case4 p n v p1 hget vs' p2 hrest =>
    rintro ⟨⟩
    have h1 := le_of_getBits hw hget
    have h2 := (getMany_spec hrest).2
    exact ⟨h1.1.trans h2.1, h2.2 h1.2⟩

theorem fwSymbols_spec {m : Memory} {vals out : List Byte} {w n p p' : Nat}
    (h : fwSymbols m vals w n p = .ok (out, p')) : out.length = n ∧ ReadsForward p p' := by
  fun_induction fwSymbols m vals w n p generalizing out p' with
  | case1 => cases h; exact ⟨rfl, .refl _⟩
  | case2 | case3 | case4 => cases h
  | case5 p n rk p1 hget hlt out' p2 hrest ih =>
    cases h
    obtain ⟨hlen, hfwd⟩ := ih hrest
    exact ⟨by rw [List.length_cons, hlen], (readsForward_of_getBits hget).trans hfwd⟩

theorem svFlags_spec {m : Memory} {v : Byte} {out : List Byte} {n p p' : Nat}
    (h : svFlags m v n p = .ok (out, p')) : out.length = n ∧ ReadsForward p p' := by
  fun_induction svFlags m v n p generalizing out p' with
  | case1 => cases h; exact ⟨rfl, .refl _⟩
  | case2 | case3 | case4 => cases h
  | case5 p n f p1 hget x p2 hlit out' p3 hrest ih =>
    cases h
    obtain ⟨hlen, hfwd⟩ := ih hrest
    have hlit' : ReadsForward p1 p2 := by
      split_ifs at hlit
      · cases hlit; exact .refl _
      · exact readsForward_of_getBits hlit
    exact ⟨by rw [List.length_cons, hlen], (readsForward_of_getBits hget).trans (hlit'.trans hfwd)⟩

theorem readsForward_of_textSymbol {m : Memory} {table : List Byte} {l7 : Bool} {v : Byte} {p p' : Nat}
    (h : textSymbol m table l7 p = .ok (v, p')) : ReadsForward p p' := by
  revert h
  fun_cases textSymbol m table l7 p with
  | case1 | case2 | case4 | case5 => nofun
  | case3 | case6 =>
    rintro ⟨⟩
    exact (readsForward_of_getBits ‹getBits m p 3 = _›).trans (readsForward_of_getBits ‹_›)

theorem textSymbols_spec {m : Memory} {table out : List Byte} {l7 : Bool} {n p p' : Nat}
    (h : textSymbols m table l7 n p = .ok (out, p')) : out.length = n ∧ ReadsForward p p' := by
  fun_induction textSymbols m table l7 n p generalizing out p' with
  | case1 => cases h; exact ⟨rfl, .refl _⟩
  | case2 | case3 => cases h
  | case4 p n v p1 hsym out' p2 hrest ih =>
    cases h
    obtain ⟨hlen, hfwd⟩ := ih hrest
    exact ⟨by rw [List.length_cons, hlen], (readsForward_of_textSymbol hsym).trans hfwd⟩

/-- A token that is read passes R708's checks of its length. -/
theorem readToken_spec {m : Memory} {lw uniq n u i p p' : Nat} {tok : Token} (hi : i < n)
    (h : readToken m lw uniq n u i p = .ok (tok, p')) :
    1 ≤ tok.covers ∧ i + tok.covers ≤ n ∧ ReadsForward p p' := by
  revert h
  fun_cases readToken m lw uniq n u i p with
  | case1 | case2 | case4 | case5 | case6 | case8 | case9 | case10 => nofun
  | case3 => rintro ⟨⟩; exact ⟨le_rfl, hi, readsForward_of_getBits ‹_›⟩
  | case7 b0 p1 h1 hb0 p2 idx p3 h3 hlt h2 =>
    rintro ⟨⟩
    exact ⟨le_rfl, hi, (readsForward_of_getBits h1).trans
      ((readsForward_of_getBits h2).trans (readsForward_of_getBits h3))⟩
  | case11 b0 p1 h1 hb0 b1 p2 h2 hb1 lm2 p3 h3 pos h4 hok =>
    rintro ⟨⟩
    refine ⟨?_, ?_, (readsForward_of_getBits h1).trans ((readsForward_of_getBits h2).trans
      ((readsForward_of_getBits h3).trans (readsForward_of_getBits ‹_›)))⟩ <;>
      simp only [Token.covers] <;> omega

theorem strTokens_spec {m : Memory} {vals out out' : List Byte} {lw n fuel u p p' : Nat}
    (hle : out.length ≤ n) (hfuel : n ≤ out.length + fuel)
    (h : strTokens m vals lw n fuel u out p = .ok (out', p')) : out'.length = n ∧ ReadsForward p p' := by
  fun_induction strTokens m vals lw n fuel u out p with
  | case1 | case3 | case5 => cases h
  | case2 => cases h; exact ⟨by omega, .refl _⟩
  | case6 => cases h; exact ⟨by omega, .refl _⟩
  | case4 u out p fuel hlt tok p1 htok ih =>
    obtain ⟨hcov, hend, hfwd⟩ := readToken_spec hlt htok
    obtain ⟨hlen, hfwd'⟩ := ih (by rw [length_apply]; exact hend) (by rw [length_apply]; omega) h
    exact ⟨hlen, hfwd.trans hfwd'⟩

section
variable {i : Instr} {maxn : Nat} {dec : Memory → Nat → Nat → Except CmdError (List Byte × Nat)}

theorem DecoderRule.isDecoder (h : DecoderRule i maxn dec) : i.isDecoder := by
  cases h <;> trivial

theorem DecoderRule.maxBlock (h : DecoderRule i maxn dec) : i.maxBlock = some maxn ∧ maxn ≤ 512 := by
  cases h <;> exact ⟨rfl, by decide⟩

/-- A decoder is R802's check, then its decoding, delivered. -/
theorem DecoderRule.exec_eq (h : DecoderRule i maxn dec) (s : State) :
    exec i s = complete s
      (if s.blockOk maxn then deliver s (dec s.str s.n.toNat s.cur.toNat) else .raise .len) := by
  cases h <;> rfl

/-- E_DECODE is not among the errors of SVDEC and P7DEC (R805). -/
theorem DecoderRule.error_cases (h : DecoderRule i maxn dec) {m : Memory} {n p : Nat} {e : CmdError}
    (he : dec m n p = .error e) :
    e = .range ∨ e = .decode ∧ (i = .fwdec ∨ i = .txtdec ∨ i = .strdec ∨ i = .xstrdec) := by
  cases h with
  | fwdec => exact (range_or_decode_of_fwDecode he).imp_right fun h => ⟨h, by simp⟩
  | svdec => exact .inl (eq_range_of_svDecode he)
  | p7dec => exact .inl (eq_range_of_p7Decode he)
  | txtdec => exact (range_or_decode_of_textDecode he).imp_right fun h => ⟨h, by simp⟩
  | strdec => exact (range_or_decode_of_strDecode he).imp_right fun h => ⟨h, by simp⟩
  | xstrdec => exact (range_or_decode_of_xstrDecode he).imp_right fun h => ⟨h, by simp⟩

/-- What a decoder delivers: N bytes, from a stream that ends inside STR. -/
theorem DecoderRule.ok_spec (h : DecoderRule i maxn dec) {m : Memory} {n p p' : Nat} {out : List Byte}
    (hn : 1 ≤ n) (hok : dec m n p = .ok (out, p')) : out.length = n ∧ p ≤ p' ∧ p' ≤ 8192 := by
  cases h with
  | fwdec =>
    revert hok
    fun_cases fwDecode m n p with
    | case1 | case2 => nofun
    | case3 um1 p1 hhead vals p2 hvals =>
      intro hok
      have h1 := le_of_getBits (by decide) hhead
      obtain ⟨hlen, h2⟩ := fwSymbols_spec hok
      have h12 := (getMany_spec hvals).2.trans h2
      exact ⟨hlen, h1.1.trans h12.1, h12.2 h1.2⟩
  | svdec =>
    revert hok
    fun_cases svDecode m n p with
    | case1 => nofun
    | case2 v p1 hhead =>
      intro hok
      have h1 := le_of_getBits (by decide) hhead
      obtain ⟨hlen, h2⟩ := svFlags_spec hok
      exact ⟨hlen, h1.1.trans h2.1, h2.2 h1.2⟩
  | p7dec =>
    revert hok
    fun_cases p7Decode m n p with
    | case1 => nofun
    | case2 vs p1 hmany =>
      rintro ⟨⟩
      exact ⟨by rw [List.length_map, (getMany_spec hmany).1], le_of_getMany (by decide) hn hmany⟩
  | txtdec =>
    revert hok
    fun_cases textDecode m n p with
    | case1 | case2 | case3 => nofun
    | case4 sel p1 hhead table htable l7 p2 hl7 =>
      intro hok
      have h1 := le_of_getBits (by decide) hhead
      obtain ⟨hlen, h2⟩ := textSymbols_spec hok
      have h12 := (readsForward_of_getBits hl7).trans h2
      exact ⟨hlen, h1.1.trans h12.1, h12.2 h1.2⟩
  | strdec =>
    revert hok
    fun_cases strDecode m n p with
    | case1 | case2 => nofun
    | case3 um1 p1 hhead vals p2 hvals =>
      intro hok
      have h1 := le_of_getBits (by decide) hhead
      obtain ⟨hlen, h2⟩ := strTokens_spec (Nat.zero_le _) (by simp) hok
      have h12 := (getMany_spec hvals).2.trans h2
      exact ⟨hlen, h1.1.trans h12.1, h12.2 h1.2⟩
  | xstrdec =>
    revert hok
    fun_cases xstrDecode m n p with
    | case1 | case2 | case3 => nofun
    | case4 um1 p1 hhead p7 p2 hp7 vals p3 hvals =>
      intro hok
      have h1 := le_of_getBits (by decide) hhead
      obtain ⟨hlen, h2⟩ := strTokens_spec (Nat.zero_le _) (by simp) hok
      have h12 := (readsForward_of_getBits hp7).trans ((getMany_spec hvals).2.trans h2)
      exact ⟨hlen, h1.1.trans h12.1, h12.2 h1.2⟩

end

end Sys2Proof.Machine
end

section
/-! SUPPORT. The bit cursor commands (40_bit_cursor.md R400 to R408): what PUTBITS, GETBITS and PEEKBITS do
with an illegal width, past bit 8192, and else. -/

namespace Sys2Proof.Machine

/-! ### The three outcomes of a cursor command (R403, R801, R804) -/

theorem peekBits_ok {m : Memory} {cur n : Nat} (h : cur + n ≤ 8192) :
    peekBits m cur n = .ok (readField m cur n, cur) := by
  rw [peekBits, getBits_ok h]

theorem peekBits_range {m : Memory} {cur n : Nat} (hn : 1 ≤ n) (h : 8192 < cur + n) :
    peekBits m cur n = .error .range := by
  rw [peekBits, getBits_range hn h]

section
variable {s : State} {nb : BitVec 4}

theorem exec_putbits_of_illegal (h : legalWidth nb = false) (val : BitVec 9) :
    exec (.putbits val nb) s = .next (s.onlyStatus (some .badCmd) false) := by
  simp only [exec, execPutbits, fieldWidth_illegal h, complete_raise]

theorem exec_getbits_of_illegal (h : legalWidth nb = false) :
    exec (.getbits nb) s = .next (s.onlyStatus (some .badCmd) false) := by
  simp only [exec, execGetbits, fieldWidth_illegal h, complete_raise]

theorem exec_peekbits_of_illegal (h : legalWidth nb = false) :
    exec (.peekbits nb) s = .next (s.onlyStatus (some .badCmd) false) := by
  simp only [exec, execPeekbits, fieldWidth_illegal h, complete_raise]

theorem exec_putbits_of_past (h : legalWidth nb = true) (hout : 8192 < s.cur.toNat + nb.toNat)
    (val : BitVec 9) : exec (.putbits val nb) s = .next (s.onlyStatus (some .range) false) := by
  simp only [exec, execPutbits, fieldWidth_legal h, putBits_range ((legalWidth_iff nb).1 h).1 hout,
    complete_raise]

theorem exec_getbits_of_past (h : legalWidth nb = true) (hout : 8192 < s.cur.toNat + nb.toNat) :
    exec (.getbits nb) s = .next (s.onlyStatus (some .range) false) := by
  simp only [exec, execGetbits, fieldWidth_legal h, getBits_range ((legalWidth_iff nb).1 h).1 hout,
    complete_raise]

theorem exec_peekbits_of_past (h : legalWidth nb = true) (hout : 8192 < s.cur.toNat + nb.toNat) :
    exec (.peekbits nb) s = .next (s.onlyStatus (some .range) false) := by
  simp only [exec, execPeekbits, fieldWidth_legal h, peekBits_range ((legalWidth_iff nb).1 h).1 hout,
    complete_raise]

theorem exec_putbits_of_fits (h : legalWidth nb = true) (hroom : s.cur.toNat + nb.toNat ≤ 8192)
    (val : BitVec 9) : exec (.putbits val nb) s = .next
      (((s.setStr (putField s.str s.cur.toNat val.toNat nb.toNat)).setCur
        (s.cur.toNat + nb.toNat)).succeeded false) := by
  simp only [exec, execPutbits, fieldWidth_legal h, putBits_ok hroom, complete_commit]

theorem exec_getbits_of_fits (h : legalWidth nb = true) (hroom : s.cur.toNat + nb.toNat ≤ 8192) :
    exec (.getbits nb) s = .next
      (((s.setData (readField s.str s.cur.toNat nb.toNat)).setCur
        (s.cur.toNat + nb.toNat)).succeeded false) := by
  simp only [exec, execGetbits, fieldWidth_legal h, getBits_ok hroom, complete_commit]

theorem exec_peekbits_of_fits (h : legalWidth nb = true) (hroom : s.cur.toNat + nb.toNat ≤ 8192) :
    exec (.peekbits nb) s = .next
      ((s.setData (readField s.str s.cur.toNat nb.toNat)).succeeded false) := by
  simp only [exec, execPeekbits, fieldWidth_legal h, peekBits_ok hroom, complete_commit]

end

/-! ### The obligations on the cursor commands -/

/-- Settles O17: NOP commits the state it found. -/
theorem nopChangesOnlyStatus : Obligations.NopChangesOnlyStatus := fun _ => rfl

theorem ofNat_toNat_add (c : BitVec 14) (nb : BitVec 4) :
    BitVec.ofNat 14 (c.toNat + nb.toNat) = c + nb.setWidth 14 := by
  apply BitVec.eq_of_toNat_eq
  have := nb.isLt
  simp only [BitVec.toNat_ofNat, BitVec.toNat_add, BitVec.toNat_setWidth]
  omega

/-- R202: a field write changes no bit but its own and the ones it clears. -/
theorem writesOnly_putField (m : Memory) (c v n : Nat) : WritesOnly m (putField m c v n) c n := fun p =>
  (strBit_putField n m c v p).2

/-- Settles O18, by what one field write does to every bit. -/
theorem putbitsAppendsTheField : Obligations.PutbitsAppendsTheField := by
  intro s val nb h1 h9 hroom
  have hw : legalWidth nb = true := (legalWidth_iff nb).2 ⟨h1, h9⟩
  refine ⟨putField s.str s.cur.toNat val.toNat nb.toNat, ?_, fun k hk => ?_, writesOnly_putField _ _ _ _⟩
  · rw [exec_putbits_of_fits hw hroom, State.setCur, ofNat_toNat_add]
    rfl
  · have := (strBit_putField nb.toNat s.str s.cur.toNat val.toNat (s.cur.toNat + k)).1 (by omega)
    rwa [Nat.add_sub_cancel_left] at this

/-- DATA holds every bit of a field of at most 16 bits. -/
theorem getLsbD_ofNat_readField (m : Memory) (p : Nat) {n : Nat} (hn : n ≤ 16) (k : Nat) :
    (BitVec.ofNat 16 (readField m p n)).getLsbD k = (decide (k < n) && strBit m (p + k)) := by
  rw [BitVec.getLsbD_ofNat, testBit_readField]
  by_cases hk : k < n
  · simp [show k < 16 by omega]
  · simp [hk]

/-- Settles O19, by what a field read answers bit by bit. -/
theorem getbitsAndPeekbitsReadTheField : Obligations.GetbitsAndPeekbitsReadTheField := by
  intro s nb h1 h9 hroom
  have hw : legalWidth nb = true := (legalWidth_iff nb).2 ⟨h1, h9⟩
  refine ⟨BitVec.ofNat 16 (readField s.str s.cur.toNat nb.toNat),
    getLsbD_ofNat_readField _ _ (by omega), ?_, exec_peekbits_of_fits hw hroom⟩
  rw [exec_getbits_of_fits hw hroom, State.setCur, ofNat_toNat_add]
  rfl

/-- Settles O20: the width is checked first, then the room. -/
theorem cursorCommandErrors : Obligations.CursorCommandErrors := by
  refine fun s val nb => ⟨fun h => ?_, fun ⟨h1, h9, hout⟩ => ?_⟩
  · have hw : legalWidth nb = false := by
      rw [← Bool.not_eq_true, legalWidth_iff]
      omega
    exact ⟨exec_putbits_of_illegal hw val, exec_getbits_of_illegal hw, exec_peekbits_of_illegal hw⟩
  · have hw : legalWidth nb = true := (legalWidth_iff nb).2 ⟨h1, h9⟩
    exact ⟨exec_putbits_of_past hw hout val, exec_getbits_of_past hw hout, exec_peekbits_of_past hw hout⟩

end Sys2Proof.Machine
end

section
/-! SUPPORT. One inversion lemma for all commands (60_exceptions.md R800): everything `exec` can answer. The
statements about outcomes, registers and memories follow from it case by case. -/

namespace Sys2Proof.Machine

/-- Which command can raise which error (R801, R802, R804, R805). -/
def MayRaise (i : Instr) : CmdError → Prop
  | .badCmd => i.wellFormed = false
  | .len => i.maxBlock ≠ none
  | .range => i.isEncoder ∨ i.isDecoder ∨ (∃ v nb, i = .putbits v nb) ∨ (∃ nb, i = .getbits nb) ∨
      ∃ nb, i = .peekbits nb
  | .decode => i = .fwdec ∨ i = .txtdec ∨ i = .strdec ∨ i = .xstrdec

/-- Everything a command can do to a state. -/
inductive Effect (s : State) : Instr → State → Prop
  | raised {i : Instr} (e : CmdError) (h : MayRaise i e) : Effect s i (s.onlyStatus (some e) false)
  | declined {i : Instr} (h : i.isEncoder) : Effect s i (s.onlyStatus none true)
  | encoded {i : Instr} {maxn : Nat} {declines : SymTab → Prop} {coded : State → SymTab → Coded} (c : Coded)
      (rule : EncoderRule i maxn declines coded) (hc : c = coded s (symRebuild s.block))
      (legal : s.legalBlock maxn) (takes : ¬declines (symRebuild s.block))
      (limit : s.limit.toNat = 0 ∨ c.total ≤ s.limit.toNat) (room : s.cur.toNat + c.total ≤ 8192) :
      Effect s i
        ((s.commitCoded c (putAll s.str s.cur.toNat c.fields) (s.cur.toNat + c.total)).succeeded c.capped)
  | decoded {i : Instr} {maxn : Nat} {dec : Memory → Nat → Nat → Except CmdError (List Byte × Nat)}
      (rule : DecoderRule i maxn dec) (legal : s.legalBlock maxn) (out : List Byte) (p : Nat)
      (length : out.length = s.n.toNat) (forward : s.cur.toNat ≤ p) (room : p ≤ 8192) :
      Effect s i ((s.commitDecoded out p).succeeded false)
  | nop : Effect s .nop (s.succeeded false)
  | putbits (val : BitVec 9) (nb : BitVec 4) (width : legalWidth nb = true)
      (room : s.cur.toNat + nb.toNat ≤ 8192) :
      Effect s (.putbits val nb)
        (((s.setStr (putField s.str s.cur.toNat val.toNat nb.toNat)).setCur
          (s.cur.toNat + nb.toNat)).succeeded false)
  | getbits (nb : BitVec 4) (v c : Nat) : Effect s (.getbits nb) (((s.setData v).setCur c).succeeded false)
  | peekbits (nb : BitVec 4) (v : Nat) : Effect s (.peekbits nb) ((s.setData v).succeeded false)
  | symrst : Effect s .symrst ((s.setSym symReset).succeeded false)
  | symscan (lim : BitVec 10) (legal : s.legalBlock 512) :
      Effect s (.symscan lim) ((s.setSym (scanTo s (scanEnd lim.toNat s.n.toNat))).succeeded false)
  | rdrank (x : BitVec 8) (v : Nat) : Effect s (.rdrank x) ((s.setData v).succeeded false)
  | rduniq (x : BitVec 8) (v : Nat) : Effect s (.rduniq x) ((s.setData v).succeeded false)
  | rdocc (x : BitVec 8) (v : Nat) : Effect s (.rdocc x) ((s.setData v).succeeded false)

theorem exec_symscan_of_legal {s : State} (legal : s.legalBlock 512) (lim : BitVec 10) :
    exec (.symscan lim) s =
      .next ((s.setSym (scanTo s (scanEnd lim.toNat s.n.toNat))).succeeded false) :=
  congrArg (complete s) (if_pos ((s.blockOk_iff 512).2 legal))

theorem EncoderRule.effect {i : Instr} {maxn : Nat} {declines : SymTab → Prop}
    {coded : State → SymTab → Coded} (rule : EncoderRule i maxn declines coded) (s : State) :
    ∃ t, exec i s = .next t ∧ Effect s i t := by
  by_cases legal : s.legalBlock maxn
  · by_cases takes : declines (symRebuild s.block)
    · exact ⟨_, rule.exec_of_declines legal takes, .declined rule.isEncoder⟩
    · rw [rule.exec_of_takes legal takes]
      obtain ⟨-, -, he⟩ | ⟨-, -, he⟩ | ⟨limit, room, he⟩ := emit_cases s _ (rule.width legal) <;> rw [he]
      · exact ⟨_, rfl, .declined rule.isEncoder⟩
      · exact ⟨_, rfl, .raised .range (.inl rule.isEncoder)⟩
      · exact ⟨_, rfl, .encoded _ rule rfl legal takes limit room⟩
  · exact ⟨_, rule.exec_of_illegal legal, .raised .len (by rw [MayRaise, rule.maxBlock.1]; nofun)⟩

theorem DecoderRule.effect {i : Instr} {maxn : Nat}
    {dec : Memory → Nat → Nat → Except CmdError (List Byte × Nat)} (rule : DecoderRule i maxn dec)
    (s : State) : ∃ t, exec i s = .next t ∧ Effect s i t := by
  rw [rule.exec_eq]
  split_ifs with hok
  · have legal := (s.blockOk_iff maxn).1 hok
    obtain ⟨e, hr, hd⟩ | ⟨out, p, hr, hd⟩ := deliver_cases s (dec s.str s.n.toNat s.cur.toNat) <;> rw [hd]
    · refine ⟨_, rfl, .raised e ?_⟩
      obtain rfl | ⟨rfl, hi⟩ := rule.error_cases hr
      · exact .inr (.inl rule.isDecoder)
      · exact hi
    · obtain ⟨length, forward, room⟩ := rule.ok_spec legal.1 hr
      exact ⟨_, rfl, .decoded rule legal out p length forward room⟩
  · exact ⟨_, rfl, .raised .len (by rw [MayRaise, rule.maxBlock.1]; nofun)⟩

/-- Every command answers a next state with one of these effects. -/
theorem exec_effect (i : Instr) (s : State) : ∃ t, exec i s = .next t ∧ Effect s i t := by
  cases i with
  | nop => exact ⟨_, rfl, .nop⟩
  | putbits val nb =>
    cases hw : legalWidth nb with
    | false => exact ⟨_, exec_putbits_of_illegal hw val, .raised .badCmd hw⟩
    | true =>
      by_cases room : s.cur.toNat + nb.toNat ≤ 8192
      · exact ⟨_, exec_putbits_of_fits hw room val, .putbits val nb hw room⟩
      · exact ⟨_, exec_putbits_of_past hw (by omega) val,
          .raised .range (.inr (.inr (.inl ⟨val, nb, rfl⟩)))⟩
  | getbits nb =>
    cases hw : legalWidth nb with
    | false => exact ⟨_, exec_getbits_of_illegal hw, .raised .badCmd hw⟩
    | true =>
      by_cases room : s.cur.toNat + nb.toNat ≤ 8192
      · exact ⟨_, exec_getbits_of_fits hw room, .getbits nb _ _⟩
      · exact ⟨_, exec_getbits_of_past hw (by omega), .raised .range (.inr (.inr (.inr (.inl ⟨nb, rfl⟩))))⟩
  | peekbits nb =>
    cases hw : legalWidth nb with
    | false => exact ⟨_, exec_peekbits_of_illegal hw, .raised .badCmd hw⟩
    | true =>
      by_cases room : s.cur.toNat + nb.toNat ≤ 8192
      · exact ⟨_, exec_peekbits_of_fits hw room, .peekbits nb _⟩
      · exact ⟨_, exec_peekbits_of_past hw (by omega), .raised .range (.inr (.inr (.inr (.inr ⟨nb, rfl⟩))))⟩
  | symrst => exact ⟨_, rfl, .symrst⟩
  | symscan lim =>
    by_cases legal : s.legalBlock 512
    · exact ⟨_, exec_symscan_of_legal legal lim, .symscan lim legal⟩
    · exact ⟨_, (illegalBlockRaisesLen _ s).1 512 rfl legal, .raised .len nofun⟩
  | rdrank x => exact ⟨_, rfl, .rdrank x _⟩
  | rduniq x => exact ⟨_, rfl, .rduniq x _⟩
  | rdocc x => exact ⟨_, rfl, .rdocc x _⟩
  | fwenc => exact EncoderRule.fwenc.effect s
  | svenc => exact EncoderRule.svenc.effect s
  | p7enc => exact EncoderRule.p7enc.effect s
  | txtenc ad => exact (EncoderRule.txtenc ad).effect s
  | strenc => exact EncoderRule.strenc.effect s
  | xstrenc => exact EncoderRule.xstrenc.effect s
  | fwdec => exact DecoderRule.fwdec.effect s
  | svdec => exact DecoderRule.svdec.effect s
  | p7dec => exact DecoderRule.p7dec.effect s
  | txtdec => exact DecoderRule.txtdec.effect s
  | strdec => exact DecoderRule.strdec.effect s
  | xstrdec => exact DecoderRule.xstrdec.effect s

theorem effect_of_exec {i : Instr} {s t : State} (h : exec i s = .next t) : Effect s i t := by
  obtain ⟨t', h', heff⟩ := exec_effect i s
  cases h.symm.trans h'
  exact heff

/-! ### Outcomes -/

/-- Settles O8, case by case of what a command can do. -/
theorem everyCommandCompletes : Obligations.EveryCommandCompletes := by
  intro i s
  obtain ⟨t, h, heff⟩ := exec_effect i s
  refine ⟨t, h, ?_⟩
  cases heff with
  | raised e => exact ⟨rfl, rfl, rfl, fun _ => rfl, nofun⟩
  | declined => exact ⟨rfl, rfl, rfl, fun h => absurd rfl h, nofun⟩
  | encoded c rule hc =>
    exact ⟨rfl, rfl, rfl, fun _ => rfl, fun hcap => ⟨rule.capped (hc ▸ hcap), rfl, rfl⟩⟩
  | _ => exact ⟨rfl, rfl, rfl, fun _ => rfl, nofun⟩

/-- Settles O9: every effect but an error and a decline is a success. -/
theorem failedOrDeclinedChangesOnlyStatus : Obligations.FailedOrDeclinedChangesOnlyStatus := by
  intro i s t h hfail
  cases effect_of_exec h with
  | raised | declined => rfl
  | _ => exact absurd ⟨rfl, rfl⟩ hfail

/-- Settles O10: only an error sets ERR, and only a decline NA. -/
theorem errorKindsByCommand : Obligations.ErrorKindsByCommand := by
  intro i s t h
  cases effect_of_exec h with
  | raised e hmay =>
    refine ⟨?_, ?_, ?_, nofun⟩ <;> (rintro ⟨⟩; exact hmay)
  | declined henc => exact ⟨nofun, nofun, nofun, fun _ => henc⟩
  | _ => exact ⟨nofun, nofun, nofun, nofun⟩

/-! ### Registers and memories -/

/-- Settles O12, case by case of what a command can do. -/
theorem registersChangeOnlyByTheirCommands : Obligations.RegistersChangeOnlyByTheirCommands := by
  intro i s t h
  cases effect_of_exec h with
  | encoded c rule hc =>
    refine ⟨rfl, rfl, rfl, rfl, .inl rfl, .inr (.inl rule.isEncoder), .inr (.inl rule.isEncoder), ?_, ?_,
      .inr (.inl rule.isEncoder)⟩
    · exact hc ▸ rule.svval_coded s _
    · exact hc ▸ (rule.txtsel_coded s _).imp_right fun ⟨ad, hi, _⟩ => ⟨ad, hi⟩
  | decoded rule =>
    exact ⟨rfl, rfl, rfl, rfl, .inl rfl, .inr (.inr rule.isDecoder), .inl rfl, .inl rfl, .inl rfl,
      .inr (.inr (.inl rule.isDecoder))⟩
  | _ => simp [State.succeeded, State.onlyStatus, State.setData, State.setCur, State.setStr, State.setSym]

theorem toNat_ofNat_total {s : State} {total : Nat} (h : s.cur.toNat + total ≤ 8192) :
    (BitVec.ofNat 14 total).toNat = total := Nat.mod_eq_of_lt (by omega)

/-- R202: an encoder's output changes no bit but its own and the ones it clears. -/
theorem writesOnly_putAll (m : Memory) (c : Nat) (fs : List Field) :
    WritesOnly m (putAll m c fs) c (fieldsWidth fs) := fun p => (strBit_putAll fs m c p).2

/-- Settles O13, case by case of what a command can do. -/
theorem memoriesChangeOnlyWhereWritten : Obligations.MemoriesChangeOnlyWhereWritten := by
  intro i s t h
  cases effect_of_exec h with
  | encoded c rule hc legal takes limit room =>
    refine ⟨.inl rfl, .inr (.inl ⟨rule.isEncoder, ?_⟩)⟩
    have hwidth : fieldsWidth c.fields = c.total := hc ▸ rule.width legal
    have := writesOnly_putAll s.str s.cur.toNat c.fields
    rwa [hwidth, ← toNat_ofNat_total room] at this
  | decoded rule legal out p length =>
    refine ⟨.inr ⟨rule.isDecoder, fun a ha => ?_⟩, .inl rfl⟩
    exact (writesBlock_writeBytes s.blk s.base.toNat out).2 a (by rwa [length])
  | putbits val nb =>
    exact ⟨.inl rfl, .inr (.inr ⟨val, nb, rfl, writesOnly_putField _ _ _ _⟩)⟩
  | _ => exact ⟨.inl rfl, .inl rfl⟩

/-- Settles O15: an encoder's cursor moves by its total, and a decoder's BITLEN is how far it moved. -/
theorem coderAdvancesCursorByBitlen : Obligations.CoderAdvancesCursorByBitlen := by
  intro i s t hcoder h hsucc
  cases effect_of_exec h with
  | raised => exact nomatch hsucc.1
  | declined => exact nomatch hsucc.2
  | encoded c rule hc legal takes limit room =>
    simp only [State.succeeded_cur, State.commitCoded_cur, State.succeeded_bitlen,
      State.commitCoded_bitlen, toNat_ofNat_total room]
    exact Nat.mod_eq_of_lt (by omega)
  | decoded rule legal out p length forward room =>
    simp only [State.succeeded_cur, State.commitDecoded_cur, State.succeeded_bitlen,
      State.commitDecoded_bitlen, BitVec.toNat_ofNat]
    omega
  | _ => exact absurd hcoder (by simp [Instr.isEncoder, Instr.isDecoder])

/-- Settles O16: a decoder is a function of STR, N, BASE and CUR, and commits no table. -/
theorem decodersIgnoreTheSymbolTable : Obligations.DecodersIgnoreTheSymbolTable := by
  intro i s t x hdec h
  obtain ⟨maxn, dec, rule⟩ := decoderRule_of_isDecoder hdec
  have hexec := rule.exec_eq { s with sym := x }
  change exec i { s with sym := x } = complete { s with sym := x }
    (if s.blockOk maxn then deliver { s with sym := x } (dec s.str s.n.toNat s.cur.toNat)
      else .raise .len) at hexec
  rw [rule.exec_eq] at h
  rw [hexec]
  split_ifs at h ⊢
  · cases hr : dec s.str s.n.toNat s.cur.toNat with
    | error e => rw [hr] at h; cases h; exact ⟨rfl, rfl⟩
    | ok r => rw [hr] at h; cases h; exact ⟨rfl, rfl⟩
  · cases h
    exact ⟨rfl, rfl⟩

/-! ### What a command reads of BLK (R201) -/

/-- The same block, from memories that agree on it. -/
theorem block_congr {s : State} {m : Memory} (h : ∀ a, s.base.toNat ≤ a → a < s.base.toNat + s.n.toNat →
      m.read Config.powerOnBlk a = s.blkByte a) : State.block { s with blk := m } = s.block :=
  List.map_congr_left fun k hk =>
    h (s.base.toNat + k) (Nat.le_add_right _ _) (Nat.add_lt_add_left (List.mem_range.1 hk) _)

theorem scanTo_congr {s : State} {m : Memory} {stop : Nat} (hstop : stop ≤ s.n.toNat)
    (h : ∀ a, s.base.toNat ≤ a → a < s.base.toNat + s.n.toNat →
      m.read Config.powerOnBlk a = s.blkByte a) : scanTo { s with blk := m } stop = scanTo s stop := by
  have hbytes : m.bytes Config.powerOnBlk (s.base.toNat + s.sym.scanpos.toNat) (stop - s.sym.scanpos.toNat) =
      s.blk.bytes Config.powerOnBlk (s.base.toNat + s.sym.scanpos.toNat) (stop - s.sym.scanpos.toNat) :=
    List.map_congr_left fun k hk => h _ (by omega) (by have := List.mem_range.1 hk; omega)
  simp only [scanTo, hbytes]

theorem scanEnd_le (lim n : Nat) : scanEnd lim n ≤ n := by
  unfold scanEnd
  split_ifs
  · exact le_rfl
  · exact min_le_right _ _

/-- What an encoder's end does with another BLK: the same, and BLK is left. -/
theorem complete_emit_blk {s t : State} {c : Coded} (m : Memory) (h : complete s (emit s c) = .next t) :
    complete { s with blk := m } (emit { s with blk := m } c) = .next { t with blk := m } := by
  unfold emit at h ⊢
  dsimp only at h ⊢
  split_ifs at h ⊢
  · cases h; rfl
  · cases h; rfl
  · cases hput : putFields s.str s.cur.toNat c.fields with
    | error e => rw [hput] at h; cases h; rfl
    | ok r => rw [hput] at h; cases h; rfl

theorem EncoderRule.exec_blk {i : Instr} {maxn : Nat} {declines : SymTab → Prop}
    {coded : State → SymTab → Coded} (rule : EncoderRule i maxn declines coded) {s t : State} {m : Memory}
    (hm : ∀ a, s.base.toNat ≤ a → a < s.base.toNat + s.n.toNat → a < 512 →
      m.read Config.powerOnBlk a = s.blkByte a)
    (h : exec i s = .next t) : exec i { s with blk := m } = .next { t with blk := m } := by
  by_cases legal : s.legalBlock maxn
  · have hblock : State.block { s with blk := m } = s.block :=
      block_congr fun a h1 h2 => hm a h1 h2 (by have := legal.2.2; omega)
    by_cases takes : declines (symRebuild s.block)
    · cases (rule.exec_of_declines legal takes).symm.trans h
      exact rule.exec_of_declines (s := { s with blk := m }) legal (by rwa [hblock])
    · rw [rule.exec_of_takes (s := { s with blk := m }) legal (by rwa [hblock]), hblock,
        rule.coded_congr (s := s) _ hblock rfl rfl rfl]
      exact complete_emit_blk m ((rule.exec_of_takes legal takes).symm.trans h)
  · cases (rule.exec_of_illegal legal).symm.trans h
    exact rule.exec_of_illegal (s := { s with blk := m }) legal

/-- Settles O14: an encoder and SYMSCAN read their block, the other commands no byte of BLK. -/
theorem commandsReadOnlyTheirBlock : Obligations.CommandsReadOnlyTheirBlock := by
  intro i s t m hdec hm h
  by_cases henc : i.isEncoder
  · obtain ⟨maxn, declines, coded, rule⟩ := encoderRule_of_isEncoder henc
    exact rule.exec_blk hm h
  cases i with
  | nop | symrst | rdrank | rduniq | rdocc => cases h; rfl
  | putbits val nb =>
    cases hw : legalWidth nb with
    | false => cases (exec_putbits_of_illegal hw val).symm.trans h; exact exec_putbits_of_illegal hw val
    | true =>
      by_cases room : s.cur.toNat + nb.toNat ≤ 8192
      · cases (exec_putbits_of_fits hw room val).symm.trans h
        exact exec_putbits_of_fits (s := { s with blk := m }) hw room val
      · cases (exec_putbits_of_past hw (Nat.not_le.1 room) val).symm.trans h
        exact exec_putbits_of_past (s := { s with blk := m }) hw (Nat.not_le.1 room) val
  | getbits nb =>
    cases hw : legalWidth nb with
    | false => cases (exec_getbits_of_illegal hw).symm.trans h; exact exec_getbits_of_illegal hw
    | true =>
      by_cases room : s.cur.toNat + nb.toNat ≤ 8192
      · cases (exec_getbits_of_fits hw room).symm.trans h
        exact exec_getbits_of_fits (s := { s with blk := m }) hw room
      · cases (exec_getbits_of_past hw (Nat.not_le.1 room)).symm.trans h
        exact exec_getbits_of_past (s := { s with blk := m }) hw (Nat.not_le.1 room)
  | peekbits nb =>
    cases hw : legalWidth nb with
    | false => cases (exec_peekbits_of_illegal hw).symm.trans h; exact exec_peekbits_of_illegal hw
    | true =>
      by_cases room : s.cur.toNat + nb.toNat ≤ 8192
      · cases (exec_peekbits_of_fits hw room).symm.trans h
        exact exec_peekbits_of_fits (s := { s with blk := m }) hw room
      · cases (exec_peekbits_of_past hw (Nat.not_le.1 room)).symm.trans h
        exact exec_peekbits_of_past (s := { s with blk := m }) hw (Nat.not_le.1 room)
  | symscan lim =>
    by_cases legal : s.legalBlock 512
    · have hscan := scanTo_congr (m := m) (scanEnd_le lim.toNat s.n.toNat) fun a h1 h2 =>
        hm a h1 h2 (h2.trans_le legal.2.2)
      cases (exec_symscan_of_legal legal lim).symm.trans h
      rw [exec_symscan_of_legal (s := { s with blk := m }) legal, hscan]
      rfl
    · cases ((illegalBlockRaisesLen _ s).1 512 rfl legal).symm.trans h
      exact (illegalBlockRaisesLen (.symscan lim) { s with blk := m }).1 512 rfl legal
  | fwenc | svenc | p7enc | txtenc | strenc | xstrenc => exact absurd trivial henc
  | fwdec | svdec | p7dec | txtdec | strdec | xstrdec => exact absurd trivial hdec

end Sys2Proof.Machine
end

section
/-! SUPPORT. The outcomes of an encoder (60_exceptions.md R804, R806, R810, 20_memory.md R205): the content
decline, LIMIT, the end of STR, and else its output, in this order. -/

namespace Sys2Proof.Machine

section
variable {i : Instr} {maxn : Nat} {declines : SymTab → Prop} {coded : State → SymTab → Coded} {s t : State}
  {c : Coded}

/-! ### The outcomes of an encoder that takes its block -/

theorem EncoderRule.exec_of_limit (rule : EncoderRule i maxn declines coded) (legal : s.legalBlock maxn)
    (takes : ¬declines (symRebuild s.block)) (hc : coded s (symRebuild s.block) = c)
    (h0 : s.limit.toNat ≠ 0) (hlt : s.limit.toNat < c.total) : exec i s = .next (s.onlyStatus none true) := by
  rw [rule.exec_of_takes legal takes, hc, emit_limit h0 hlt, complete_notApplicable]

theorem EncoderRule.exec_of_past (rule : EncoderRule i maxn declines coded) (legal : s.legalBlock maxn)
    (takes : ¬declines (symRebuild s.block)) (hc : coded s (symRebuild s.block) = c)
    (limit : s.limit.toNat = 0 ∨ c.total ≤ s.limit.toNat) (hout : 8192 < s.cur.toNat + c.total) :
    exec i s = .next (s.onlyStatus (some .range) false) := by
  rw [rule.exec_of_takes legal takes, hc, emit_range limit hout, complete_raise]

theorem EncoderRule.exec_of_room (rule : EncoderRule i maxn declines coded) (legal : s.legalBlock maxn)
    (takes : ¬declines (symRebuild s.block)) (hc : coded s (symRebuild s.block) = c)
    (limit : s.limit.toNat = 0 ∨ c.total ≤ s.limit.toNat) (room : s.cur.toNat + c.total ≤ 8192) :
    exec i s = .next
      ((s.commitCoded c (putAll s.str s.cur.toNat c.fields) (s.cur.toNat + c.total)).succeeded c.capped) := by
  have hwidth : fieldsWidth c.fields = c.total := hc ▸ rule.width legal
  rw [rule.exec_of_takes legal takes, hc, emit_ok limit room hwidth, complete_commit]

/-- An encoder that succeeded took a legal block and had room, and committed its output. -/
theorem EncoderRule.of_succeededNow (rule : EncoderRule i maxn declines coded) (h : exec i s = .next t)
    (ht : t.succeededNow) (hc : coded s (symRebuild s.block) = c) :
    s.legalBlock maxn ∧ ¬declines (symRebuild s.block) ∧
      (s.limit.toNat = 0 ∨ c.total ≤ s.limit.toNat) ∧ s.cur.toNat + c.total ≤ 8192 ∧
      t = (s.commitCoded c (putAll s.str s.cur.toNat c.fields) (s.cur.toNat + c.total)).succeeded c.capped := by
  by_cases legal : s.legalBlock maxn
  · by_cases takes : declines (symRebuild s.block)
    · cases (rule.exec_of_declines legal takes).symm.trans h
      exact nomatch ht.2
    · by_cases hlimit : s.limit.toNat = 0 ∨ c.total ≤ s.limit.toNat
      · by_cases room : s.cur.toNat + c.total ≤ 8192
        · cases (rule.exec_of_room legal takes hc hlimit room).symm.trans h
          exact ⟨legal, takes, hlimit, room, rfl⟩
        · cases (rule.exec_of_past legal takes hc hlimit (Nat.not_le.1 room)).symm.trans h
          exact nomatch ht.1
      · cases (rule.exec_of_limit legal takes hc (by omega) (by omega)).symm.trans h
        exact nomatch ht.2
  · cases (rule.exec_of_illegal legal).symm.trans h
    exact nomatch ht.1

end

/-! ### The content decline (R502, R601, R707) -/

/-- Settles O25: the table tells the number of uniques and whether a byte has bit 7 set. -/
theorem contentDeclinesComeFirst : Obligations.ContentDeclinesComeFirst := by
  intro s legal
  have hranks : RanksBlock (symRebuild s.block) s.block :=
    ranksBlock_block s (legal.2.1.trans (by decide))
  refine ⟨fun h => EncoderRule.fwenc.exec_of_declines legal ?_, fun ⟨v, hv, h⟩ => ?_,
    fun h => EncoderRule.strenc.exec_of_declines legal ?_⟩
  · rwa [hranks.u]
  · refine EncoderRule.p7enc.exec_of_declines legal ?_
    by_contra hor
    exact absurd (hranks.oracc_seven.1 (Bool.eq_false_of_not_eq_true hor) v hv) (Nat.not_lt.2 h)
  · rwa [hranks.u]

/-! ### LIMIT, then the end of STR (R109, R804, R806, R810) -/

theorem ofNat_add_toNat (c : BitVec 14) (n : Nat) :
    BitVec.ofNat 14 (c.toNat + n) = c + BitVec.ofNat 14 n := by
  rw [BitVec.ofNat_add, BitVec.ofNat_toNat, BitVec.setWidth_eq]

theorem toNat_eq_zero_iff (l : BitVec 13) : l.toNat = 0 ↔ l = 0#13 :=
  ⟨fun h => BitVec.eq_of_toNat_eq h, fun h => h ▸ rfl⟩

/-- The same output, bit for bit, wherever it is written and whatever was there. -/
theorem strBit_putAll_shift (fs : List Field) (m m' : Memory) (c c' k : Nat) (hk : k < fieldsWidth fs) :
    strBit (putAll m' c' fs) (c' + k) = strBit (putAll m c fs) (c + k) := by
  rw [(strBit_putAll fs m' c' (c' + k)).1 (by omega), (strBit_putAll fs m c (c + k)).1 (by omega),
    Nat.add_sub_cancel_left, Nat.add_sub_cancel_left]

/-- Settles O26: what an encoder computes does not depend on CUR and LIMIT, which its end compares with the
total. -/
theorem limitThenRangeDecideAnEncodersOutcome : Obligations.LimitThenRangeDecideAnEncodersOutcome := by
  intro i s t c l henc hlimit h ht
  obtain ⟨maxn, declines, coded, rule⟩ := encoderRule_of_isEncoder henc
  obtain ⟨legal, takes, -, room, rfl⟩ := rule.of_succeededNow h ht rfl
  have hwidth := rule.width legal
  have hc : coded { s with cur := c, limit := l } (symRebuild s.block) = coded s (symRebuild s.block) :=
    rule.coded_congr (s := s) _ rfl rfl rfl rfl
  generalize coded s (symRebuild s.block) = out at *
  simp only [State.succeeded_bitlen, State.commitCoded_bitlen, toNat_ofNat_total room]
  refine ⟨fun h0 hlt => ?_, fun hl => ⟨fun hout => ?_, fun hin => ?_⟩⟩
  · exact rule.exec_of_limit (s := { s with cur := c, limit := l }) legal takes hc
      (mt (toNat_eq_zero_iff l).1 h0) hlt
  · exact rule.exec_of_past (s := { s with cur := c, limit := l }) legal takes hc
      (hl.imp_left (toNat_eq_zero_iff l).2) hout
  · refine ⟨putAll s.str c.toNat out.fields, ?_, ?_, fun k hk => ?_⟩
    · rw [rule.exec_of_room (s := { s with cur := c, limit := l }) legal takes hc
        (hl.imp_left (toNat_eq_zero_iff l).2) hin, ← ofNat_add_toNat]
      rfl
    · exact hwidth ▸ writesOnly_putAll s.str c.toNat out.fields
    · exact strBit_putAll_shift out.fields s.str s.str s.cur.toNat c.toNat k (hwidth ▸ hk)

/-- Settles O27: what an encoder computes does not depend on STR and the table, and its bits not on what
they overwrite. -/
theorem encoderIgnoresOldStreamAndTable : Obligations.EncoderIgnoresOldStreamAndTable := by
  intro i s t m x henc h ht
  obtain ⟨maxn, declines, coded, rule⟩ := encoderRule_of_isEncoder henc
  obtain ⟨legal, takes, limit, room, rfl⟩ := rule.of_succeededNow h ht rfl
  have hwidth := rule.width legal
  have hc : coded { s with str := m, sym := x } (symRebuild s.block) = coded s (symRebuild s.block) :=
    rule.coded_congr (s := s) _ rfl rfl rfl rfl
  generalize coded s (symRebuild s.block) = out at *
  refine ⟨_, rule.exec_of_room (s := { s with str := m, sym := x }) legal takes hc limit room,
    fun p hp hp' => ?_⟩
  simp only [State.succeeded_bitlen, State.commitCoded_bitlen, toNat_ofNat_total room] at hp'
  have := strBit_putAll_shift out.fields s.str m s.cur.toNat s.cur.toNat (p - s.cur.toNat) (by omega)
  rwa [Nat.add_sub_cancel' hp] at this

/-! ### No output is above 5640 bits (R205) -/

/-- A token takes at most nine bits per byte that it covers. -/
theorem TokenPasses.bits_le {uniq n lw u i : Nat} {tok : Token} (h : TokenPasses uniq n lw u i tok)
    (hu : u ≤ 128) (hn : n ≤ 512) (hlw : lw ≤ 4) : tok.bits lw u i ≤ 9 * tok.covers := by
  cases tok with
  | newUnique => exact (by decide : 1 ≤ 9 * 1)
  | repeatRank idx =>
    have : idxw u ≤ 7 := (idxw_le_iff (by decide)).2 hu
    simp only [Token.bits, Token.covers]
    omega
  | string len pos =>
    have hi := h.bounds.1
    obtain ⟨-, h2, -⟩ := h
    have : posw i ≤ 9 := (idxw_le_iff (by decide)).2 (by omega)
    simp only [Token.bits, Token.covers]
    omega

theorem tokensBits_le {uniq n lw u i : Nat} {toks : List Token} (huniq : uniq ≤ 128) (hn : n ≤ 512)
    (hlw : lw ≤ 4) (hu : u ≤ uniq) (h : ValidTokens uniq n lw u i toks) :
    9 * i + tokensBits lw u i toks ≤ 9 * n := by
  induction toks generalizing u i with
  | nil =>
    obtain ⟨rfl, -⟩ := h
    exact le_rfl
  | cons tok toks ih =>
    obtain ⟨htok, hrest⟩ := validTokens_cons.1 h
    have hfirst := htok.bits_le (hu.trans huniq) hn hlw
    have := ih (htok.uniquesAfter_le hu) hrest
    rw [tokensBits]
    omega

theorem fwWidth_le (u : Nat) : fwWidth u ≤ 4 := by
  unfold fwWidth
  split_ifs <;> decide

theorem textLen_le (table : List Byte) (l7 : Bool) (v : Byte) : textLen table l7 v ≤ 11 := by
  unfold textLen
  split
  next r _ =>
    unfold rankCode
    split_ifs <;> simp
  next => cases l7 <;> decide

theorem headerWidth_le (p7 : Bool) : headerWidth p7 ≤ 8 := by cases p7 <;> decide

/-- R205, encoder by encoder. -/
theorem EncoderRule.total_le {i : Instr} {maxn : Nat} {declines : SymTab → Prop}
    {coded : State → SymTab → Coded} (rule : EncoderRule i maxn declines coded) {s : State}
    (legal : s.legalBlock maxn) (takes : ¬declines (symRebuild s.block)) :
    (coded s (symRebuild s.block)).total ≤ 5640 := by
  have hn : s.n.toNat ≤ 512 := legal.2.1.trans rule.maxBlock.2
  have hlen := s.length_block
  have hranks : RanksBlock (symRebuild s.block) s.block := ranksBlock_block s hn
  have hmax := legal.2.1
  generalize symRebuild s.block = tab at *
  cases rule with
  | fwenc =>
    have hw : fwWidth tab.u.toNat * s.n.toNat ≤ 4 * 64 := Nat.mul_le_mul (fwWidth_le _) hmax
    simp only [fwCoded]
    omega
  | svenc => simp only [svCoded]; omega
  | p7enc => simp only [p7Coded]; omega
  | txtenc ad =>
    have hsum := List.sum_le_card_nsmul (s.block.map
      (textLen (encoderTable (textSelect ad s.block)) !tab.oracc.getLsbD 7)) 11
      (List.forall_mem_map.2 fun v _ => textLen_le _ _ v)
    rw [List.length_map, hlen, smul_eq_mul] at hsum
    simp only [textCoded]
    omega
  | strenc =>
    have hu : distinct s.block ≤ 128 := hranks.u ▸ (Nat.not_lt.1 takes).trans (by decide)
    have hbits := tokensBits_le hu (by omega) (by decide) (Nat.zero_le _)
      (hranks.followsPolicy_strTokensOf.validTokens (lw := 3) (by decide))
    simp only [strCoded, boundedLW]
    omega
  | xstrenc =>
    have hle := hranks.consumedLength_le
    have huniq : headerUniques tab ≤ 128 := min_le_right _ _
    have hbits := tokensBits_le (hranks.headerUniques_eq ▸ huniq)
      ((List.length_take_le' _ _).trans (by omega)) (by decide) (Nat.zero_le _)
      (hranks.followsPolicy_xstrTokensOf.validTokens (lw := 4) (by decide))
    have hcov : (s.block.take (consumedLength tab s.block)).length ≤ 512 :=
      (List.length_take_le' _ _).trans (by omega)
    have hhead : headerWidth (allBelow80 (tab.uniques (headerUniques tab))) * headerUniques tab ≤ 8 * 128 :=
      Nat.mul_le_mul (headerWidth_le _) huniq
    simp only [xstrCoded, extendedLW]
    omega

/-- Settles O28: from CUR at most 2552 even 5640 bits end inside STR. -/
theorem encoderOutputFits5640Bits : Obligations.EncoderOutputFits5640Bits := by
  intro i s t henc h
  obtain ⟨maxn, declines, coded, rule⟩ := encoderRule_of_isEncoder henc
  refine ⟨fun ht => ?_, fun hcur herr => ?_⟩
  · obtain ⟨legal, takes, -, room, rfl⟩ := rule.of_succeededNow h ht rfl
    simp only [State.succeeded_bitlen, State.commitCoded_bitlen, toNat_ofNat_total room]
    exact rule.total_le legal takes
  · by_cases legal : s.legalBlock maxn
    · by_cases takes : declines (symRebuild s.block)
      · cases (rule.exec_of_declines legal takes).symm.trans h
        cases herr
      · have htotal := rule.total_le legal takes
        obtain ⟨-, -, he⟩ | ⟨-, hout, -⟩ | ⟨limit, room, he⟩ := emit_cases s _ (rule.width legal)
        · rw [rule.exec_of_takes legal takes, he] at h
          cases h
          cases herr
        · omega
        · rw [rule.exec_of_takes legal takes, he] at h
          cases h
          cases herr
    · cases (rule.exec_of_illegal legal).symm.trans h
      cases herr

end Sys2Proof.Machine
end

section
/-! SUPPORT. One step of the machine (20_memory.md R220 to R235, 70_reset_and_hazards.md R902): everything a
host access can do, everything a step can do, and from it the invariants and the host's view. -/

namespace Sys2Proof.Machine

/-! ### The window map (R220) -/

/-- R220's map on the offsets of registers. -/
theorem ofOffset_cases {off : Nat} {r : Reg} (h : Reg.ofOffset off = some r) :
    (off, r) ∈ [(0x00, Reg.id), (0x04, .ctrl), (0x08, .status), (0x0C, .cmd), (0x10, .cur), (0x14, .n),
      (0x18, .base), (0x1C, .limit), (0x20, .data), (0x24, .bitlen), (0x28, .consumed), (0x2C, .ucnt),
      (0x30, .scanpos), (0x34, .textcnt), (0x38, .oracc), (0x3C, .svval), (0x40, .txtsel)] := by
  unfold Reg.ofOffset at h
  split at h <;> cases h <;> decide

theorem ofOffset_lt {off : Nat} {r : Reg} (h : Reg.ofOffset off = some r) : off ≤ 0x40 := by
  have := ofOffset_cases h
  simp only [List.mem_cons, Prod.mk.injEq, List.not_mem_nil, or_false] at this
  omega

theorem target_eq_reg {off : Nat} {r : Reg} (h : target off = .reg r) : Reg.ofOffset off = some r := by
  unfold target at h
  split_ifs at h with h1
  split at h <;> cases h
  assumption

theorem target_eq_blk {off m : Nat} (h : target off = .blk m) : off = 0x1000 + m ∧ m < 0x200 := by
  unfold target at h
  split_ifs at h with h1
  · split at h <;> cases h
  · rw [Target.blk.injEq] at h
    omega

theorem target_eq_str {off m : Nat} (h : target off = .str m) : off = 0x2000 + m ∧ m < 0x400 := by
  unfold target at h
  split_ifs at h with h1
  · split at h <;> cases h
  · rw [Target.str.injEq] at h
    omega

theorem target_blk {m : Nat} (h : m < 0x200) : target (0x1000 + m) = .blk m := by
  rw [target, if_neg (by omega), if_pos (by omega), Nat.add_sub_cancel_left]

theorem target_str {m : Nat} (h : m < 0x400) : target (0x2000 + m) = .str m := by
  rw [target, if_neg (by omega), if_neg (by omega), if_neg (by omega), if_pos (by omega),
    Nat.add_sub_cancel_left]

theorem target_reserved {off : Nat} (h : (0x44 ≤ off ∧ off < 0x1000) ∨ (0x1200 ≤ off ∧ off < 0x2000) ∨
    0x2400 ≤ off) : target off = .reserved := by
  rcases h with h | h | h
  · rw [target, if_pos h.2]
    split
    next r hr => exact absurd (ofOffset_lt hr) (by omega)
    next => rfl
  · rw [target, if_neg (by omega), if_neg (by omega), if_pos h.2]
  · rw [target, if_neg (by omega), if_neg (by omega), if_neg (by omega), if_neg (by omega)]

/-! ### Everything an access can do -/

/-- Everything one host access can do to a state (R213, R222, R230, R231, R902). -/
inductive AccessEffect (s : State) : Access → State → Prop
  /-- A read, a WAIT, a bus error, and a write that is taken without effect. -/
  | answered (a : Access) (r : Reply) (draws : Nat) : AccessEffect s a { s with reply := r, draws := draws }
  /-- A write that is dropped while the core is busy. -/
  | lost (a : Access) (r : Reply) : AccessEffect s a { s with
      status := { s.status with ovr := true }, reply := r }
  | cleared (a : Access) (w : Word) (r : Reply) : AccessEffect s a { s with
      status := s.status.clearBits w, reply := r }
  | enabled (a : Access) (ie : Bool) (r : Reply) : AccessEffect s a { s with ie := ie, reply := r }
  | reset (w : Word) (r : Reply) (h : w.getLsbD 1 = true) :
      AccessEffect s (.write 0x004#14 0xF#4 w) { s.softReset with reply := r }
  | started (a : Access) (w : Word) (left draws : Nat) (r : Reply) (idle : s.running = none) :
      AccessEffect s a { s.startCommand w left with draws := draws, reply := r }
  | operand (a : Access) (cur : BitVec 14) (n : BitVec 10) (base : BitVec 9) (limit : BitVec 13) (r : Reply)
      (idle : s.running = none) : AccessEffect s a { s with
        cur := cur, n := n, base := base, limit := limit, reply := r }
  | blk (a : Access) (m v : Nat) (r : Reply) (idle : s.running = none) (hm : m + 4 ≤ 512) :
      AccessEffect s a { s with blk := s.blk.writeLE m v 4, reply := r }
  | str (a : Access) (m v : Nat) (r : Reply) (idle : s.running = none) (hm : m + 4 ≤ 1024) :
      AccessEffect s a { s with str := s.str.writeLE m v 4, reply := r }

theorem hostRead_effect (s : State) (off : BitVec 14) : AccessEffect s (.read off) (s.hostRead off) := by
  unfold State.hostRead
  split_ifs
  · exact .answered _ _ _
  · exact .answered _ _ _
  · exact .answered _ _ _

theorem busy_eq_false {s : State} (h : ¬s.busy = true) : s.running = none := by
  simpa [State.busy] using h

/-- A write to a target that is locked while the core is busy finds it idle. -/
theorem idle_of_not_dropped {s : State} {t : Target} (h : ¬(s.busy && t.lockedWhileBusy) = true)
    (ht : t.lockedWhileBusy = true) : s.running = none := by
  rw [ht, Bool.and_true] at h
  exact busy_eq_false h

theorem writeTarget_reg_effect {s : State} {off : BitVec 14} {r : Reg} (w : Word)
    (hoff : Reg.ofOffset off.toNat = some r)
    (hdrop : ¬(s.busy && Target.lockedWhileBusy (.reg r)) = true) :
    AccessEffect s (.write off 0xF#4 w) ((s.writeTarget w (.reg r)).answer .accepted) := by
  cases r with
  | id | data | bitlen | consumed | ucnt | scanpos | textcnt | oracc | svval | txtsel =>
    exact .answered _ _ _
  | ctrl =>
    unfold State.writeTarget
    split_ifs with hsrst
    · have h4 : off = 0x004#14 := by
        have := ofOffset_cases hoff
        simp only [List.mem_cons, Prod.mk.injEq, List.not_mem_nil, or_false, reduceCtorEq, and_false,
          false_or, and_true] at this
        exact BitVec.eq_of_toNat_eq this
      exact h4 ▸ .reset w _ hsrst
    · exact .enabled _ _ _
  | status => exact .cleared _ _ _
  | cmd => exact .started _ _ _ _ _ (idle_of_not_dropped hdrop rfl)
  | cur => exact .operand _ (w.setWidth 14) s.n s.base s.limit _ (idle_of_not_dropped hdrop rfl)
  | n => exact .operand _ s.cur (w.setWidth 10) s.base s.limit _ (idle_of_not_dropped hdrop rfl)
  | base => exact .operand _ s.cur s.n (w.setWidth 9) s.limit _ (idle_of_not_dropped hdrop rfl)
  | limit => exact .operand _ s.cur s.n s.base (w.setWidth 13) _ (idle_of_not_dropped hdrop rfl)

theorem hostWrite_effect (s : State) (off : BitVec 14) (lanes : BitVec 4) (w : Word) :
    AccessEffect s (.write off lanes w) (s.hostWrite off lanes w) := by
  unfold State.hostWrite
  split_ifs with hbad hdrop
  · exact .answered _ _ _
  · exact .lost _ _
  · obtain ⟨halign, rfl⟩ : off.toNat % 4 = 0 ∧ lanes = 0xF#4 := by
      simpa only [ne_eq, not_or, not_not] using hbad
    cases ht : target off.toNat with
    | reg r => exact writeTarget_reg_effect w (target_eq_reg ht) (ht ▸ hdrop)
    | blk m =>
      have := target_eq_blk ht
      exact .blk _ _ _ _ (idle_of_not_dropped (ht ▸ hdrop) rfl) (by omega)
    | str m =>
      have := target_eq_str ht
      exact .str _ _ _ _ (idle_of_not_dropped (ht ▸ hdrop) rfl) (by omega)
    | reserved => exact .answered _ _ _

theorem perform_effect (s : State) (a : Access) : AccessEffect s a (s.perform a) := by
  cases a with
  | read off => exact hostRead_effect s off
  | write off lanes w => exact hostWrite_effect s off lanes w
  | wait => exact .answered _ _ _

/-! ### Everything a step can do -/

/-- The state in which the next access takes effect: it counts as landed and is no longer to come. -/
def State.received (s : State) (rest : List Access) : State := { s.landed with inbox := rest }

theorem hostTurn_cons {s : State} {a : Access} {rest : List Access} (h : s.inbox = a :: rest) :
    s.hostTurn = (s.received rest).perform a := by
  rw [State.hostTurn, h]
  rfl

/-- A step runs the latched word to its completion, or lets the next access take effect, or waits. -/
theorem step_cases {s t : State} (h : step s = .next t) :
    (∃ w, s.commandToRun = some w ∧
      ((∃ e, decode w = .error e ∧ t = s.onlyStatus (some .badCmd) false) ∨
        ∃ i, decode w = .ok i ∧ exec i s = .next t)) ∨
    (s.commandToRun = none ∧ s.inbox = [] ∧ t = s) ∨
    (s.commandToRun = none ∧ ∃ a rest, s.inbox = a :: rest ∧ AccessEffect (s.received rest) a t) := by
  unfold step at h
  cases hrun : s.commandToRun with
  | some w =>
    rw [hrun] at h
    refine .inl ⟨w, rfl, ?_⟩
    simp only [runWord] at h
    cases hdec : decode w with
    | error e => rw [hdec] at h; cases h; exact .inl ⟨e, rfl, rfl⟩
    | ok i => rw [hdec] at h; exact .inr ⟨i, rfl, h⟩
  | none =>
    rw [hrun] at h
    cases h
    cases hbox : s.inbox with
    | nil => exact .inr (.inl ⟨rfl, rfl, by rw [State.hostTurn, hbox]⟩)
    | cons a rest =>
      refine .inr (.inr ⟨rfl, a, rest, rfl, ?_⟩)
      rw [hostTurn_cons hbox]
      exact perform_effect _ a

theorem step_of_commandToRun {s : State} {w : Word} (h : s.commandToRun = some w) :
    step s = runWord w s := by
  rw [step, h]

theorem step_of_access {s : State} {a : Access} {rest : List Access} (h : s.commandToRun = none)
    (hbox : s.inbox = a :: rest) : step s = .next ((s.received rest).perform a) := by
  rw [step, h, ← hostTurn_cons hbox]

/-- A predicate on states that every command, every access and the landing of an access keep is kept by every
step. -/
theorem step_keeps {P : State → Prop} (hbad : ∀ s e, P s → P (s.onlyStatus (some e) false))
    (hexec : ∀ i s t, P s → Effect s i t → P t) (hland : ∀ s rest, P s → P (s.received rest))
    (haccess : ∀ s a t, P s → AccessEffect s a t → P t) {s t : State} (hs : P s) (h : step s = .next t) :
    P t := by
  obtain ⟨w, -, ⟨e, -, rfl⟩ | ⟨i, -, hi⟩⟩ | ⟨-, -, rfl⟩ | ⟨-, a, rest, -, ha⟩ := step_cases h
  · exact hbad s _ hs
  · exact hexec i s t hs (effect_of_exec hi)
  · exact hs
  · exact haccess _ a t (hland s rest hs) ha

/-! ### The memories stay canonical (R122, R203) -/

theorem encoderBody_eq_some {i : Instr} {s : State} {b : Body} (h : encoderBody i s = some b) :
    i.isEncoder ∧ exec i s = complete s b := by
  cases i <;> cases h <;> exact ⟨trivial, rfl⟩

/-- An encoder that succeeded ended inside STR. -/
theorem Effect.encoder_room {i : Instr} {s t : State} (h : Effect s i t) (henc : i.isEncoder)
    (ht : t.succeededNow) : s.cur.toNat + t.bitlen.toNat ≤ 8192 := by
  cases h with
  | raised => exact nomatch ht.1
  | declined => exact nomatch ht.2
  | encoded c rule hc legal takes limit room =>
    simp only [State.succeeded_bitlen, State.commitCoded_bitlen, toNat_ofNat_total room, room]
  | decoded rule => cases rule <;> exact henc.elim
  | _ => exact henc.elim

/-- What an abort leaves: both memories, or bytes of one inside its bounds unspecified. -/
theorem abort_cases (s : State) (w : Word) :
    s.abort w = s ∨
    (∃ first n, first + n ≤ 1024 ∧
      s.abort w = { s with str := s.str.forget s.draws first n, draws := s.draws + 1 }) ∨
    ∃ first n, first + n ≤ 512 ∧
      s.abort w = { s with blk := s.blk.forget s.draws first n, draws := s.draws + 1 } := by
  unfold State.abort
  cases hdec : decode w with
  | error e => exact .inl rfl
  | ok i =>
    simp only
    cases hbody : encoderBody i s with
    | none =>
      simp only
      split_ifs
      · refine .inr (.inr ⟨_, _, ?_, rfl⟩)
        have := s.base.isLt
        simp only [blkBytes_eq]
        omega
      · exact .inl rfl
    | some b =>
      cases b with
      | raise | notApplicable => exact .inl rfl
      | commit t capped =>
        obtain ⟨henc, hexec⟩ := encoderBody_eq_some hbody
        have hroom := (effect_of_exec (hexec.trans (complete_commit s t capped))).encoder_room henc ⟨rfl, rfl⟩
        rw [State.succeeded_bitlen] at hroom
        exact .inr (.inl ⟨_, _, by omega, rfl⟩)

theorem State.MemoriesWf.abort {s : State} (h : s.MemoriesWf) (w : Word) : (s.abort w).MemoriesWf := by
  obtain ⟨hb, hb', hs, hs'⟩ := h
  obtain he | ⟨first, n, hn, he⟩ | ⟨first, n, hn, he⟩ := abort_cases s w <;> rw [he]
  · exact ⟨hb, hb', hs, hs'⟩
  · exact ⟨hb, hb', Memory.wf_forget _ _ _ hs, Memory.within_forget _ _ _ hn hs'⟩
  · exact ⟨Memory.wf_forget _ _ _ hb, Memory.within_forget _ _ _ hn hb', hs, hs'⟩

theorem State.MemoriesWf.softReset {s : State} (h : s.MemoriesWf) : s.softReset.MemoriesWf := by
  have key : (match s.running with
      | none => s
      | some r => s.abort r.word).MemoriesWf := by
    split
    · exact h
    · exact h.abort _
  exact ⟨key.blk_wf, key.blk_within, key.str_wf, key.str_within⟩

theorem Effect.memoriesWf {i : Instr} {s t : State} (hs : s.MemoriesWf) (h : Effect s i t) :
    t.MemoriesWf := by
  obtain ⟨hb, hb', hst, hst'⟩ := hs
  cases h with
  | encoded c rule hc legal takes limit room =>
    have hwidth : fieldsWidth c.fields = c.total := hc ▸ rule.width legal
    exact ⟨hb, hb', Memory.wf_putAll _ _ hst, Memory.within_putAll _ _ (by omega) hst'⟩
  | decoded rule legal out p length =>
    exact ⟨Memory.wf_writeBytes _ _ hb, Memory.within_writeBytes _ _ (length ▸ legal.2.2) hb', hst, hst'⟩
  | putbits val nb width room =>
    exact ⟨hb, hb', Memory.wf_putField _ _ _ hst, Memory.within_putField _ _ _ room hst'⟩
  | _ => exact ⟨hb, hb', hst, hst'⟩

theorem AccessEffect.memoriesWf {s t : State} {a : Access} (hs : s.MemoriesWf) (h : AccessEffect s a t) :
    t.MemoriesWf := by
  have ⟨hb, hb', hst, hst'⟩ := hs
  cases h with
  | reset =>
    obtain ⟨rb, rb', rs, rs'⟩ := hs.softReset
    exact ⟨rb, rb', rs, rs'⟩
  | blk _ m v r idle hm => exact ⟨Memory.wf_writeLE _ _ _ hb, Memory.within_writeLE _ _ _ hm hb', hst, hst'⟩
  | str _ m v r idle hm => exact ⟨hb, hb', Memory.wf_writeLE _ _ _ hst, Memory.within_writeLE _ _ _ hm hst'⟩
  | _ => exact ⟨hb, hb', hst, hst'⟩

/-- Settles O49: commands, accesses and aborts write by operations that keep the form, inside the bounds. -/
theorem stepsKeepTheMemoriesCanonical : Obligations.StepsKeepTheMemoriesCanonical := fun _ _ hs =>
  step_keeps (P := State.MemoriesWf) (fun _ _ ⟨hb, hb', hs, hs'⟩ => ⟨hb, hb', hs, hs'⟩)
    (fun _ _ _ hs h => h.memoriesWf hs) (fun _ _ ⟨hb, hb', hs, hs'⟩ => ⟨hb, hb', hs, hs'⟩)
    (fun _ _ _ hs h => h.memoriesWf hs) hs

/-! ### The symbol table stays consistent (R121) -/

theorem Effect.consistent {i : Instr} {s t : State} (hs : s.sym.Consistent) (h : Effect s i t) :
    t.sym.Consistent := by
  cases h with
  | encoded c rule hc legal =>
    rw [State.succeeded_sym, State.commitCoded_sym, hc, rule.sym_coded]
    exact SymTab.consistent_symRebuild _ (s.length_block ▸ legal.2.1.trans rule.maxBlock.2)
  | symrst => exact SymTab.consistent_zero
  | symscan lim legal =>
    exact SymTab.consistent_scanTo s _ ((scanEnd_le _ _).trans legal.2.1) hs
  | _ => exact hs

theorem AccessEffect.consistent {s t : State} {a : Access} (hs : s.sym.Consistent)
    (h : AccessEffect s a t) : t.sym.Consistent := by
  cases h with
  | reset => exact SymTab.consistent_zero
  | _ => exact hs

/-- Settles O50: a table changes by scanning, by a rebuild and by a reset, which keep R121. -/
theorem stepsKeepTheSymbolTableConsistent : Obligations.StepsKeepTheSymbolTableConsistent := fun _ _ hs =>
  step_keeps (P := fun s => s.sym.Consistent) (fun _ _ hs => hs) (fun _ _ _ hs h => h.consistent hs)
    (fun _ _ hs => hs) (fun _ _ _ hs h => h.consistent hs) hs

/-! ### STATUS and the results stay legal (R104, R111, R112, R118) -/

theorem State.ResultsLegal.onlyStatus {s : State} (h : s.ResultsLegal) {e : Option CmdError} {na : Bool}
    (hna : e ≠ none → na = false) : (s.onlyStatus e na).ResultsLegal :=
  ⟨hna, nofun, nofun, h.bitlen_le, h.consumed_le, h.txtsel_ne⟩

/-- A success leaves no error, whatever CAP is. -/
theorem State.resultsLegal_succeeded {t : State} (cap : Bool) (hbit : t.bitlen.toNat ≤ 8192)
    (hcon : t.consumed.toNat ≤ 512) (htx : t.txtsel ≠ 3#2) : (t.succeeded cap).ResultsLegal :=
  ⟨fun h => absurd rfl h, fun _ => ⟨rfl, rfl⟩, nofun, hbit, hcon, htx⟩

theorem Effect.resultsLegal {i : Instr} {s t : State} (hs : s.ResultsLegal) (h : Effect s i t) :
    t.ResultsLegal := by
  cases h with
  | raised e => exact hs.onlyStatus fun _ => rfl
  | declined => exact hs.onlyStatus fun h => absurd rfl h
  | encoded c rule hc legal takes limit room =>
    refine State.resultsLegal_succeeded _ ?_ ?_ ?_
    · exact (Nat.mod_le _ _).trans (by omega)
    · exact (Nat.mod_le _ _).trans (hc ▸ rule.consumed_le legal)
    · rw [State.commitCoded_txtsel, hc]
      obtain he | ⟨-, -, hne⟩ := rule.txtsel_coded s (symRebuild s.block)
      · rw [he]
        exact hs.txtsel_ne
      · exact hne
  | decoded rule legal out p length forward room =>
    exact State.resultsLegal_succeeded _ ((Nat.mod_le _ _).trans (by omega))
      (legal.2.1.trans rule.maxBlock.2) hs.txtsel_ne
  | _ => exact State.resultsLegal_succeeded _ hs.bitlen_le hs.consumed_le hs.txtsel_ne

theorem AccessEffect.resultsLegal {s t : State} {a : Access} (hs : s.ResultsLegal)
    (h : AccessEffect s a t) : t.ResultsLegal := by
  have ⟨hna, hcap, hbusy, hbit, hcon, htx⟩ := hs
  cases h with
  | answered | enabled | lost | operand | blk | str => exact ⟨hna, hcap, hbusy, hbit, hcon, htx⟩
  | cleared w =>
    refine ⟨hna, hcap, fun hb => ?_, hbit, hcon, htx⟩
    obtain ⟨hdone, hrest⟩ := hbusy hb
    exact ⟨by simp [Status.clearBits, hdone], hrest⟩
  | reset =>
    exact ⟨nofun, nofun, nofun, (by decide : (0#14).toNat ≤ 8192), (by decide : (0#10).toNat ≤ 512),
      (by decide : 0#2 ≠ 3#2)⟩
  | started => exact ⟨nofun, nofun, fun _ => ⟨rfl, rfl, rfl, rfl⟩, hbit, hcon, htx⟩

theorem State.ResultsLegal.received {s : State} (h : s.ResultsLegal) (rest : List Access) :
    (s.received rest).ResultsLegal :=
  ⟨h.err_or_na, h.cap_alone, fun hb => h.busy_clear (by
    simpa [State.busy, State.received, State.landed] using hb), h.bitlen_le, h.consumed_le, h.txtsel_ne⟩

/-- Settles O51: a completion sets STATUS and the results within R104 to R118, an access only clears. -/
theorem stepsKeepTheResultsLegal : Obligations.StepsKeepTheResultsLegal := fun _ _ hs =>
  step_keeps (P := State.ResultsLegal) (fun _ _ hs => hs.onlyStatus fun _ => rfl)
    (fun _ _ _ hs h => h.resultsLegal hs) (fun _ rest hs => hs.received rest)
    (fun _ _ _ hs h => h.resultsLegal hs) hs

end Sys2Proof.Machine
end

section
/-! SUPPORT. What the host sees (20_memory.md R210 to R238, 60_exceptions.md R800, R808, R820,
70_reset_and_hazards.md R900, R902): which command a step runs, reads and writes of an idle and of a busy core,
the soft reset, and IRQ. -/

namespace Sys2Proof.Machine

/-! ### Executing the latched word (R304, R305, R800) -/

/-- A command that R304 calls illegal raises E_BADCMD. -/
theorem exec_of_not_wellFormed {i : Instr} (h : i.wellFormed = false) (s : State) :
    exec i s = .next (s.onlyStatus (some .badCmd) false) := by
  cases i with
  | putbits val nb => exact exec_putbits_of_illegal h val
  | getbits nb => exact exec_getbits_of_illegal h
  | peekbits nb => exact exec_peekbits_of_illegal h
  | _ => cases h

/-- Settles O5: an illegal word is one that does not decode, or one whose command has an illegal width. -/
theorem illegalWordsCompleteWithBadCmd : Obligations.IllegalWordsCompleteWithBadCmd := by
  intro s w hrun hillegal
  rw [step_of_commandToRun hrun, runWord]
  cases hdec : decode w with
  | error e => rfl
  | ok i =>
    refine exec_of_not_wellFormed (Bool.eq_false_of_not_eq_true fun hwf => ?_) s
    exact hillegal ((legalWordsAreThoseOfTheOpcodeMap w).1 ⟨i, hdec, hwf⟩)

/-- A busy core is due when no access is to come, a WAIT is, or none is left to land. -/
theorem commandToRun_of_due {s : State} {r : Running} (h : s.running = some r)
    (hdue : s.inbox = [] ∨ (∃ rest, s.inbox = .wait :: rest) ∨ r.accessesLeft = 0) :
    s.commandToRun = some r.word := by
  simp only [State.commandToRun, h]
  obtain hbox | ⟨rest, hbox⟩ | hleft := hdue
  · rw [hbox]
  · rw [hbox]
  · split
    · rfl
    · rfl
    · exact if_pos hleft
    · exact if_pos hleft

theorem tableWord_toNat (w : Word) : tableWord 32 w.toNat = w := by
  rw [tableWord, Nat.mod_eq_of_lt w.isLt, BitVec.ofNat_toNat, BitVec.setWidth_eq]

theorem step_of_decode {s : State} {w : Word} {i : Instr} (hrun : s.commandToRun = some w)
    (hdec : decode w = .ok i) : step s = exec i s := by
  rw [step_of_commandToRun hrun, runWord, hdec]

/-- Settles O6, from O1 for a word placed by `withFetchWord`. -/
theorem stepRunsTheDecodedCommand : Obligations.StepRunsTheDecodedCommand := by
  refine ⟨fun s w i => step_of_decode, fun s r => commandToRun_of_due, fun s i => ?_⟩
  refine step_of_decode (w := encode i) ?_ (decodeOfEncodeIsTheCommand i)
  rw [State.withFetchWord, tableWord_toNat]
  exact commandToRun_of_due (r := ⟨encode i, 0⟩) rfl (.inr (.inr rfl))

/-- Settles O7: a command answers a next state, and so does an access. -/
theorem everyStepAnswersANextState : Obligations.EveryStepAnswersANextState := by
  intro s
  cases hrun : s.commandToRun with
  | none => exact ⟨s.hostTurn, by rw [step, hrun]⟩
  | some w =>
    rw [step_of_commandToRun hrun, runWord]
    cases decode w with
    | error e => exact ⟨_, rfl⟩
    | ok i => exact (exec_effect i s).imp fun _ h => h.1

/-! ### Reset and the STATUS word (R104, R900) -/

/-- Settles O52. -/
theorem resetStateIsTheSpecs : Obligations.ResetStateIsTheSpecs := by
  refine ⟨rfl, rfl, rfl, rfl, rfl, rfl, rfl, rfl, rfl, rfl, rfl, rfl, rfl, rfl, rfl, fun v => ?_, rfl, rfl,
    rfl, rfl, ⟨rfl, rfl, rfl, rfl⟩, SymTab.consistent_zero, ⟨nofun, nofun, nofun, by decide, by decide,
      by decide⟩⟩
  simp [State.reset, SymTab.zero, SymTab.seenAt, SymTab.rankAt, SymTab.occAt, SymTab.uniqAt]

/-- R104's fields are read from the word at their places, whatever they are. -/
theorem statusFields_placed : ∀ (ovr cap na done busy : Bool) (code : BitVec 3),
    let w : Word := 0#21 ++ BitVec.ofBool ovr ++ BitVec.ofBool cap ++ BitVec.ofBool na ++ 0#1 ++ code ++ 0#2
      ++ BitVec.ofBool done ++ BitVec.ofBool busy
    w.getLsbD 0 = busy ∧ w.getLsbD 1 = done ∧ w.extractLsb' 4 3 = code ∧ w.getLsbD 8 = na ∧
      w.getLsbD 9 = cap ∧ w.getLsbD 10 = ovr ∧ w.extractLsb' 2 2 = 0#2 ∧ w.getLsbD 7 = false ∧
      w.extractLsb' 11 21 = 0#21 := by
  decide

/-- Settles O54: the word is the fields side by side. -/
theorem statusWordHasItsLayout : Obligations.StatusWordHasItsLayout := by
  intro s
  have h := statusFields_placed s.status.ovr s.status.cap s.status.na s.status.done s.running.isSome
    (errCode s.status.err)
  obtain ⟨hbusy, hdone, hcode, hrest⟩ := h
  refine ⟨hbusy, hdone, hcode.trans ?_, hrest⟩
  rcases s.status.err with _ | ⟨⟨⟩⟩ <;> rfl

/-! ### A host access that lands (R213, R230, R235) -/

theorem received_of_idle {s : State} (h : s.running = none) (rest : List Access) :
    s.received rest = { s with inbox := rest } := by
  simp only [State.received, State.landed, h, Option.map_none]

theorem received_of_busy {s : State} {r : Running} (h : s.running = some r) (rest : List Access) :
    s.received rest = { s with inbox := rest, running := some ⟨r.word, r.accessesLeft - 1⟩ } := by
  simp only [State.received, State.landed, h, Option.map_some]

theorem step_of_idle {s : State} {a : Access} {rest : List Access} (h : s.running = none)
    (hbox : s.inbox = a :: rest) : step s = .next (State.perform { s with inbox := rest } a) := by
  have hrun : s.commandToRun = none := by rw [State.commandToRun, h]
  rw [step_of_access hrun hbox, received_of_idle h]

/-- A busy core with an access left to land lets a read or a write take effect. -/
theorem step_of_busy {s : State} {r : Running} {a : Access} {rest : List Access} (h : s.running = some r)
    (hleft : 1 ≤ r.accessesLeft) (ha : a ≠ .wait) (hbox : s.inbox = a :: rest) :
    step s = .next (State.perform
      { s with inbox := rest, running := some ⟨r.word, r.accessesLeft - 1⟩ } a) := by
  have hrun : s.commandToRun = none := by
    simp only [State.commandToRun, h, hbox]
    cases a with
    | wait => exact absurd rfl ha
    | read | write => exact if_neg (by omega)
  rw [step_of_access hrun hbox, received_of_busy h]

section
variable (s : State) {off : BitVec 14}

theorem hostRead_of_misaligned (h : off.toNat % 4 ≠ 0) : s.hostRead off = s.answer .busError := if_pos h

theorem hostRead_exact (h : off.toNat % 4 = 0)
    (hex : (s.busy && !(target off.toNat).exactWhileBusy) = false) :
    s.hostRead off = s.answer (.data (s.readTarget (target off.toNat))) := by
  rw [State.hostRead, if_neg (not_not.2 h), hex]
  rfl

theorem hostRead_drawn (h : off.toNat % 4 = 0)
    (hex : (s.busy && !(target off.toNat).exactWhileBusy) = true) :
    s.hostRead off =
      { s with reply := .data (Config.busyReadWord s.draws), draws := s.draws + 1 } := by
  rw [State.hostRead, if_neg (not_not.2 h), if_pos hex]

theorem hostWrite_of_bad {lanes : BitVec 4} (w : Word) (h : off.toNat % 4 ≠ 0 ∨ lanes ≠ 0xF#4) :
    s.hostWrite off lanes w = s.answer .busError := if_pos h

theorem hostWrite_taken (w : Word) (h : off.toNat % 4 = 0)
    (hfree : (s.busy && (target off.toNat).lockedWhileBusy) = false) :
    s.hostWrite off 0xF#4 w = (s.writeTarget w (target off.toNat)).answer .accepted := by
  rw [State.hostWrite, if_neg (by simp [h]), hfree]
  rfl

theorem hostWrite_lost (w : Word) (h : off.toNat % 4 = 0)
    (hlost : (s.busy && (target off.toNat).lockedWhileBusy) = true) :
    s.hostWrite off 0xF#4 w = s.setOvr.answer .accepted := by
  rw [State.hostWrite, if_neg (by simp [h]), if_pos hlost]

end

/-! ### Words of a memory (R210) -/

/-- Byte j of a little-endian read is the byte at a + j. -/
theorem readLE_div_mod (d : Nat → Byte) (m : Memory) (a n j : Nat) (h : j < n) :
    m.readLE d a n / 256 ^ j % 256 = (m.read d (a + j)).toNat := by
  induction n generalizing a j with
  | zero => omega
  | succ n ih =>
    rw [Memory.readLE]
    have := (m.read d a).isLt
    cases j with
    | zero =>
      rw [pow_zero, Nat.div_one]
      simp only [Nat.add_zero]
      omega
    | succ j =>
      rw [pow_succ', ← Nat.div_div_eq_div_mul, show
        ((m.read d a).toNat + 256 * m.readLE d (a + 1) n) / 256 = m.readLE d (a + 1) n by omega,
        ih _ _ (by omega), Nat.add_assoc, Nat.add_comm 1]

theorem extractLsb'_readLE (d : Nat → Byte) (m : Memory) (a : Nat) {j : Nat} (h : j < 4) :
    (BitVec.ofNat 32 (m.readLE d a 4)).extractLsb' (8 * j) 8 = m.read d (a + j) := by
  apply BitVec.eq_of_toNat_eq
  rw [← readLE_div_mod d m a 4 j h, BitVec.extractLsb'_toNat, BitVec.toNat_ofNat, Nat.shiftRight_eq_div_pow]
  obtain rfl | rfl | rfl | rfl : j = 0 ∨ j = 1 ∨ j = 2 ∨ j = 3 := by omega
  all_goals omega

/-- The bits of a word of STR are the stream bits in order (R14, R211). -/
theorem getLsbD_of_bytes {w : Word} {m : Memory} {k : Nat}
    (h : ∀ j < 4, w.extractLsb' (8 * j) 8 = m.read Config.powerOnStr (4 * k + j)) {j : Nat} (hj : j < 32) :
    w.getLsbD j = strBit m (32 * k + j) := by
  have hbyte := congrArg (BitVec.getLsbD · (j % 8)) (h (j / 8) (by omega))
  simp only [BitVec.getLsbD_extractLsb', Nat.mod_lt j (show 0 < 8 by decide), decide_true, Bool.true_and,
    Nat.div_add_mod] at hbyte
  rw [hbyte, strBit, show (32 * k + j) / 8 = 4 * k + j / 8 by omega, show (32 * k + j) % 8 = j % 8 by omega]

/-! ### Reads of an idle core -/

/-- R101's table is what the window map reads at the registers' offsets. -/
theorem readTarget_of_registerWords (s : State) : ∀ p ∈ registerWords s,
    p.1.toNat % 4 = 0 ∧ s.readTarget (target p.1.toNat) = p.2 := by
  simp only [registerWords, List.cons_append, List.nil_append, List.forall_mem_cons]
  exact ⟨⟨rfl, rfl⟩, ⟨rfl, rfl⟩, ⟨rfl, rfl⟩, ⟨rfl, rfl⟩, ⟨rfl, rfl⟩, ⟨rfl, rfl⟩, ⟨rfl, rfl⟩, ⟨rfl, rfl⟩,
    ⟨rfl, rfl⟩, ⟨rfl, rfl⟩, ⟨rfl, rfl⟩, ⟨rfl, rfl⟩, ⟨rfl, rfl⟩, ⟨rfl, rfl⟩, ⟨rfl, rfl⟩, ⟨rfl, rfl⟩,
    ⟨rfl, rfl⟩, List.forall_mem_nil _⟩

/-- Settles O53: an idle core answers an aligned read with the word of the offset's target. -/
theorem idleReadsReturnTheMappedWord : Obligations.IdleReadsReturnTheMappedWord := by
  intro s off rest hidle hbox
  have hstep := step_of_idle hidle hbox
  by_cases halign : off.toNat % 4 = 0
  · have hread := hostRead_exact { s with inbox := rest } halign (by simp [State.busy, hidle])
    refine ⟨.data (s.readTarget (target off.toNat)), hstep.trans (congrArg _ hread),
      fun h => absurd halign h, fun w hw => ?_, fun k hk hoff => ?_, fun k hk hoff => ?_, fun _ hres => ?_⟩
    · rw [(readTarget_of_registerWords s _ hw).2]
    · rw [hoff, target_blk (by omega)]
      exact ⟨_, rfl, fun j hj => extractLsb'_readLE _ _ _ hj⟩
    · have hbytes (j) (hj : j < 4) := extractLsb'_readLE Config.powerOnStr s.str (4 * k) hj
      rw [hoff, target_str (by omega)]
      exact ⟨_, rfl, hbytes, fun j hj => getLsbD_of_bytes hbytes hj⟩
    · rw [target_reserved hres]
      rfl
  · have hread := hostRead_of_misaligned { s with inbox := rest } halign
    refine ⟨.busError, hstep.trans (congrArg _ hread), fun _ => rfl, fun w hw => ?_, fun k hk hoff => ?_,
      fun k hk hoff => ?_, fun h => absurd h halign⟩
    · exact absurd (readTarget_of_registerWords s _ hw).1 halign
    · omega
    · omega

/-! ### Writes -/

/-- R102, R222: read-only registers and reserved offsets keep everything, and their writes are never lost. -/
theorem writeTarget_readOnly {off : Nat} (h : off = 0 ∨ (0x020 ≤ off ∧ off < 0x1000) ∨
    (0x1200 ≤ off ∧ off < 0x2000) ∨ 0x2400 ≤ off) (s : State) (w : Word) :
    s.writeTarget w (target off) = s ∧ (target off).lockedWhileBusy = false := by
  cases ht : target off with
  | reserved => exact ⟨rfl, rfl⟩
  | blk m => have := target_eq_blk ht; omega
  | str m => have := target_eq_str ht; omega
  | reg r =>
    have hr := ofOffset_cases (target_eq_reg ht)
    cases r with
    | id | data | bitlen | consumed | ucnt | scanpos | textcnt | oracc | svval | txtsel => exact ⟨rfl, rfl⟩
    | ctrl | status | cmd | cur | n | base | limit =>
      simp only [List.mem_cons, Prod.mk.injEq, List.not_mem_nil, or_false, reduceCtorEq, and_false,
        false_or, and_true] at hr
      omega

theorem target_ctrl : target (0x004#14).toNat = .reg .ctrl := rfl

/-- R105: with SRST 0 a CTRL write stores IE. -/
theorem writeTarget_ctrl {s : State} {w : Word} (h : w.getLsbD 1 = false) :
    s.writeTarget w (.reg .ctrl) = { s with ie := w.getLsbD 0 } := if_neg (by rw [h]; nofun)

theorem writeTarget_ctrl_reset {s : State} {w : Word} (h : w.getLsbD 1 = true) :
    s.writeTarget w (.reg .ctrl) = s.softReset := if_pos h

theorem read_writeLE_word (d : Nat → Byte) (m : Memory) (a : Nat) (w : Word) {j : Nat} (h : j < 4) :
    (m.writeLE a w.toNat 4).read d (a + j) = w.extractLsb' (8 * j) 8 := by
  rw [Memory.read_writeLE_inside _ _ _ _ _ _ h]
  apply BitVec.eq_of_toNat_eq
  rw [BitVec.toNat_ofNat, BitVec.extractLsb'_toNat, Nat.shiftRight_eq_div_pow, pow_mul]
  norm_num

/-- Settles O55: an idle core takes every full-width aligned write, by its target. -/
theorem idleWritesStoreOrStart : Obligations.IdleWritesStoreOrStart := by
  intro s off lanes w rest hidle hbox
  have hstep := step_of_idle hidle hbox
  refine ⟨fun hbad => hstep.trans (congrArg _ (hostWrite_of_bad _ w hbad)), ?_⟩
  rintro rfl
  have hwrite (halign : off.toNat % 4 = 0) := hstep.trans (congrArg Host.Outcome.next
    (hostWrite_taken { s with inbox := rest } w halign (by simp [State.busy, hidle])))
  refine ⟨?_, ?_, ?_, ?_, ?_, ?_, ?_, fun halign hro => ?_, fun k hk hoff => ?_, fun k hk hoff => ?_⟩
  · rintro rfl; exact hwrite rfl
  · rintro rfl; exact hwrite rfl
  · rintro rfl; exact hwrite rfl
  · rintro rfl; exact hwrite rfl
  · rintro rfl; exact ⟨_, hwrite rfl⟩
  · rintro rfl; exact hwrite rfl
  · rintro rfl hsrst
    rw [hwrite rfl, target_ctrl, writeTarget_ctrl hsrst]
    rfl
  · have hro' : off.toNat = 0 ∨ (0x020 ≤ off.toNat ∧ off.toNat < 0x1000) ∨
        (0x1200 ≤ off.toNat ∧ off.toNat < 0x2000) ∨ 0x2400 ≤ off.toNat :=
      hro.imp_left fun h => by rw [h]; rfl
    rw [hwrite halign, (writeTarget_readOnly hro' _ w).1]
    rfl
  · rw [hwrite (by omega), hoff, target_blk (by omega)]
    exact ⟨_, rfl, fun j hj => read_writeLE_word _ _ _ w hj,
      fun a ha => Memory.read_writeLE_outside _ _ _ _ _ _ ha⟩
  · rw [hwrite (by omega), hoff, target_str (by omega)]
    exact ⟨_, rfl, fun j hj => read_writeLE_word _ _ _ w hj,
      fun a ha => Memory.read_writeLE_outside _ _ _ _ _ _ ha⟩

/-! ### Accesses of a busy core (R230, R231, R808) -/

/-- R230's list of what is dropped while BUSY. -/
theorem lockedWhileBusy_of {off : BitVec 14} (h : off = 0x00C#14 ∨ off = 0x010#14 ∨ off = 0x014#14 ∨
    off = 0x018#14 ∨ off = 0x01C#14 ∨ (off.toNat % 4 = 0 ∧ 0x1000 ≤ off.toNat ∧ off.toNat < 0x1200) ∨
    (off.toNat % 4 = 0 ∧ 0x2000 ≤ off.toNat ∧ off.toNat < 0x2400)) :
    off.toNat % 4 = 0 ∧ (target off.toNat).lockedWhileBusy = true := by
  obtain rfl | rfl | rfl | rfl | rfl | ⟨halign, hlo, hhi⟩ | ⟨halign, hlo, hhi⟩ := h
  · exact ⟨rfl, rfl⟩
  · exact ⟨rfl, rfl⟩
  · exact ⟨rfl, rfl⟩
  · exact ⟨rfl, rfl⟩
  · exact ⟨rfl, rfl⟩
  · obtain ⟨m, hm⟩ := Nat.exists_eq_add_of_le hlo
    rw [hm, target_blk (by omega), ← hm]
    exact ⟨halign, rfl⟩
  · obtain ⟨m, hm⟩ := Nat.exists_eq_add_of_le hlo
    rw [hm, target_str (by omega), ← hm]
    exact ⟨halign, rfl⟩

/-- R231's list of what reads as a free value while BUSY. -/
theorem not_exactWhileBusy_of {off : BitVec 14} (h : off = 0x00C#14 ∨
    (off.toNat % 4 = 0 ∧ 0x010 ≤ off.toNat ∧ off.toNat ≤ 0x040) ∨
    (off.toNat % 4 = 0 ∧ 0x1000 ≤ off.toNat ∧ off.toNat < 0x1200) ∨
    (off.toNat % 4 = 0 ∧ 0x2000 ≤ off.toNat ∧ off.toNat < 0x2400)) :
    off.toNat % 4 = 0 ∧ (target off.toNat).exactWhileBusy = false := by
  obtain rfl | ⟨halign, hlo, hhi⟩ | ⟨halign, hlo, hhi⟩ | ⟨halign, hlo, hhi⟩ := h
  · exact ⟨rfl, rfl⟩
  · have hreg : ∀ k < 13, (target (0x10 + 4 * k)).exactWhileBusy = false := by decide
    have := hreg ((off.toNat - 0x10) / 4) (by omega)
    rw [show 0x10 + 4 * ((off.toNat - 0x10) / 4) = off.toNat by omega] at this
    exact ⟨halign, this⟩
  · obtain ⟨m, hm⟩ := Nat.exists_eq_add_of_le hlo
    rw [hm, target_blk (by omega), ← hm]
    exact ⟨halign, rfl⟩
  · obtain ⟨m, hm⟩ := Nat.exists_eq_add_of_le hlo
    rw [hm, target_str (by omega), ← hm]
    exact ⟨halign, rfl⟩

/-- Settles O56: a busy core drops, takes, answers or draws by the target. -/
theorem busyAccessesDropStoreOrDraw : Obligations.BusyAccessesDropStoreOrDraw := by
  intro s r rest hrun hleft
  have hstep {a : Access} (hbox : s.inbox = a :: rest) (ha : a ≠ .wait) := step_of_busy hrun hleft ha hbox
  refine ⟨fun off lanes w h => ?_, fun off w hbox hlock => ?_, fun off w hbox => ?_, fun off hbox => ?_⟩
  · obtain ⟨hbox, hbad⟩ | ⟨hbox, hbad⟩ := h
    · exact (hstep hbox nofun).trans (congrArg _ (hostWrite_of_bad _ w hbad))
    · exact (hstep hbox nofun).trans (congrArg _ (hostRead_of_misaligned _ hbad))
  · obtain ⟨halign, hlock⟩ := lockedWhileBusy_of hlock
    exact (hstep hbox nofun).trans (congrArg _ (hostWrite_lost _ w halign hlock))
  · have hwrite (halign : off.toNat % 4 = 0) (hfree : (target off.toNat).lockedWhileBusy = false) :=
      (hstep hbox nofun).trans (congrArg Host.Outcome.next (hostWrite_taken
        { s with inbox := rest, running := some ⟨r.word, r.accessesLeft - 1⟩ } w halign
        (by rw [hfree, Bool.and_false])))
    refine ⟨?_, ?_, fun halign hro => ?_⟩
    · rintro rfl; exact hwrite rfl rfl
    · rintro rfl hsrst
      rw [hwrite rfl rfl, target_ctrl, writeTarget_ctrl hsrst]
      rfl
    · have hro' : off.toNat = 0 ∨ (0x020 ≤ off.toNat ∧ off.toNat < 0x1000) ∨
          (0x1200 ≤ off.toNat ∧ off.toNat < 0x2000) ∨ 0x2400 ≤ off.toNat :=
        hro.imp_left fun h => by rw [h]; rfl
      rw [hwrite halign (writeTarget_readOnly hro' s w).2, (writeTarget_readOnly hro' _ w).1]
      rfl
  · refine ⟨fun w h => ?_, fun h => ?_⟩
    · have hread (halign : off.toNat % 4 = 0) (hex : (target off.toNat).exactWhileBusy = true) :=
        (hstep hbox nofun).trans (congrArg Host.Outcome.next (hostRead_exact
          { s with inbox := rest, running := some ⟨r.word, r.accessesLeft - 1⟩ } halign
          (by rw [hex, Bool.not_true, Bool.and_false])))
      obtain ⟨rfl, rfl⟩ | ⟨rfl, rfl⟩ | ⟨rfl, rfl⟩ := h
      · exact hread rfl rfl
      · exact hread rfl rfl
      · refine (hread rfl rfl).trans ?_
        have hbusy : s.busy = true := by rw [State.busy, hrun]; rfl
        simp only [State.answer, State.statusWord, hbusy]
        rfl
    · obtain ⟨halign, hex⟩ := not_exactWhileBusy_of h
      exact ⟨_, (hstep hbox nofun).trans (congrArg _ (hostRead_drawn _ halign (by rw [hex]; rfl)))⟩

/-! ### From a busy state (R224, R235, R920) -/

/-- A busy core that is not due has an access to come and accesses left to land. -/
theorem accessesLeft_pos {s : State} {r : Running} (h : s.running = some r) (hrun : s.commandToRun = none) :
    s.inbox ≠ [] ∧ 1 ≤ r.accessesLeft := by
  constructor
  · intro hbox
    cases hrun.symm.trans (commandToRun_of_due h (.inl hbox))
  · by_contra hleft
    cases hrun.symm.trans (commandToRun_of_due h (.inr (.inr (by omega))))

theorem word_of_commandToRun {s : State} {r : Running} {w : Word} (h : s.running = some r)
    (hrun : s.commandToRun = some w) : w = r.word := by
  simp only [State.commandToRun, h] at hrun
  split at hrun
  · exact (Option.some.inj hrun).symm
  · exact (Option.some.inj hrun).symm
  · split_ifs at hrun
    exact (Option.some.inj hrun).symm
  · split_ifs at hrun
    exact (Option.some.inj hrun).symm

theorem completes_of_exec {i : Instr} {s t : State} (h : exec i s = .next t) :
    t.running = none ∧ t.status.done = true := by
  obtain ⟨t', h', hrun, hdone, -⟩ := everyCommandCompletes i s
  cases h.symm.trans h'
  exact ⟨hrun, hdone⟩

/-- An access to a busy core resets it, or leaves it running with all that a command reads and writes. -/
theorem AccessEffect.of_busy {s t : State} {a : Access} {r : Running} (h : AccessEffect s a t)
    (hrun : s.running = some r) :
    (∃ w, a = .write 0x004#14 0xF#4 w ∧ w.getLsbD 1 = true ∧ t.running = none ∧ t.status = Status.zero) ∨
    (t.running = some r ∧ t.cur = s.cur ∧ t.n = s.n ∧ t.base = s.base ∧ t.limit = s.limit ∧
      t.data = s.data ∧ t.bitlen = s.bitlen ∧ t.consumed = s.consumed ∧ t.svval = s.svval ∧
      t.txtsel = s.txtsel ∧ t.sym = s.sym ∧ t.blk = s.blk ∧ t.str = s.str) := by
  cases h with
  | reset w _ hsrst => exact .inl ⟨w, rfl, hsrst, rfl, rfl⟩
  | answered | lost | cleared | enabled =>
    exact .inr ⟨hrun, rfl, rfl, rfl, rfl, rfl, rfl, rfl, rfl, rfl, rfl, rfl, rfl⟩
  | started _ _ _ _ _ idle | operand _ _ _ _ _ _ idle | blk _ _ _ _ idle | str _ _ _ _ idle =>
    cases hrun.symm.trans idle

/-- Settles O57: only the completion and the soft reset touch what a running command works on. -/
theorem nothingOfARunningCommandIsSeen : Obligations.NothingOfARunningCommandIsSeen := by
  intro s t r hrun h
  obtain ⟨w, hword, hdone⟩ | ⟨hnone, hbox, -⟩ | ⟨hnone, a, rest, hbox, ha⟩ := step_cases h
  · refine .inl ⟨by rw [hword, word_of_commandToRun hrun hword], ?_⟩
    obtain ⟨e, -, rfl⟩ | ⟨i, -, hi⟩ := hdone
    · exact ⟨rfl, rfl⟩
    · exact completes_of_exec hi
  · exact absurd hbox (accessesLeft_pos hrun hnone).1
  · have hleft := (accessesLeft_pos hrun hnone).2
    rw [received_of_busy hrun] at ha
    obtain ⟨w, rfl, hsrst, hend⟩ | ⟨hstill, hkept⟩ := ha.of_busy rfl
    · exact .inr (.inl ⟨hnone, w, rest, hbox, hsrst, hend⟩)
    · exact .inr (.inr ⟨hnone, ⟨_, Nat.sub_add_cancel hleft, hstill⟩, hkept⟩)

/-! ### The soft reset (R902) -/

theorem encoderBody_of_isDecoder {i : Instr} (h : i.isDecoder) (s : State) :
    encoderBody i s = none ∧ isDecoder i = true := by
  cases i with
  | fwdec | svdec | p7dec | txtdec | strdec | xstrdec => exact ⟨rfl, rfl⟩
  | _ => exact h.elim

theorem encoderBody_of_isEncoder {i : Instr} (h : i.isEncoder) (s : State) :
    ∃ b, encoderBody i s = some b := by
  cases i with
  | fwenc | svenc | p7enc | txtenc | strenc | xstrenc => exact ⟨_, rfl⟩
  | _ => exact h.elim

theorem encoderBody_of_neither {i : Instr} (hd : ¬i.isDecoder) (he : ¬i.isEncoder) (s : State) :
    encoderBody i s = none ∧ isDecoder i = false := by
  cases i with
  | nop | putbits | getbits | peekbits | symrst | symscan | rdrank | rduniq | rdocc => exact ⟨rfl, rfl⟩
  | fwdec | svdec | p7dec | txtdec | strdec | xstrdec => exact absurd trivial hd
  | fwenc | svenc | p7enc | txtenc | strenc | xstrenc => exact absurd trivial he

section
variable {s : State} {w : Word} {i : Instr}

theorem abort_of_error {e : Illegal} (hdec : decode w = .error e) : s.abort w = s := by
  rw [State.abort, hdec]

/-- An aborted decoder forgets its block. -/
theorem abort_of_isDecoder (hdec : decode w = .ok i) (h : i.isDecoder) :
    (s.abort w).str = s.str ∧ ∀ a, ¬(s.base.toNat ≤ a ∧ a < s.base.toNat + s.n.toNat) →
      (s.abort w).blk.read Config.powerOnBlk a = s.blkByte a := by
  obtain ⟨hbody, hd⟩ := encoderBody_of_isDecoder h s
  simp only [State.abort, hdec, hbody, hd, if_true]
  exact ⟨trivial, fun a ha => Memory.read_forget_outside _ _ _ _ _ _ (by omega)⟩

/-- An aborted encoder forgets the bytes of the output it would have committed. -/
theorem abort_of_isEncoder {t : State} (hdec : decode w = .ok i) (h : i.isEncoder) (ht : exec i s = .next t) :
    (s.abort w).blk = s.blk ∧ (¬t.succeededNow → (s.abort w).str = s.str) ∧
      ∀ a, a < s.cur.toNat / 8 ∨ (s.cur.toNat + t.bitlen.toNat - 1) / 8 < a →
        (s.abort w).str.read Config.powerOnStr a = s.strByte a := by
  obtain ⟨b, hbody⟩ := encoderBody_of_isEncoder h s
  have hexec := (encoderBody_eq_some hbody).2
  simp only [State.abort, hdec, hbody]
  cases b with
  | raise | notApplicable => exact ⟨rfl, fun _ => rfl, fun a _ => rfl⟩
  | commit u capped =>
    rw [complete_commit, ht] at hexec
    cases hexec
    refine ⟨rfl, fun hfail => absurd ⟨rfl, rfl⟩ hfail, fun a ha => ?_⟩
    rw [State.succeeded_bitlen] at ha
    exact Memory.read_forget_outside _ _ _ _ _ _ (by omega)

theorem abort_of_neither (hdec : decode w = .ok i) (hd : ¬i.isDecoder) (he : ¬i.isEncoder) :
    s.abort w = s := by
  obtain ⟨hbody, hnot⟩ := encoderBody_of_neither hd he s
  simp only [State.abort, hdec, hbody, hnot, Bool.false_eq_true, if_false]

end

/-- Whether an encoder succeeds, and with how many bits, depends neither on the accesses to come nor on what
is running. -/
theorem succeededNow_of_received {i : Instr} {s t : State} (henc : i.isEncoder) (h : exec i s = .next t)
    (ht : t.succeededNow) (inbox : List Access) (running : Option Running) :
    ∃ t', exec i { s with inbox := inbox, running := running } = .next t' ∧ t'.succeededNow ∧
      t'.bitlen = t.bitlen := by
  obtain ⟨maxn, declines, coded, rule⟩ := encoderRule_of_isEncoder henc
  obtain ⟨legal, takes, limit, room, rfl⟩ := rule.of_succeededNow h ht rfl
  exact ⟨_, rule.exec_of_room (s := { s with inbox := inbox, running := running }) legal takes
    (rule.coded_congr (s := s) _ rfl rfl rfl rfl) limit room, ⟨rfl, rfl⟩, rfl⟩

/-- R902's second half: the memories after the soft reset of a busy core, by the command that runs. -/
theorem abort_received {s : State} {r : Running} {i : Instr} (rest : List Access)
    (hdec : decode r.word = .ok i) :
    (i.isDecoder → ((s.received rest).abort r.word).str = s.str ∧
      ∀ a, ¬(s.base.toNat ≤ a ∧ a < s.base.toNat + s.n.toNat) →
        ((s.received rest).abort r.word).blk.read Config.powerOnBlk a = s.blkByte a) ∧
    (i.isEncoder → ((s.received rest).abort r.word).blk = s.blk ∧ ∀ t, exec i s = .next t →
      (¬t.succeededNow → ((s.received rest).abort r.word).str = s.str) ∧
      (t.succeededNow → ∀ a, a < s.cur.toNat / 8 ∨ (s.cur.toNat + t.bitlen.toNat - 1) / 8 < a →
        ((s.received rest).abort r.word).str.read Config.powerOnStr a = s.strByte a)) ∧
    (¬i.isDecoder → ¬i.isEncoder →
      ((s.received rest).abort r.word).blk = s.blk ∧ ((s.received rest).abort r.word).str = s.str) := by
  refine ⟨fun hd => abort_of_isDecoder (s := s.received rest) hdec hd, fun he => ?_, fun hd he => ?_⟩
  · obtain ⟨t', ht', -⟩ := exec_effect i (s.received rest)
    obtain ⟨hblk, hfail, hsucc⟩ := abort_of_isEncoder hdec he ht'
    refine ⟨hblk, fun t ht => ⟨fun hnot => hfail fun hyes => hnot ?_, fun hyes => ?_⟩⟩
    · obtain ⟨u, hu, husucc, -⟩ := succeededNow_of_received he ht' hyes s.inbox s.running
      cases ht.symm.trans hu
      exact husucc
    · obtain ⟨u, hu, -, hbits⟩ := succeededNow_of_received he ht hyes rest (s.received rest).running
      cases ht'.symm.trans hu
      rw [← hbits]
      exact hsucc
  · rw [abort_of_neither hdec hd he]
    exact ⟨rfl, rfl⟩

/-- A CTRL write with SRST 1 resets the core, whatever it does. -/
theorem step_of_reset {s : State} {w : Word} {rest : List Access} (hrun : s.commandToRun = none)
    (hbox : s.inbox = .write 0x004#14 0xF#4 w :: rest) (hsrst : w.getLsbD 1 = true) :
    step s = .next ((s.received rest).softReset.answer .accepted) := by
  rw [step_of_access hrun hbox, State.perform, hostWrite_taken _ w rfl (Bool.and_false _), target_ctrl,
    writeTarget_ctrl_reset hsrst]

/-- Settles O58. -/
theorem softResetClearsAllButTheMemories : Obligations.SoftResetClearsAllButTheMemories := by
  intro s w rest hnone hbox hsrst
  have hstep := step_of_reset hnone hbox hsrst
  cases hrun : s.running with
  | none =>
    refine ⟨s.blk, s.str, s.draws, ?_, fun _ => ⟨rfl, rfl, rfl⟩, nofun, nofun⟩
    rw [hstep, received_of_idle hrun, State.softReset]
    simp only [hrun]
    rfl
  | some r =>
    have hr : (s.received rest).softReset.answer .accepted = { State.reset with
        blk := ((s.received rest).abort r.word).blk, str := ((s.received rest).abort r.word).str,
        draws := ((s.received rest).abort r.word).draws, inbox := rest, reply := .accepted } := by
      rw [State.softReset, received_of_busy hrun]
      rfl
    refine ⟨_, _, _, hstep.trans (congrArg _ hr), nofun, ?_, ?_⟩
    · rintro _ e ⟨⟩ hdec
      rw [abort_of_error hdec]
      exact ⟨rfl, rfl⟩
    · rintro _ i ⟨⟩ hdec
      exact abort_received rest hdec

/-! ### IRQ (R820) -/

/-- Settles O59: a completion sets DONE and keeps IE; each clearing write clears one of the two. -/
theorem interruptFollowsDoneAndEnable : Obligations.InterruptFollowsDoneAndEnable := by
  refine ⟨fun i s t h => ?_, fun s off w rest hidle hbox h => ?_⟩
  · obtain ⟨-, -, -, hie, -⟩ := registersChangeOnlyByTheirCommands i s t h
    rw [State.irq, (completes_of_exec h).2, hie, Bool.true_and]
  · have hstep (halign : off.toNat % 4 = 0) := (step_of_idle hidle hbox).trans (congrArg Host.Outcome.next
      (hostWrite_taken { s with inbox := rest } w halign (by simp [State.busy, hidle])))
    obtain ⟨rfl, hclear⟩ | rfl | ⟨rfl, hie⟩ | ⟨rfl, hsrst⟩ := h
    · refine ⟨_, hstep rfl, ?_⟩
      have hdone : (s.status.clearBits w).done = false := by rw [Status.clearBits, hclear]; simp
      exact congrArg (· && s.ie) hdone
    · exact ⟨_, hstep rfl, rfl⟩
    · refine ⟨_, hstep rfl, ?_⟩
      rw [target_ctrl]
      cases hsrst : w.getLsbD 1 with
      | true => rw [writeTarget_ctrl_reset hsrst]; rfl
      | false => rw [writeTarget_ctrl hsrst]; exact (congrArg _ hie).trans (Bool.and_false _)
    · refine ⟨_, hstep rfl, ?_⟩
      rw [target_ctrl, writeTarget_ctrl_reset hsrst]
      rfl

end Sys2Proof.Machine
end

section
/-! SUPPORT. The scanner's commands (41_symbol_table.md): what scanning a list of bytes does to a table, and
SYMRST, SYMSCAN and the table reads. -/

namespace Sys2Proof.Machine

/-! ### Scanning a list of bytes (R451) -/

theorem SymTab.seenAt_scanBytes (x : List Byte) (t : SymTab) (w : Byte) :
    (t.scanBytes x).seenAt w = true ↔ t.seenAt w = true ∨ w ∈ x := by
  induction x generalizing t with
  | nil => simp [SymTab.scanBytes]
  | cons v x ih => simp [SymTab.scanBytes, ih, SymTab.seenAt_scanByte, or_assoc]

theorem SymTab.rankAt_scanBytes (x : List Byte) {t : SymTab} {w : Byte} (h : t.seenAt w = true) :
    (t.scanBytes x).rankAt w = t.rankAt w := by
  induction x generalizing t with
  | nil => rfl
  | cons v x ih =>
    have hseen : (t.scanByte v).seenAt w = true := by rw [SymTab.seenAt_scanByte, h, Bool.true_or]
    have hnew : ¬(t.seenAt v = false ∧ w = v) := by
      rintro ⟨hv, rfl⟩
      cases h.symm.trans hv
    rw [SymTab.scanBytes, ih hseen, SymTab.rankAt_scanByte, if_neg hnew]

theorem ofNat_succ_add (n : Nat) (c : BitVec 10) :
    c + 1#10 + BitVec.ofNat 10 n = c + BitVec.ofNat 10 (n + 1) := by
  rw [BitVec.ofNat_add, BitVec.add_assoc, BitVec.add_comm 1#10]

theorem SymTab.occAt_scanBytes (x : List Byte) (t : SymTab) (w : Byte) :
    (t.scanBytes x).occAt w = t.occAt w + BitVec.ofNat 10 (x.count w) := by
  induction x generalizing t with
  | nil => simp [SymTab.scanBytes]
  | cons v x ih =>
    rw [SymTab.scanBytes, ih, SymTab.occAt_scanByte, List.count_cons]
    by_cases hw : w = v
    · rw [if_pos hw, if_pos (beq_iff_eq.2 hw.symm), ofNat_succ_add]
    · rw [if_neg hw, if_neg (by simpa using Ne.symm hw), Nat.add_zero]

theorem SymTab.textcnt_scanBytes (x : List Byte) (t : SymTab) :
    (t.scanBytes x).textcnt = t.textcnt + BitVec.ofNat 10 (x.countP fun v => tableT0.contains v) := by
  induction x generalizing t with
  | nil => simp [SymTab.scanBytes]
  | cons v x ih =>
    rw [SymTab.scanBytes, ih, SymTab.textcnt_scanByte, List.countP_cons]
    split
    · rw [ofNat_succ_add]
    · rw [Nat.add_zero]

theorem SymTab.oracc_scanBytes (x : List Byte) (t : SymTab) :
    (t.scanBytes x).oracc = x.foldl (fun a v => a ||| v) t.oracc := by
  induction x generalizing t with
  | nil => rfl
  | cons v x ih => rw [SymTab.scanBytes, ih, SymTab.oracc_scanByte, List.foldl_cons]

/-- Scanning neither reads nor moves SCANPOS. -/
theorem SymTab.scanBytes_scanpos (x : List Byte) (t : SymTab) (p : BitVec 10) :
    SymTab.scanBytes { t with scanpos := p } x = { t.scanBytes x with scanpos := p } := by
  induction x generalizing t with
  | nil => rfl
  | cons v x ih =>
    have hone : SymTab.scanByte { t with scanpos := p } v = { t.scanByte v with scanpos := p } := by
      by_cases hv : t.seenAt v = true
      · simp only [SymTab.scanByte, SymTab.noteFirst, if_pos hv]
        simp only [SymTab.seenAt] at hv ⊢
        simp only [hv, if_true, SymTab.occAt]
      · simp only [SymTab.scanByte, SymTab.noteFirst, if_neg hv]
        simp only [SymTab.seenAt] at hv ⊢
        simp only [hv, if_false, SymTab.occAt, Bool.false_eq_true]
    rw [SymTab.scanBytes, hone, ih, SymTab.scanBytes]

/-! ### SYMSCAN (R452) -/

theorem scanEnd_eq (lim : BitVec 10) (n : Nat) :
    scanEnd lim.toNat n = if lim = 0#10 then n else min lim.toNat n := by
  rw [scanEnd]
  exact if_congr (by simp [BitVec.toNat_eq]) rfl rfl

theorem scanpos_scanTo {s : State} {stop : Nat} (h : stop ≤ 512) :
    (scanTo s stop).scanpos.toNat = max s.sym.scanpos.toNat stop := by
  have := s.sym.scanpos.isLt
  simp only [scanTo, BitVec.toNat_ofNat]
  exact Nat.mod_eq_of_lt (by omega)

/-- Adding to a 10-bit counter what leaves it at most 512. -/
theorem toNat_add_ofNat {c : BitVec 10} {n : Nat} (h : c.toNat + n ≤ 512) :
    (c + BitVec.ofNat 10 n).toNat = c.toNat + n := by
  rw [BitVec.toNat_add, BitVec.toNat_ofNat]
  omega

/-- Settles O22: the counters stay at most 512, the most bytes a table that meets R121 has scanned. -/
theorem symscanAccumulates : Obligations.SymscanAccumulates := by
  rintro s lim stop x legal hstop rfl
  rw [← scanEnd_eq] at hstop
  subst hstop
  have hle : scanEnd lim.toNat s.n.toNat ≤ 512 := (scanEnd_le _ _).trans legal.2.1
  generalize hstop : scanEnd lim.toNat s.n.toNat = stop at hle ⊢
  have hx : s.blk.bytes Config.powerOnBlk (s.base.toNat + s.sym.scanpos.toNat) (stop - s.sym.scanpos.toNat) =
    (List.range (stop - s.sym.scanpos.toNat)).map
      (fun k => s.blkByte (s.base.toNat + s.sym.scanpos.toNat + k)) := rfl
  refine ⟨scanTo s stop, (exec_symscan_of_legal legal lim).trans (by rw [hstop]; rfl), scanpos_scanTo hle,
    fun hs => ⟨SymTab.consistent_scanTo s stop hle hs, ?_⟩⟩
  rw [← hx]
  generalize hbytes : s.blk.bytes Config.powerOnBlk _ _ = x
  have hlen : s.sym.scanpos.toNat + x.length ≤ 512 := by
    have := hs.scanpos_le
    rw [← hbytes, Memory.length_bytes]
    omega
  have hscan : scanTo s stop =
      { s.sym.scanBytes x with scanpos := BitVec.ofNat 10 (max s.sym.scanpos.toNat stop) } := by
    rw [scanTo, hbytes]
  rw [hscan]
  refine ⟨fun v => ?_, fun v => SymTab.seenAt_scanBytes x s.sym v, fun v => SymTab.rankAt_scanBytes x, ?_,
    SymTab.oracc_scanBytes x s.sym⟩
  · refine (congrArg _ (SymTab.occAt_scanBytes x s.sym v)).trans (toNat_add_ofNat ?_)
    have := hs.occ_le v
    have := x.count_le_length (a := v)
    omega
  · refine (congrArg _ (SymTab.textcnt_scanBytes x s.sym)).trans (toNat_add_ofNat ?_)
    have := hs.textcnt_le
    have := x.countP_le_length (p := fun v => tableT0.contains v)
    omega

/-- Neighbouring byte ranges side by side. -/
theorem Memory.bytes_add (d : Nat → Byte) (m : Memory) (a n k : Nat) :
    m.bytes d a (n + k) = m.bytes d a n ++ m.bytes d (a + n) k := by
  simp only [Memory.bytes, List.range_add, List.map_append, List.map_map, Function.comp_def, Nat.add_assoc]

/-- A scan to an earlier end followed by one to a later end is one scan to the later end. -/
theorem scanTo_scanTo (s : State) {stop n : Nat} (h : stop ≤ n) (hn : n ≤ 512) :
    scanTo (s.setSym (scanTo s stop)) n = scanTo s n := by
  generalize hp : s.sym.scanpos.toNat = p
  have hpos : (scanTo s stop).scanpos.toNat = max p stop := hp ▸ scanpos_scanTo (h.trans hn)
  have hsplit : s.blk.bytes Config.powerOnBlk (s.base.toNat + p) (stop - p) ++
      s.blk.bytes Config.powerOnBlk (s.base.toNat + max p stop) (n - max p stop) =
      s.blk.bytes Config.powerOnBlk (s.base.toNat + p) (n - p) := by
    obtain hle | hlt := Nat.le_total stop p
    · rw [max_eq_left hle, Nat.sub_eq_zero_of_le hle]
      rfl
    · rw [max_eq_right hlt, show n - p = (stop - p) + (n - stop) by omega, Memory.bytes_add,
        show s.base.toNat + p + (stop - p) = s.base.toNat + stop by omega]
  calc scanTo (s.setSym (scanTo s stop)) n
      = { (scanTo s stop).scanBytes
            (s.blk.bytes Config.powerOnBlk (s.base.toNat + max p stop) (n - max p stop)) with
          scanpos := BitVec.ofNat 10 (max (max p stop) n) } := by rw [← hpos]; rfl
    _ = { s.sym.scanBytes (s.blk.bytes Config.powerOnBlk (s.base.toNat + p) (n - p)) with
          scanpos := BitVec.ofNat 10 (max p n) } := by
        rw [scanTo, SymTab.scanBytes_scanpos, hp, ← SymTab.scanBytes_append, hsplit, max_assoc,
          max_eq_right h]
    _ = scanTo s n := by rw [← hp]; rfl

/-- From the empty table a full scan is the rebuild of R460. -/
theorem scanTo_of_zero {s : State} (h : s.sym = SymTab.zero) : scanTo s s.n.toNat = symRebuild s.block := by
  rw [scanTo, h, symRebuild, State.length_block]
  show ({ SymTab.scanBytes SymTab.zero (s.blk.bytes Config.powerOnBlk (s.base.toNat + 0) (s.n.toNat - 0)) with
    scanpos := BitVec.ofNat 10 (max 0 s.n.toNat) } : SymTab) = _
  rw [Nat.zero_max]
  rfl

/-- Settles O23. -/
theorem symscanIsResumable : Obligations.SymscanIsResumable := by
  intro s lim legal
  have hn : s.n.toNat ≤ 512 := legal.2.1
  have hfirst := exec_symscan_of_legal legal lim
  generalize hstop : scanEnd lim.toNat s.n.toNat = stop at hfirst
  have hsecond := exec_symscan_of_legal (s := (s.setSym (scanTo s stop)).succeeded false) legal 0#10
  have hsame : scanTo ((s.setSym (scanTo s stop)).succeeded false) s.n.toNat = scanTo s s.n.toNat :=
    scanTo_scanTo s (hstop ▸ scanEnd_le _ _) hn
  refine ⟨_, _, _, hfirst, hsecond.trans ?_, exec_symscan_of_legal legal 0#10, rfl, rfl, fun hzero => ?_⟩
  · exact congrArg (fun t => Host.Outcome.next ((s.setSym t).succeeded false)) hsame
  · exact (scanTo_of_zero hzero).symm ▸ ranksBlock_block s hn

/-- Settles O21. -/
theorem symrstClearsTheTable : Obligations.SymrstClearsTheTable := by
  refine fun s => ⟨SymTab.zero, rfl, fun v => ?_, rfl, rfl, rfl, rfl⟩
  simp [SymTab.zero, SymTab.seenAt, SymTab.rankAt, SymTab.occAt, SymTab.uniqAt]

/-! ### The table reads (R455 to R457) -/

/-- Setting bit 8 over a byte adds 0x100. -/
theorem ofNat_add_eq_or (v : Byte) : BitVec.ofNat 16 (0x100 + v.toNat) = 0x100#16 ||| v.setWidth 16 := by
  revert v
  decide

/-- Settles O24. -/
theorem tableReadsReturnTheEntry : Obligations.TableReadsReturnTheEntry := by
  intro s x
  refine ⟨?_, ?_, ?_⟩
  · show Host.Outcome.next ((s.setData _).succeeded false) = _
    simp only [State.setData, apply_ite (BitVec.ofNat 16), ofNat_add_eq_or]
  · show Host.Outcome.next ((s.setData _).succeeded false) = _
    simp only [State.setData, apply_ite (BitVec.ofNat 16), ofNat_add_eq_or]
  · show Host.Outcome.next ((s.setData _).succeeded false) = _
    rw [State.setData, BitVec.ofNat_toNat]

end Sys2Proof.Machine
end

section
/-! SUPPORT. The streams of the encoders (42_fixed_width.md R503, 43_single_value.md R553, 44_seven_bit.md R602,
45_text.md R664, 46_string.md R710, 47_xstring.md R755): what a successful encoder leaves in STR and in the
registers. -/

namespace Sys2Proof.Machine

/-! ### Every encoder writes its fields and commits (R800) -/

section
variable {i : Instr} {maxn total : Nat} {declines : SymTab → Prop} {coded : State → SymTab → Coded} {s : State}

/-- An encoder with room and no limit in the way commits what it computed, and STR holds its fields. -/
theorem EncoderRule.writes (rule : EncoderRule i maxn declines coded) (legal : s.legalBlock maxn)
    (takes : ¬declines (symRebuild s.block)) (htotal : (coded s (symRebuild s.block)).total = total)
    (hfit : FieldsFit (coded s (symRebuild s.block)).fields)
    (limit : s.limit = 0#13 ∨ total ≤ s.limit.toNat) (room : s.cur.toNat + total ≤ 8192) :
    ∃ m, exec i s = .next ((s.commitCoded (coded s (symRebuild s.block)) m (s.cur.toNat + total)).succeeded
        (coded s (symRebuild s.block)).capped) ∧
      WritesOnly s.str m s.cur.toNat total ∧
      StreamHolds m s.cur.toNat (coded s (symRebuild s.block)).fields := by
  subst htotal
  have hwidth := rule.width legal
  exact ⟨_, rule.exec_of_room legal takes rfl (limit.imp_left (toNat_eq_zero_iff _).2) room,
    hwidth ▸ writesOnly_putAll _ _ _, streamHolds_putAll _ hfit _ _⟩

end

/-- CONSUMED is N where the whole block is coded. -/
theorem ofNat_toNat_n (n : BitVec 10) : BitVec.ofNat 10 n.toNat = n := by
  rw [BitVec.ofNat_toNat, BitVec.setWidth_eq]

/-- Field i of a list of fields of one width. -/
theorem readField_of_map_holds {α : Type} {m : Memory} {g : α → Nat} {w p : Nat} {xs : List α}
    (h : StreamHolds m p (xs.map fun x => ⟨g x, w⟩)) {i : Nat} (hi : i < xs.length) :
    readField m (p + w * i) w = g xs[i] := by
  induction xs generalizing p i with
  | nil => exact absurd hi (Nat.not_lt_zero i)
  | cons x xs ih =>
    obtain ⟨hfirst, hrest⟩ := h
    cases i with
    | zero => exact hfirst
    | succ i =>
      rw [Nat.mul_succ, Nat.add_comm (w * i), ← Nat.add_assoc]
      exact ih hrest (Nat.lt_of_succ_lt_succ hi)

/-! ### FWENC (R503) -/

theorem RanksBlock.rankAt_lt {t : SymTab} {x : List Byte} (h : RanksBlock t x) :
    ∀ r ∈ x.map fun v => (t.rankAt v).toNat, r < (t.uniques t.u.toNat).length := by
  simpa using fun v hv => (h.uniqAt_rankAt hv).1

/-- Settles O29. -/
theorem fwencWritesItsStream : Obligations.FwencWritesItsStream := by
  rintro s d w total legal rfl hd rfl htotal limit room
  have hranks : RanksBlock (symRebuild s.block) s.block := ranksBlock_block s (legal.2.1.trans (by decide))
  have hu := hranks.u
  obtain ⟨m, hexec, hwrites, hholds⟩ := EncoderRule.fwenc.writes legal (by omega)
    (by rw [htotal, fwCoded, hu]) (fieldsFit_fwStream (by simpa [hu] using hd) hranks.rankAt_lt) limit room
  generalize symRebuild s.block = t at *
  obtain ⟨hhead, hrest⟩ := hholds
  obtain ⟨hvals, hcodes⟩ := (streamHolds_append m _ _ (s.cur.toNat + 4)).1 hrest
  rw [fieldsWidth_map, SymTab.length_uniques, hu] at hcodes
  rw [SymTab.length_uniques, hu] at hhead
  refine ⟨m, t, ?_, hranks, hwrites, hhead, fun r hr => ?_, fun i hi => ?_⟩
  · rw [hexec, State.commitCoded, fwCoded, ofNat_toNat_n, hu, ← htotal]
  · have := readField_of_map_holds hvals (i := r) (by rwa [SymTab.length_uniques, hu])
    simpa [SymTab.uniques] using this
  · have := readField_of_map_holds hcodes (i := i) (by rwa [List.length_map])
    rwa [List.getElem_map] at this

/-! ### SVENC (R553) -/

/-- The search keeps a value that no later one beats. -/
theorem dominantFrom_of_max {t : SymTab} {v : Byte} {vs : List Byte}
    (h : ∀ w ∈ vs, (t.occAt w).toNat ≤ (t.occAt v).toNat) : dominantFrom t v vs = v := by
  induction vs with
  | nil => rfl
  | cons w vs ih =>
    obtain ⟨hw, hvs⟩ := List.forall_mem_cons.1 h
    rw [dominantFrom, if_neg (Nat.not_lt.2 hw), ih hvs]

/-- The search takes the first value with the largest count. -/
theorem dominantFrom_append {t : SymTab} {best v : Byte} {l r : List Byte}
    (hbest : (t.occAt best).toNat < (t.occAt v).toNat) (hl : ∀ w ∈ l, (t.occAt w).toNat < (t.occAt v).toNat)
    (hr : ∀ w ∈ r, (t.occAt w).toNat ≤ (t.occAt v).toNat) : dominantFrom t best (l ++ v :: r) = v := by
  induction l generalizing best with
  | nil =>
    rw [List.nil_append, dominantFrom, if_pos hbest]
    exact dominantFrom_of_max hr
  | cons w l ih =>
    obtain ⟨hw, hl⟩ := List.forall_mem_cons.1 hl
    rw [List.cons_append, dominantFrom]
    split_ifs
    · exact ih hw hl
    · exact ih hbest hl

theorem SymTab.take_uniques (t : SymTab) {j k : Nat} (h : j ≤ k) : (t.uniques k).take j = t.uniques j := by
  rw [SymTab.uniques, ← List.map_take, List.take_range, min_eq_left h, SymTab.uniques]

/-- R551: V is the value with the largest count, the earliest of several. -/
theorem RanksBlock.dominant_eq {t : SymTab} {x : List Byte} {v : Byte} (h : RanksBlock t x) (hv : v ∈ x)
    (hmax : ∀ w, x.count w ≤ x.count v)
    (hfirst : ∀ w ∈ x, x.count w = x.count v → x.idxOf v ≤ x.idxOf w) : dominant t = v := by
  simp only [← h.occ] at hmax hfirst
  obtain ⟨hlt, huniq⟩ := h.uniqAt_rankAt hv
  rw [h.rankAt_eq_firstRank hv] at hlt
  have hat : t.uniqAt (BitVec.ofNat 8 (firstRank x v)) = v := by
    rw [← h.rankAt_eq_firstRank hv, BitVec.ofNat_toNat, BitVec.setWidth_eq, huniq]
  have hearlier : ∀ w ∈ t.uniques (firstRank x v), (t.occAt w).toNat < (t.occAt v).toNat := fun w hw => by
    have hw := (h.mem_uniques_take _).1 hw
    have hmem := List.mem_of_mem_take hw
    have hidx := (List.mem_take_iff_idxOf_lt hmem).1 hw
    exact lt_of_le_of_ne (hmax w) fun heq => absurd (hfirst w hmem heq) (by omega)
  have hsplit : t.uniques t.u.toNat =
      t.uniques (firstRank x v) ++ v :: (t.uniques t.u.toNat).drop (firstRank x v + 1) := by
    have hget : (t.uniques t.u.toNat)[firstRank x v]'(by rwa [SymTab.length_uniques]) = v := by
      simpa [SymTab.uniques] using hat
    have hcut := (t.uniques t.u.toNat).take_append_drop (firstRank x v)
    rw [List.drop_eq_getElem_cons (by rwa [SymTab.length_uniques]), hget, t.take_uniques hlt.le] at hcut
    exact hcut.symm
  rw [dominant]
  obtain hzero | hpos := Nat.eq_zero_or_pos (firstRank x v)
  · rw [hzero] at hat
    rw [show t.uniqAt 0#8 = v from hat]
    exact dominantFrom_of_max fun w _ => hmax w
  · rw [hsplit]
    refine dominantFrom_append (hearlier _ ?_) hearlier fun w _ => hmax w
    exact List.mem_map.2 ⟨0, List.mem_range.2 hpos, rfl⟩

theorem svSymbols_eq_flatMap (v : Byte) (x : List Byte) :
    svSymbols v x = x.flatMap fun x => if x = v then [⟨0, 1⟩] else [⟨1, 1⟩, ⟨x.toNat, 8⟩] := by
  induction x with
  | nil => rfl
  | cons a x ih =>
    rw [svSymbols, ih, List.flatMap_cons]
    split_ifs <;> rfl

/-- Settles O31. -/
theorem svencWritesItsStream : Obligations.SvencWritesItsStream := by
  rintro s v total legal hv hmax hfirst htotal limit room
  have hranks : RanksBlock (symRebuild s.block) s.block := ranksBlock_block s (legal.2.1.trans (by decide))
  have hdom := hranks.dominant_eq hv hmax hfirst
  have hcount := hranks.occ v
  obtain ⟨m, hexec, hwrites, hholds⟩ := EncoderRule.svenc.writes legal id
    (by rw [htotal, svCoded, hdom, hcount]) (fieldsFit_svStream _ _) limit room
  generalize symRebuild s.block = t at *
  refine ⟨m, t, ?_, hranks, hwrites, ?_⟩
  · rw [hexec, State.commitCoded, svCoded, ofNat_toNat_n, hdom, hcount, ← htotal]
  · simpa only [svCoded, svStream, hdom, svSymbols_eq_flatMap] using hholds

/-! ### P7ENC (R602) -/

/-- Settles O34: a byte below 0x80 is its low seven bits. -/
theorem p7encPacksSevenBits : Obligations.P7encPacksSevenBits := by
  intro s legal hlow limit room
  have hranks : RanksBlock (symRebuild s.block) s.block := ranksBlock_block s (legal.2.1.trans (by decide))
  have hseven := hranks.oracc_seven.2 hlow
  obtain ⟨m, hexec, hwrites, hholds⟩ := EncoderRule.p7enc.writes (total := 7 * s.n.toNat) legal
    (by rw [hseven]; nofun) rfl (fieldsFit_p7Stream _) limit room
  refine ⟨m, symRebuild s.block, ?_, hranks, hwrites, fun i hi => ?_⟩
  · rw [hexec, State.commitCoded, p7Coded, ofNat_toNat_n]
  · rw [readField_of_map_holds hholds hi, Nat.mod_eq_of_lt (hlow _ (List.getElem_mem hi))]

/-! ### TXTENC (R664) -/

theorem textSelect_eq (ad : Bool) (x : List Byte) : textSelect ad x =
    if ad = false then 0
    else if (if x.length < 32 then 2 else 3) ≤ x.countP (fun v => markupSet.contains v) ∧
        x.countP (fun v => codeSet.contains v) ≤ x.countP (fun v => markupSet.contains v) then 1
    else if (if x.length < 32 then 2 else 3) ≤ x.countP (fun v => codeSet.contains v) then 2 else 0 := by
  cases ad <;> rfl

/-- Settles O36. -/
theorem txtencWritesItsStream : Obligations.TxtencWritesItsStream := by
  rintro s ad cm ck th sel l7 table fs legal rfl rfl rfl hsel htable hl7 hfs limit room
  have hranks : RanksBlock (symRebuild s.block) s.block := ranksBlock_block s legal.2.1
  rw [← s.length_block, ← textSelect_eq] at hsel
  have htab := textTable_textSelect ad s.block
  rw [← hsel] at htab
  have henc : encoderTable sel = table := Option.some.inj (htab.symm.trans htable)
  have hflag : (!(symRebuild s.block).oracc.getLsbD 7) = l7 := by
    rw [Bool.eq_iff_iff, hl7, ← hranks.oracc_seven, Bool.not_eq_true']
  have hstream : (textCoded ad s (symRebuild s.block)).fields = fs := by
    simp only [textCoded, ← hsel, henc, hflag]
    exact hfs.symm
  obtain ⟨m, hexec, hwrites, hholds⟩ := (EncoderRule.txtenc ad).writes (total := fieldsWidth fs) legal id
    (by rw [← textCoded_width, hstream])
    (by rw [hstream, hfs]; exact fieldsFit_textStream htable hl7.1) limit room
  rw [hstream] at hholds
  have hbits : (textCoded ad s (symRebuild s.block)).total = fieldsWidth fs := by
    rw [← textCoded_width, hstream]
  refine ⟨m, symRebuild s.block, ?_, hranks, hwrites, hholds⟩
  rw [hexec, State.commitCoded, hbits]
  simp only [textCoded, ofNat_toNat_n, ← hsel]

/-! ### STRENC and XSTRENC (R710, R755) -/

/-- Settles O39: the tokens of the match policy are STRENC's. -/
theorem strencWritesItsStream : Obligations.StrencWritesItsStream := by
  rintro s d total toks legal rfl hd htoks htotal limit room
  have hranks : RanksBlock (symRebuild s.block) s.block := ranksBlock_block s (legal.2.1.trans (by decide))
  have hu := hranks.u
  have heq : strTokensOf (symRebuild s.block) s.block = toks := htoks.unique hranks.followsPolicy_strTokensOf
  obtain ⟨m, hexec, hwrites, hholds⟩ := EncoderRule.strenc.writes legal (by omega)
    (by rw [htotal, strCoded, hu, heq]; rfl)
    (fieldsFit_strStream (by simpa [hu] using hd)
      (hranks.followsPolicy_strTokensOf.validTokens (lw := 3) (by decide))) limit room
  generalize symRebuild s.block = t at *
  refine ⟨m, t, ?_, hranks, hwrites, ?_⟩
  · rw [hexec, State.commitCoded, htotal, strCoded, ofNat_toNat_n, hu, heq]
    rfl
  · simp only [strCoded, strStream, SymTab.length_uniques, hu, heq] at hholds
    exact hholds

/-- The P7 flag of R751 is that of the covered bytes, the values the header lists. -/
theorem RanksBlock.allBelow80_uniques {t : SymTab} {x : List Byte} (h : RanksBlock t x) :
    allBelow80 (t.uniques (headerUniques t)) = true ↔ ∀ v ∈ x.take (consumedLength t x), v.toNat < 128 := by
  rw [allBelow80_iff, h.headerUniques_eq]
  exact forall_congr' fun v => imp_congr_left (h.mem_uniques_take _)

/-- R752: the bytes before the 129th unique. -/
theorem RanksBlock.consumedLength_eq_of {t : SymTab} {x : List Byte} (h : RanksBlock t x) {c : Nat}
    (hc : distinct x ≤ 128 ∧ c = x.length ∨ 128 < distinct x ∧ c < x.length ∧
      distinct (x.take c) = 128 ∧ byteAt x c ∉ x.take c) :
    consumedLength t x = c ∧ (c < x.length ↔ 128 < distinct x) := by
  obtain ⟨hd, rfl⟩ | ⟨hd, hlt, hbefore, hnew⟩ := hc
  · exact ⟨if_pos (by rwa [h.u]), by omega⟩
  · exact ⟨h.consumedLength_eq hd hlt hbefore hnew, by omega⟩

/-- Settles O40. -/
theorem xstrencWritesItsStream : Obligations.XstrencWritesItsStream := by
  rintro s d c uh w total toks legal rfl huh hc hw htoks htotal limit room
  have hranks : RanksBlock (symRebuild s.block) s.block := ranksBlock_block s legal.2.1
  rw [← s.length_block] at hc
  obtain ⟨hcons, hcap⟩ := hranks.consumedLength_eq_of hc
  have hpolicy := hranks.followsPolicy_xstrTokensOf
  have hvalid := hpolicy.validTokens (lw := 4) (by decide)
  have hflag := hranks.allBelow80_uniques
  have hpos := hranks.headerUniques_pos (block_ne_nil legal)
  rw [hcons] at hpolicy hflag
  have hhead : headerUniques (symRebuild s.block) = uh := by rw [huh, headerUniques, hranks.u]; rfl
  have heq : xstrTokensOf (symRebuild s.block) s.block = toks :=
    (htoks.congr_rank fun v hv => (firstRank_take hv).symm).unique hpolicy
  rw [hhead] at hflag hpos
  have hwidth : headerWidth (allBelow80 ((symRebuild s.block).uniques uh)) = w := by
    rw [hw, headerWidth]
    exact if_congr hflag rfl rfl
  have hp7 : (allBelow80 ((symRebuild s.block).uniques uh)).toNat = 8 - w := by
    rw [← hwidth]
    cases allBelow80 ((symRebuild s.block).uniques uh) <;> rfl
  obtain ⟨m, hexec, hwrites, hholds⟩ := EncoderRule.xstrenc.writes (total := total) legal id
    (by rw [htotal, xstrCoded]; simp only [hhead, hwidth, heq]; rfl)
    (fieldsFit_xstrStream (by simpa [hhead] using hpos.2) hvalid) limit room
  generalize symRebuild s.block = t at *
  refine ⟨m, t, ?_, hranks, hwrites, ?_⟩
  · rw [hexec, State.commitCoded]
    simp only [xstrCoded, hhead, hwidth, heq, hcons, ← s.length_block, hcap, htotal]
    rfl
  · simp only [xstrCoded, xstrStream, SymTab.length_uniques, hhead, heq, hwidth, hp7] at hholds
    exact hholds

end Sys2Proof.Machine
end

section
/-! SUPPORT. The streams of the decoders (42_fixed_width.md R506, 43_single_value.md R555, 44_seven_bit.md R605,
45_text.md R667): the block they write, and where they raise E_DECODE and E_RANGE. -/

namespace Sys2Proof.Machine

/-! ### FWDEC (R506) -/

/-- One rank below U, then the rest. -/
theorem fwSymbols_turn {m : Memory} {vals : List Byte} {w n p r : Nat} {fs : List Field}
    (hr : r < vals.length) (h : StreamHolds m p (⟨r, w⟩ :: fs)) (hp : p + w ≤ 8192) :
    fwSymbols m vals w (n + 1) p = match fwSymbols m vals w n (p + w) with
      | .error e => .error e
      | .ok (out, p') => .ok (vals.getD r 0#8 :: out, p') := by
  have hget : getBits m p w = .ok (r, p + w) := getBits_of_holds h hp
  rw [fwSymbols, hget]
  exact if_neg (Nat.not_le.2 hr)

/-- An error behind ranks below U is the loop's. -/
theorem fwSymbols_error {m : Memory} {vals : List Byte} {w n p : Nat} {e : CmdError} (ranks : List Nat)
    (hr : ∀ r ∈ ranks, r < vals.length) (h : StreamHolds m p (ranks.map fun r => ⟨r, w⟩))
    (hp : p + w * ranks.length ≤ 8192) (hn : ranks.length < n)
    (herr : fwSymbols m vals w (n - ranks.length) (p + w * ranks.length) = .error e) :
    fwSymbols m vals w n p = .error e := by
  induction ranks generalizing p n with
  | nil => simpa using herr
  | cons r ranks ih =>
    obtain ⟨hlt, hr⟩ := List.forall_mem_cons.1 hr
    simp only [List.length_cons, Nat.mul_succ] at hp hn herr
    obtain ⟨n, rfl⟩ : ∃ k, n = k + 1 := ⟨n - 1, by omega⟩
    have hrest := ih hr h.2 (by dsimp only; omega) (by omega) (n := n) (by
      rw [← herr, Nat.add_sub_add_right, Nat.add_assoc, Nat.add_comm w])
    rw [fwSymbols_turn hlt h (by omega), hrest]

/-- Behind the header the ranks are decoded. -/
theorem fwDecode_of_header {m : Memory} {n p : Nat} {vals : List Byte} {fs : List Field}
    (hv : 1 ≤ vals.length) (h : StreamHolds m p (⟨vals.length - 1, 4⟩ :: byteFields 8 vals ++ fs))
    (hp : p + 4 + 8 * vals.length ≤ 8192) :
    StreamHolds m (p + 4 + 8 * vals.length) fs ∧
      fwDecode m n p = fwSymbols m vals (fwWidth vals.length) n (p + 4 + 8 * vals.length) := by
  have hhead : getBits m p 4 = .ok (vals.length - 1, p + 4) :=
    getBits_of_holds h (show p + 4 ≤ 8192 by omega)
  obtain ⟨hvals, hrest⟩ := (streamHolds_append m _ _ (p + 4)).1 h.2
  rw [fieldsWidth_byteFields] at hrest
  refine ⟨hrest, ?_⟩
  simp only [fwDecode, hhead, Nat.sub_add_cancel hv, getMany_of_byteFields hvals hp, map_ofNat_toNat]

/-- FWDEC runs out in its header. -/
theorem fwDecode_of_runsOut {m : Memory} {n p u : Nat} {vals : List Byte} (hu : vals.length < u)
    (h : StreamHolds m p (⟨u - 1, 4⟩ :: byteFields 8 vals)) (hp : p + 4 + 8 * vals.length ≤ 8192)
    (hout : 8192 < p + 4 + 8 * vals.length + 8) : fwDecode m n p = .error .range := by
  have hhead : getBits m p 4 = .ok (u - 1, p + 4) := getBits_of_holds h (show p + 4 ≤ 8192 by omega)
  simp only [fwDecode, hhead, getMany_of_runsOut (n := u - 1 + 1) vals (by omega) h.2 hp hout]

/-- A rank not below U behind ranks below it. -/
theorem fwDecode_of_bad {m : Memory} {n p bad : Nat} {vals : List Byte} {ranks : List Nat}
    (hv : 1 ≤ vals.length) (hr : ∀ r ∈ ranks, r < vals.length) (hn : ranks.length < n)
    (hbad : vals.length ≤ bad)
    (hp : p + 4 + 8 * vals.length + fwWidth vals.length * (ranks.length + 1) ≤ 8192)
    (h : StreamHolds m p (⟨vals.length - 1, 4⟩ :: byteFields 8 vals
      ++ (ranks ++ [bad]).map fun r => ⟨r, fwWidth vals.length⟩)) : fwDecode m n p = .error .decode := by
  rw [Nat.mul_succ] at hp
  obtain ⟨hranks, hdec⟩ := fwDecode_of_header (n := n) hv h (by omega)
  rw [List.map_append, streamHolds_append, fieldsWidth_map] at hranks
  obtain ⟨hgood, hlast⟩ := hranks
  rw [hdec]
  refine fwSymbols_error ranks hr hgood (by omega) hn ?_
  have hget : getBits m (p + 4 + 8 * vals.length + fwWidth vals.length * ranks.length) (fwWidth vals.length) =
      .ok (bad, _) := getBits_of_holds hlast (by dsimp only; omega)
  rw [show n - ranks.length = (n - ranks.length - 1) + 1 by omega, fwSymbols, hget]
  exact if_pos hbad

/-- FWDEC runs out behind ranks below U. -/
theorem fwDecode_of_ranks_runsOut {m : Memory} {n p : Nat} {vals : List Byte} {ranks : List Nat}
    (hv : 1 ≤ vals.length) (hr : ∀ r ∈ ranks, r < vals.length) (hn : ranks.length < n)
    (h : StreamHolds m p (⟨vals.length - 1, 4⟩ :: byteFields 8 vals
      ++ ranks.map fun r => ⟨r, fwWidth vals.length⟩))
    (hp : p + 4 + 8 * vals.length + fwWidth vals.length * ranks.length ≤ 8192)
    (hout : 8192 < p + 4 + 8 * vals.length + fwWidth vals.length * ranks.length + fwWidth vals.length) :
    fwDecode m n p = .error .range := by
  obtain ⟨hranks, hdec⟩ := fwDecode_of_header (n := n) hv h (by omega)
  rw [hdec]
  refine fwSymbols_error ranks hr hranks hp hn ?_
  rw [show n - ranks.length = (n - ranks.length - 1) + 1 by omega, fwSymbols,
    getBits_range (by omega) hout]

/-- Settles O30. -/
theorem fwdecReadsItsStream : Obligations.FwdecReadsItsStream := by
  intro s legal
  have hexec := exec_fwdec_of_legal legal
  refine ⟨fun vals ranks hv hmax hr => ⟨fun total hn htotal hroom hholds => ?_,
    fun bad hn hbad hp hholds => ?_, fun hn hout => ?_⟩, fun hout => ?_, fun u vals hu hout => ?_⟩
  · have hwidth : fieldsWidth (fwStream vals ranks) = total := by rw [fieldsWidth_fwStream, hn, htotal]
    have hdec := fwDecode_of_holds vals ranks hv hr hholds (by rwa [hwidth])
    rw [hn, hwidth] at hdec
    exact ⟨_, hexec.trans (complete_deliver_ok hdec), writesBlock_writeBytes _ _ _⟩
  · exact hexec.trans (complete_deliver_error (fwDecode_of_bad hv hr hn hbad hp hholds))
  · obtain ⟨hholds, hin, hpast⟩ := hout.fits
    have hwidth := fieldsWidth_fwStream vals ranks
    refine hexec.trans (complete_deliver_error (fwDecode_of_ranks_runsOut hv hr hn hholds ?_ ?_))
    · exact le_of_eq_of_le (by rw [Nat.add_assoc, Nat.add_assoc, ← Nat.add_assoc 4, ← hwidth]; rfl) hin
    · exact lt_of_lt_of_eq hpast (by rw [Nat.add_assoc _ 4, Nat.add_assoc _ (4 + _), ← hwidth]; rfl)
  · have hhead := hout.getBits (by decide)
    refine hexec.trans (complete_deliver_error ?_)
    rw [fwDecode, show getBits s.str s.cur.toNat 4 = .error .range from hhead]
  · obtain ⟨hholds, hin, hpast⟩ := hout.fits
    rw [fieldsWidth_cons, fieldsWidth_byteFields, ← Nat.add_assoc] at hin hpast
    exact hexec.trans (complete_deliver_error (fwDecode_of_runsOut hu hholds hin hpast))

/-! ### SVDEC (R555) -/

/-- The fields of one byte in a single-value stream: none is V, some is a literal. -/
def svCodeFields : Option Byte → List Field
  | none => [⟨0, 1⟩]
  | some x => [⟨1, 1⟩, ⟨x.toNat, 8⟩]

/-- One flag, with its literal, then the rest. -/
theorem svFlags_turn {m : Memory} {v : Byte} {n p : Nat} {c : Option Byte}
    (h : StreamHolds m p (svCodeFields c)) (hp : p + fieldsWidth (svCodeFields c) ≤ 8192) :
    svFlags m v (n + 1) p = match svFlags m v n (p + fieldsWidth (svCodeFields c)) with
      | .error e => .error e
      | .ok (out, p') => .ok (c.getD v :: out, p') := by
  cases c with
  | none =>
    have hflag : getBits m p 1 = .ok (0, p + 1) := getBits_of_holds h hp
    simp only [svFlags, hflag, if_true, BitVec.ofNat_toNat, BitVec.setWidth_eq]
    rfl
  | some x =>
    have hp : p + 1 + 8 ≤ 8192 := hp
    have hflag : getBits m p 1 = .ok (1, p + 1) := getBits_of_holds h (show p + 1 ≤ 8192 by omega)
    have hlit : getBits m (p + 1) 8 = .ok (x.toNat, p + 1 + 8) := getBits_of_holds h.2 hp
    simp only [svFlags, hflag, one_ne_zero, if_false, hlit, BitVec.ofNat_toNat, BitVec.setWidth_eq]
    rfl

theorem svFlags_of_codes {m : Memory} {v : Byte} (codes : List (Option Byte)) {p : Nat}
    (h : StreamHolds m p (codes.flatMap svCodeFields))
    (hp : p + fieldsWidth (codes.flatMap svCodeFields) ≤ 8192) :
    svFlags m v codes.length p =
      .ok (codes.map fun c => c.getD v, p + fieldsWidth (codes.flatMap svCodeFields)) := by
  induction codes generalizing p with
  | nil => rfl
  | cons c codes ih =>
    obtain ⟨hfirst, hrest⟩ := (streamHolds_append m _ _ p).1 h
    rw [List.flatMap_cons, fieldsWidth_append, ← Nat.add_assoc] at hp ⊢
    rw [List.length_cons, svFlags_turn hfirst (by omega), ih hrest hp, List.map_cons]

/-- An error behind whole codes is the loop's. -/
theorem svFlags_error {m : Memory} {v : Byte} {n p : Nat} {e : CmdError} (codes : List (Option Byte))
    (h : StreamHolds m p (codes.flatMap svCodeFields))
    (hp : p + fieldsWidth (codes.flatMap svCodeFields) ≤ 8192) (hn : codes.length < n)
    (herr : svFlags m v (n - codes.length) (p + fieldsWidth (codes.flatMap svCodeFields)) = .error e) :
    svFlags m v n p = .error e := by
  induction codes generalizing p n with
  | nil => simpa using herr
  | cons c codes ih =>
    obtain ⟨hfirst, hrest⟩ := (streamHolds_append m _ _ p).1 h
    rw [List.flatMap_cons, fieldsWidth_append, ← Nat.add_assoc] at hp herr
    rw [List.length_cons] at hn herr
    obtain ⟨n, rfl⟩ : ∃ k, n = k + 1 := ⟨n - 1, by omega⟩
    rw [Nat.add_sub_add_right] at herr
    rw [svFlags_turn hfirst (by omega), ih hrest hp (by omega) herr]

/-- V, then the flags. -/
theorem svDecode_of_header {m : Memory} {n p : Nat} {v : Byte} {fs : List Field}
    (h : StreamHolds m p (⟨v.toNat, 8⟩ :: fs)) (hp : p + 8 ≤ 8192) :
    svDecode m n p = svFlags m v n (p + 8) := by
  have hhead : getBits m p 8 = .ok (v.toNat, p + 8) := getBits_of_holds h hp
  simp only [svDecode, hhead, BitVec.ofNat_toNat, BitVec.setWidth_eq]

/-- SVDEC runs out at a flag. -/
theorem svDecode_of_flag_runsOut {m : Memory} {n p : Nat} {v : Byte} {codes : List (Option Byte)}
    (hn : codes.length < n) (h : StreamHolds m p (⟨v.toNat, 8⟩ :: codes.flatMap svCodeFields))
    (hp : p + fieldsWidth (⟨v.toNat, 8⟩ :: codes.flatMap svCodeFields) ≤ 8192)
    (hout : 8192 < p + fieldsWidth (⟨v.toNat, 8⟩ :: codes.flatMap svCodeFields) + 1) :
    svDecode m n p = .error .range := by
  rw [fieldsWidth_cons, ← Nat.add_assoc] at hp hout
  rw [svDecode_of_header h (by dsimp only at hp; omega)]
  refine svFlags_error codes h.2 hp hn ?_
  rw [show n - codes.length = (n - codes.length - 1) + 1 by omega, svFlags, getBits_range le_rfl hout]

/-- SVDEC runs out at a literal, behind a flag of 1. -/
theorem svDecode_of_literal_runsOut {m : Memory} {n p : Nat} {v : Byte} {codes : List (Option Byte)}
    (hn : codes.length < n)
    (h : StreamHolds m p ((⟨v.toNat, 8⟩ :: codes.flatMap svCodeFields) ++ [⟨1, 1⟩]))
    (hp : p + fieldsWidth ((⟨v.toNat, 8⟩ :: codes.flatMap svCodeFields) ++ [⟨1, 1⟩]) ≤ 8192)
    (hout : 8192 < p + fieldsWidth ((⟨v.toNat, 8⟩ :: codes.flatMap svCodeFields) ++ [⟨1, 1⟩]) + 8) :
    svDecode m n p = .error .range := by
  rw [fieldsWidth_append, fieldsWidth_cons, ← Nat.add_assoc, ← Nat.add_assoc] at hp hout
  obtain ⟨hcodes, hone⟩ := (streamHolds_append m _ _ p).1 h
  rw [fieldsWidth_cons, ← Nat.add_assoc] at hone
  have hflag : getBits m (p + 8 + fieldsWidth (codes.flatMap svCodeFields)) 1 = .ok (1, _) :=
    getBits_of_holds hone hp
  rw [svDecode_of_header hcodes (by dsimp only at hp; omega)]
  refine svFlags_error codes hcodes.2 (by dsimp only at hp ⊢; omega) hn ?_
  have hlit : getBits m (p + 8 + fieldsWidth (codes.flatMap svCodeFields) + 1) 8 = .error .range :=
    getBits_range (by decide) hout
  rw [show n - codes.length = (n - codes.length - 1) + 1 by omega, svFlags, hflag]
  simp only [one_ne_zero, if_false, hlit]

/-- Settles O33. -/
theorem svdecReadsItsStream : Obligations.SvdecReadsItsStream := by
  intro s legal
  have hexec := exec_svdec_of_legal legal
  refine ⟨fun hout => ?_, fun v codes fs hfs => ?_⟩
  · have hhead := hout.getBits (by decide)
    refine hexec.trans (complete_deliver_error ?_)
    rw [svDecode, show getBits s.str s.cur.toNat 8 = .error .range from hhead]
  have hfs : fs = ⟨v.toNat, 8⟩ :: codes.flatMap svCodeFields := by
    rw [hfs]
    congr 2
  subst hfs
  refine ⟨fun hn hroom hholds => ?_, fun hn hout => ?_⟩
  · rw [fieldsWidth_cons, ← Nat.add_assoc] at hroom
    have hdec := (svDecode_of_header (n := codes.length) hholds (by dsimp only at hroom; omega)).trans
      (svFlags_of_codes codes hholds.2 hroom)
    rw [hn, Nat.add_assoc] at hdec
    exact ⟨_, hexec.trans (complete_deliver_ok hdec), writesBlock_writeBytes _ _ _⟩
  · obtain hout | hout := hout
    · obtain ⟨hholds, hin, hpast⟩ := hout.fits
      exact hexec.trans (complete_deliver_error (svDecode_of_flag_runsOut hn hholds hin hpast))
    · obtain ⟨hholds, hin, hpast⟩ := State.RunsOutAfter.fits hout
      exact hexec.trans (complete_deliver_error (svDecode_of_literal_runsOut hn hholds hin hpast))

/-! ### P7DEC (R605) -/

/-- Inside STR the fields read are whatever the stream holds. -/
theorem getMany_of_fits {m : Memory} {w n p : Nat} (h : p + w * n ≤ 8192) :
    getMany m w n p = .ok ((List.range n).map fun i => readField m (p + w * i) w, p + w * n) := by
  induction n generalizing p with
  | zero => rfl
  | succ n ih =>
    rw [Nat.mul_succ] at h
    have hstep (i : Nat) : p + w + w * i = p + w * (i + 1) := by rw [Nat.mul_succ]; omega
    rw [getMany, getBits_ok (by omega), List.range_succ_eq_map, List.map_cons, List.map_map]
    simp only [ih (p := p + w) (by omega), hstep, Function.comp_def, Nat.mul_zero, Nat.add_zero,
      Nat.succ_eq_add_one]

/-- Fields that pass the end raise E_RANGE. -/
theorem getMany_of_past {m : Memory} {w n p : Nat} (hw : 1 ≤ w) (hn : 1 ≤ n) (h : 8192 < p + w * n) :
    getMany m w n p = .error .range := by
  obtain ⟨n, rfl⟩ : ∃ k, n = k + 1 := ⟨n - 1, by omega⟩
  clear hn
  induction n generalizing p with
  | zero => rw [getMany, getBits_range hw (by omega)]
  | succ n ih =>
    rw [getMany]
    by_cases hin : p + w ≤ 8192
    · rw [getBits_ok hin]
      simp only [ih (p := p + w) (by rw [Nat.mul_succ] at h; omega)]
    · rw [getBits_range hw (by omega)]

/-- Settles O35. -/
theorem p7decUnpacksSevenBits : Obligations.P7decUnpacksSevenBits := by
  intro s legal
  have hexec := exec_p7dec_of_legal legal
  refine ⟨fun hin => ?_, fun hout => hexec.trans (complete_deliver_error ?_)⟩
  · refine ⟨_, hexec.trans (complete_deliver_ok (total := 7 * s.n.toNat) ?_), writesBlock_writeBytes _ _ _⟩
    simp only [p7Decode, getMany_of_fits hin, List.map_map]
    rfl
  · rw [p7Decode, getMany_of_past (by decide) legal.1 hout]

/-! ### TXTDEC (R667) -/

theorem nodup_of_textTable {sel : Nat} {table : List Byte} (h : textTable sel = some table) :
    table.Nodup := by
  unfold textTable at h
  split at h <;> cases h <;> decide

/-- R656: the rank of a byte is its place in the table. -/
theorem rankIn_eq_some_iff {table : List Byte} (hnodup : table.Nodup) {v : Byte} {r : Nat} :
    rankIn table v = some r ↔ table[r]? = some v := by
  refine ⟨getElem?_of_rankIn, fun h => ?_⟩
  induction table generalizing r with
  | nil => exact absurd h (by simp)
  | cons x xs ih =>
    obtain ⟨hx, hxs⟩ := List.nodup_cons.1 hnodup
    cases r with
    | zero => exact if_pos (Option.some.inj h)
    | succ r =>
      have hmem : v ∈ xs := List.mem_of_getElem? h
      have hne : x ≠ v := fun he => hx (he ▸ hmem)
      rw [rankIn, if_neg hne, ih hxs h, Option.map_some]

/-- The fields of one byte in a text stream: a rank of the table, or an escaped literal. -/
def textCodeFields (l7 : Bool) : Nat ⊕ Byte → List Field
  | .inl r => [rankCode r]
  | .inr v => [⟨3, 3⟩, ⟨v.toNat, literalWidth l7⟩]

/-- The byte that a code stands for. -/
def textCodeValue (table : List Byte) : Nat ⊕ Byte → Byte
  | .inl r => table.getD r 0#8
  | .inr v => v

theorem textSymbol_of_code {m : Memory} {sel p : Nat} {table : List Byte} {l7 : Bool} {c : Nat ⊕ Byte}
    (htable : textTable sel = some table) (hc : ∀ r, c = .inl r → r < 23)
    (h : StreamHolds m p (textCodeFields l7 c)) (hp : p + fieldsWidth (textCodeFields l7 c) ≤ 8192) :
    textSymbol m table l7 p = .ok (textCodeValue table c, p + fieldsWidth (textCodeFields l7 c)) := by
  obtain ⟨-, hlen⟩ := lt_three_and_length_of_textTable htable
  cases c with
  | inl r =>
    have hr : r < table.length := hlen ▸ hc r rfl
    refine textSymbol_of_rankCode hlen ((rankIn_eq_some_iff (nodup_of_textTable htable)).2 ?_) h hp
    rw [textCodeValue, List.getD_eq_getElem _ _ hr, List.getElem?_eq_getElem hr]
  | inr v => exact textSymbol_of_literal table h hp

theorem textSymbols_of_codes {m : Memory} {sel : Nat} {table : List Byte} {l7 : Bool}
    (htable : textTable sel = some table) (codes : List (Nat ⊕ Byte)) {p : Nat}
    (hcodes : ∀ r, Sum.inl r ∈ codes → r < 23) (h : StreamHolds m p (codes.flatMap (textCodeFields l7)))
    (hp : p + fieldsWidth (codes.flatMap (textCodeFields l7)) ≤ 8192) :
    textSymbols m table l7 codes.length p =
      .ok (codes.map (textCodeValue table), p + fieldsWidth (codes.flatMap (textCodeFields l7))) := by
  induction codes generalizing p with
  | nil => rfl
  | cons c codes ih =>
    obtain ⟨hfirst, hrest⟩ := (streamHolds_append m _ _ p).1 h
    rw [List.flatMap_cons, fieldsWidth_append, ← Nat.add_assoc] at hp ⊢
    have hone := textSymbol_of_code htable (fun r hr => hcodes r (hr ▸ List.mem_cons_self)) hfirst (by omega)
    have hmore := ih (fun r hr => hcodes r (List.mem_cons_of_mem _ hr)) hrest hp
    simp only [List.length_cons, textSymbols, hone, hmore, List.map_cons]

/-- An error behind whole codes is the loop's. -/
theorem textSymbols_error {m : Memory} {sel n p : Nat} {table : List Byte} {l7 : Bool} {e : CmdError}
    (htable : textTable sel = some table) (codes : List (Nat ⊕ Byte))
    (hcodes : ∀ r, Sum.inl r ∈ codes → r < 23) (h : StreamHolds m p (codes.flatMap (textCodeFields l7)))
    (hp : p + fieldsWidth (codes.flatMap (textCodeFields l7)) ≤ 8192) (hn : codes.length < n)
    (herr : textSymbol m table l7 (p + fieldsWidth (codes.flatMap (textCodeFields l7))) = .error e) :
    textSymbols m table l7 n p = .error e := by
  obtain ⟨n, rfl⟩ : ∃ k, n = k + 1 := ⟨n - 1, by omega⟩
  induction codes generalizing p n with
  | nil =>
    have herr : textSymbol m table l7 p = .error e := herr
    simp only [textSymbols, herr]
  | cons c codes ih =>
    obtain ⟨hfirst, hrest⟩ := (streamHolds_append m _ _ p).1 h
    rw [List.flatMap_cons, fieldsWidth_append, ← Nat.add_assoc] at hp herr
    rw [List.length_cons] at hn
    have hone := textSymbol_of_code htable (fun r hr => hcodes r (hr ▸ List.mem_cons_self)) hfirst (by omega)
    obtain ⟨n, rfl⟩ : ∃ k, n = k + 1 := ⟨n - 1, by omega⟩
    have hmore := ih (fun r hr => hcodes r (List.mem_cons_of_mem _ hr)) hrest hp herr n (by omega)
    rw [textSymbols, hone]
    simp only [hmore]

/-- SEL and L7, then the symbols. -/
theorem textDecode_of_header {m : Memory} {sel n p : Nat} {table : List Byte} {l7 : Bool} {fs : List Field}
    (htable : textTable sel = some table) (h : StreamHolds m p (⟨sel, 2⟩ :: ⟨l7.toNat, 1⟩ :: fs))
    (hp : p + 3 ≤ 8192) : textDecode m n p = textSymbols m table l7 n (p + 3) := by
  have hhead : getBits m p 2 = .ok (sel, p + 2) := getBits_of_holds h (show p + 2 ≤ 8192 by omega)
  have hl7 : getBits m (p + 2) 1 = .ok (l7.toNat, p + 2 + 1) := getBits_of_holds h.2 hp
  simp only [textDecode, hhead, htable, hl7, decide_toNat_eq_one]

/-- An error in the symbol behind whole codes is TXTDEC's. -/
theorem textDecode_error {m : Memory} {sel n p : Nat} {table : List Byte} {l7 : Bool} {e : CmdError}
    {codes : List (Nat ⊕ Byte)} {more : List Field} (htable : textTable sel = some table)
    (hcodes : ∀ r, Sum.inl r ∈ codes → r < 23) (hn : codes.length < n)
    (h : StreamHolds m p (⟨sel, 2⟩ :: ⟨l7.toNat, 1⟩ :: codes.flatMap (textCodeFields l7) ++ more))
    (hp : p + 3 + fieldsWidth (codes.flatMap (textCodeFields l7)) ≤ 8192)
    (herr : StreamHolds m (p + 3 + fieldsWidth (codes.flatMap (textCodeFields l7))) more →
      textSymbol m table l7 (p + 3 + fieldsWidth (codes.flatMap (textCodeFields l7))) = .error e) :
    textDecode m n p = .error e := by
  obtain ⟨hfs, hmore⟩ := (streamHolds_append m (codes.flatMap (textCodeFields l7)) more (p + 3)).1 h.2.2
  rw [textDecode_of_header htable h (by omega)]
  exact textSymbols_error htable codes hcodes hfs hp hn (herr hmore)

/-- R662: the codes 7 + 8·e with e from 12 on are reserved. -/
theorem textSymbol_of_reserved {m : Memory} {table : List Byte} {l7 : Bool} {p e : Nat}
    (hlen : table.length = 23) (he : 12 ≤ e) (h : StreamHolds m p [⟨7 + 8 * e, 7⟩]) (hp : p + 7 ≤ 8192) :
    textSymbol m table l7 p = .error .decode := by
  have hsplit := streamHolds_split (a := 3) (b := 4) h
  rw [show (7 + 8 * e) % 2 ^ 3 = 7 by omega, show (7 + 8 * e) / 2 ^ 3 = e by omega] at hsplit
  have hgroup : getBits m p 3 = .ok (7, p + 3) := getBits_of_holds hsplit (show p + 3 ≤ 8192 by omega)
  have hextra : getBits m (p + 3) (extraBits 7) = .ok (e, p + 3 + 4) := getBits_of_holds hsplit.2 hp
  have hnone : table[groupRank 7 e]? = none := List.getElem?_eq_none (by
    show table.length ≤ 11 + e
    omega)
  simp only [textSymbol, hgroup, hextra, hnone]
  rfl

/-- A symbol whose group or whose next field passes the end. -/
theorem textSymbol_of_runsOut {m : Memory} {table : List Byte} {l7 : Bool} {p w : Nat} {part : List Field}
    (hpart : part = [] ∧ w = 3 ∨ part = [⟨3, 3⟩] ∧ w = literalWidth l7 ∨
      ∃ g, 4 ≤ g ∧ part = [⟨g, 3⟩] ∧ w = extraBits g)
    (hw : 1 ≤ w) (h : StreamHolds m p part) (hp : p + fieldsWidth part ≤ 8192)
    (hout : 8192 < p + fieldsWidth part + w) : textSymbol m table l7 p = .error .range := by
  obtain ⟨rfl, rfl⟩ | ⟨rfl, rfl⟩ | ⟨g, hg, rfl, rfl⟩ := hpart
  · have hgroup : getBits m p 3 = .error .range := getBits_range (by decide) hout
    rw [textSymbol, hgroup]
  · have hgroup : getBits m p 3 = .ok (3, p + 3) := getBits_of_holds h hp
    have hlit : getBits m (p + 3) (literalWidth l7) = .error .range := getBits_range hw hout
    simp only [textSymbol, hgroup, if_true, hlit]
  · have hgroup : getBits m p 3 = .ok (g, p + 3) := getBits_of_holds h hp
    have hextra : getBits m (p + 3) (extraBits g) = .error .range := getBits_range hw hout
    simp only [textSymbol, hgroup, if_neg (show ¬g = 3 by omega), hextra]

/-- What R662 reads in a symbol: a group, an escaped literal, or the extra bits of a group. -/
theorem textPart_of {l7 : Bool} {part : List Field} {w : Nat}
    (h : part = [] ∧ w = 3 ∨ part = [⟨3, 3⟩] ∧ w = (if l7 then 7 else 8) ∨
      part = [⟨4, 3⟩] ∧ w = 1 ∨ part = [⟨5, 3⟩] ∧ w = 1 ∨ part = [⟨6, 3⟩] ∧ w = 2 ∨
      part = [⟨7, 3⟩] ∧ w = 4) :
    (part = [] ∧ w = 3 ∨ part = [⟨3, 3⟩] ∧ w = literalWidth l7 ∨
      ∃ g, 4 ≤ g ∧ part = [⟨g, 3⟩] ∧ w = extraBits g) ∧ 1 ≤ w := by
  obtain h | ⟨rfl, rfl⟩ | ⟨rfl, rfl⟩ | ⟨rfl, rfl⟩ | ⟨rfl, rfl⟩ | ⟨rfl, rfl⟩ := h
  · exact ⟨.inl h, by omega⟩
  · exact ⟨.inr (.inl ⟨rfl, rfl⟩), by cases l7 <;> decide⟩
  · exact ⟨.inr (.inr ⟨4, by decide, rfl, rfl⟩), by decide⟩
  · exact ⟨.inr (.inr ⟨5, by decide, rfl, rfl⟩), by decide⟩
  · exact ⟨.inr (.inr ⟨6, by decide, rfl, rfl⟩), by decide⟩
  · exact ⟨.inr (.inr ⟨7, by decide, rfl, rfl⟩), by decide⟩

/-- Settles O37. -/
theorem txtdecReadsItsStream : Obligations.TxtdecReadsItsStream := by
  intro s legal
  have hexec := exec_txtdec_of_legal legal
  refine ⟨fun sel l7 table codes hd fs htable hcodes _ hhd hfs => ?_, fun hout => ?_, fun sel hsel hout => ?_,
    fun hin hthree => ?_⟩
  · subst hhd
    have hfs : fs = codes.flatMap (textCodeFields l7) := hfs
    have hwidth : fieldsWidth ([⟨sel, 2⟩, ⟨l7.toNat, 1⟩] ++ fs) = 3 + fieldsWidth fs := by
      simp only [List.cons_append, List.nil_append, fieldsWidth_cons]
      omega
    rw [hwidth]
    subst hfs
    refine ⟨fun hn hroom hholds => ?_, fun e he _ hn hin hholds => ?_, fun part w hn hpart hout => ?_⟩
    · have hdec := (textDecode_of_header (n := codes.length) htable hholds (by omega)).trans
        (textSymbols_of_codes htable codes hcodes hholds.2.2 (by omega))
      rw [hn, Nat.add_assoc] at hdec
      exact ⟨_, hexec.trans (complete_deliver_ok hdec), writesBlock_writeBytes _ _ _⟩
    · refine hexec.trans (complete_deliver_error (textDecode_error htable hcodes hn hholds (by omega) ?_))
      exact fun h => textSymbol_of_reserved (lt_three_and_length_of_textTable htable).2 he h (by omega)
    · obtain ⟨hholds, hin, hpast⟩ := State.RunsOutAfter.fits hout
      have hall : fieldsWidth (⟨sel, 2⟩ :: ⟨l7.toNat, 1⟩ :: codes.flatMap (textCodeFields l7) ++ part) =
          3 + fieldsWidth (codes.flatMap (textCodeFields l7)) + fieldsWidth part := by
        rw [← hwidth, ← fieldsWidth_append]
        rfl
      have hin := hall ▸ hin
      have hpast := hall ▸ hpast
      refine hexec.trans (complete_deliver_error (textDecode_error htable hcodes hn hholds (by omega) ?_))
      exact fun h => textSymbol_of_runsOut (textPart_of hpart).1 (textPart_of hpart).2 h (by omega) (by omega)
  · have hhead := hout.getBits (by decide)
    refine hexec.trans (complete_deliver_error ?_)
    rw [textDecode, show getBits s.str s.cur.toNat 2 = .error .range from hhead]
  · obtain ⟨hholds, hin, -⟩ := hout.fits
    have hhead : getBits s.str s.cur.toNat 2 = .ok (sel, _) := getBits_of_holds hholds hin
    have hl7 := hout.getBits (by decide)
    refine hexec.trans (complete_deliver_error ?_)
    obtain ⟨table, htable⟩ : ∃ table, textTable sel = some table := by
      obtain rfl | rfl | rfl : sel = 0 ∨ sel = 1 ∨ sel = 2 := by omega
      · exact ⟨_, rfl⟩
      · exact ⟨_, rfl⟩
      · exact ⟨_, rfl⟩
    have hl7 : getBits s.str (s.cur.toNat + 2) 1 = .error .range := hl7
    simp only [textDecode, hhead, htable, hl7]
  · refine hexec.trans (complete_deliver_error ?_)
    rw [textDecode, getBits_ok hin, hthree]
    rfl

end Sys2Proof.Machine
end

section
/-! SUPPORT. The rules' tables and widths (42_fixed_width.md R501, 45_text.md R655 to R662, 46_string.md R700 to
R702, R709). -/

namespace Sys2Proof.Machine

/-- R701's ranges, one width at a time. -/
theorem idxw_eq_of_range {u b : Nat} (hb : 1 ≤ b) (hlo : 2 ^ b < u) (hhi : u ≤ 2 ^ (b + 1)) :
    idxw u = b + 1 := by
  have hle := (idxw_le_iff (u := u) (b := b + 1) (by omega)).2 hhi
  have hlt := mt (idxw_le_iff hb).1 (Nat.not_le.2 hlo)
  omega

theorem idxw_ranges (u : Nat) : (u ≤ 2 → idxw u = 1) ∧ (3 ≤ u → u ≤ 4 → idxw u = 2) ∧
    (5 ≤ u → u ≤ 8 → idxw u = 3) ∧ (9 ≤ u → u ≤ 16 → idxw u = 4) ∧ (17 ≤ u → u ≤ 32 → idxw u = 5) ∧
    (33 ≤ u → u ≤ 64 → idxw u = 6) ∧ (65 ≤ u → u ≤ 128 → idxw u = 7) :=
  ⟨fun h => le_antisymm ((idxw_le_iff le_rfl).2 h) (one_le_idxw u),
    idxw_eq_of_range (b := 1) (by decide), idxw_eq_of_range (b := 2) (by decide),
    idxw_eq_of_range (b := 3) (by decide), idxw_eq_of_range (b := 4) (by decide),
    idxw_eq_of_range (b := 5) (by decide), idxw_eq_of_range (b := 6) (by decide)⟩

/-- R702: posw(i) is the fewest bits, at least one, that hold every value below i. -/
theorem posw_least (i : Nat) : 1 ≤ posw i ∧ i ≤ 2 ^ posw i ∧ ∀ b, 1 ≤ b → i ≤ 2 ^ b → posw i ≤ b :=
  ⟨one_le_idxw i, le_two_pow_idxw i, fun _ hb => (idxw_le_iff hb).2⟩

theorem fieldsWidth_eq_sum (fs : List Field) : fieldsWidth fs = (fs.map Field.width).sum := by
  induction fs with
  | nil => rfl
  | cons f fs ih => rw [fieldsWidth_cons, ih, List.map_cons, List.sum_cons]

theorem textTable_of_three_le {sel : Nat} (h : 3 ≤ sel) : textTable sel = none := by
  obtain ⟨k, rfl⟩ := Nat.exists_eq_add_of_le' h
  rfl

/-- Settles O60. -/
theorem tablesAndWidthsAreTheRules : Obligations.TablesAndWidthsAreTheRules := by
  refine ⟨by decide, rfl, rfl, rfl, fun _ => textTable_of_three_le, rfl,
    fun sel table htable v r => rankIn_eq_some_iff (nodup_of_textTable htable), fun v => ?_, fun v => ?_,
    by decide, idxw_ranges, ⟨by decide, fun i _ => posw_least i⟩,
    fun lw u i => ⟨rfl, fun _ => rfl, fun _ _ => rfl⟩,
    fun lw u i => ⟨rfl, fun toks => ⟨rfl, fun _ => rfl, fun _ _ => rfl,
      (fieldsWidth_tokensFields lw toks u i).symm⟩⟩,
    fieldsWidth_eq_sum, fun x i h => byteAt_eq_getElem h, fun m p n k => ?_⟩
  · exact List.contains_iff_mem
  · exact List.contains_iff_mem
  · exact testBit_readField n m p k

end Sys2Proof.Machine
end
